-- ==== Sys2Proof/Word.lean ====
section
/-! DEFINITION. The two word types of the block: a storage slot or frame byte, and a 16-bit word
(command word, response word, sequence number, checksum). -/

namespace Sys2Proof

/-- `u8`: a storage slot, a frame byte, an operand byte (R12, R22). -/
abbrev Byte := BitVec 8

/-- `u16`: `SEQ`, a checksum, a command word, a response word (R12, R28, R91, R94). -/
abbrev Half := BitVec 16

end Sys2Proof
end

