-- ==== Sys2Proof/Syntax.lean ====
section
/-! DEFINITION. The operation set: one constructor of `Instr` per row of spec/opcode_table.json
(R92), with its operands as typed values (R93, R97). -/

namespace Sys2Proof

/-- The two RingBuffer instances (R27); bit 12 of an `RB_*` command word selects one (R92). -/
inductive Buf where
  | rx
  | tx
deriving DecidableEq, Repr

/-- `CFG.mode` (R30): three legal values. -/
inductive Mode where
  | idle
  | active
  | scan
deriving DecidableEq, Repr

/-- `CFG.biteRate` (R30). -/
inductive BiteRate where
  | slow
  | medium
  | fast
  | realtime
deriving DecidableEq, Repr

/-- `CFG.power` (R30). -/
inductive Power where
  | low
  | medium
  | high
  | max
deriving DecidableEq, Repr

/-- `CFG.channel` (R30): the four logical channels. -/
inductive Channel where
  | ch1
  | ch2
  | ch3
  | ch4
deriving DecidableEq, Repr

/-- The 22 operations of R92. -/
inductive Instr where
  | rbStore (b : Buf) (d : Byte)
  | rbReadByte (b : Buf)
  | rbPeek (b : Buf)
  | rbOccupied (b : Buf)
  | rbFreeSlots (b : Buf)
  | pcChecksum
  | pcEncode
  | pcSerialize
  | pcParse
  | pcValidate
  | available
  | read
  | peek
  | write (d : Byte)
  | availableForWrite
  | flush
  | tick
  | setMode (m : Mode)
  | setBiteRate (r : BiteRate)
  | setPower (p : Power)
  | setChannel (c : Channel)
  | init
deriving DecidableEq, Repr

/-- Why a 16-bit value is a reserved command word (R95). -/
inductive Reserved where
  /-- `unit` in `0110 .. 1111` -/
  | unit
  /-- an `op` above the highest listed for its unit -/
  | op
  /-- a non-zero `d` where the row says 0, or `d[7:2]` non-zero in a setter -/
  | operand
  /-- `mm = 11` in `SET_MODE` -/
  | modeCode
deriving DecidableEq, Repr

end Sys2Proof
end

