-- ==== Sys2Proof/WellFormed.lean ====
section
/-! DEFINITION. Which 16-bit values are well-formed command words: those that match a row of the
opcode map (R92, the table's mask and match) and are not the one word a row's constraint reserves
(R95). It is written from the table's masks, apart from the decoder, so that each can be held
against the other. An `Instr` needs no check of its own: its operands are typed, and every value of
those types is a legal operand (R93, R97), so every term encodes to a well-formed word. -/

namespace Sys2Proof

/-- One row of the opcode map as spec/opcode_table.json gives it. -/
structure TableRow where
  mnemonic : String
  mask : Half
  pattern : Half
deriving DecidableEq, Repr

/-- The RingBuffer rows of R92. -/
def ringRows : List TableRow :=
  [ ⟨"RB_STORE", 0xEF00, 0x0000⟩
  , ⟨"RB_READBYTE", 0xEFFF, 0x0100⟩
  , ⟨"RB_PEEK", 0xEFFF, 0x0200⟩
  , ⟨"RB_OCCUPIED", 0xEFFF, 0x0300⟩
  , ⟨"RB_FREESLOTS", 0xEFFF, 0x0400⟩ ]

/-- The PacketCodec rows of R92. -/
def codecRows : List TableRow :=
  [ ⟨"PC_CHECKSUM", 0xFFFF, 0x2000⟩
  , ⟨"PC_ENCODE", 0xFFFF, 0x2100⟩
  , ⟨"PC_SERIALIZE", 0xFFFF, 0x2200⟩
  , ⟨"PC_PARSE", 0xFFFF, 0x2300⟩
  , ⟨"PC_VALIDATE", 0xFFFF, 0x2400⟩ ]

/-- The stream-contract rows of R92. -/
def streamRows : List TableRow :=
  [ ⟨"AVAILABLE", 0xFFFF, 0x3000⟩
  , ⟨"READ", 0xFFFF, 0x3100⟩
  , ⟨"PEEK", 0xFFFF, 0x3200⟩
  , ⟨"WRITE", 0xFF00, 0x3300⟩
  , ⟨"AVAILABLE_FOR_WRITE", 0xFFFF, 0x3400⟩
  , ⟨"FLUSH", 0xFFFF, 0x3500⟩ ]

/-- The servicing rows of R92. -/
def servicingRows : List TableRow :=
  [ ⟨"TICK", 0xFFFF, 0x4000⟩
  , ⟨"SET_MODE", 0xFFFC, 0x5000⟩
  , ⟨"SET_BITERATE", 0xFFFC, 0x5100⟩
  , ⟨"SET_POWER", 0xFFFC, 0x5200⟩
  , ⟨"SET_CHANNEL", 0xFFFC, 0x5300⟩
  , ⟨"INIT", 0xFFFF, 0x5400⟩ ]

/-- The whole opcode map, in the table's order (R92). -/
def opcodeRows : List TableRow := ringRows ++ codecRows ++ streamRows ++ servicingRows

/-- `w` is of this row's pattern. -/
def TableRow.admits (r : TableRow) (w : Half) : Bool := w &&& r.mask == r.pattern

/-- The words a row's constraint takes out of it: `SET_MODE` with `mm = 11` (R95). -/
def constrainedWords : List Half := [0x5003]

/-- A command word R92 gives an operation: it matches a row and no constraint reserves it (R95). -/
def wellFormedWord (w : Half) : Bool :=
  opcodeRows.any (·.admits w) && !constrainedWords.contains w

end Sys2Proof
end

