-- ==== Sys2Proof/Decode.lean ====
section
/-! DEFINITION. The decoder of command words (R91 to R97): total on all 65536 words, refusing a
reserved one by the name of what is wrong with it (R95). After it the encoder, from the same rule. -/

namespace Sys2Proof

/-- What a command word decodes to. -/
inductive Decoded where
  | ok (i : Instr)
  | reserved (why : Reserved)
deriving DecidableEq, Repr

/-- The `unit` field, bits `[15:12]` (R91). -/
def unitField (w : Half) : BitVec 4 := w.extractLsb' 12 4

/-- The `op` field, bits `[11:8]` (R91). -/
def opField (w : Half) : BitVec 4 := w.extractLsb' 8 4

/-- The operand `d`, bits `[7:0]` (R91). -/
def operandField (w : Half) : Byte := w.extractLsb' 0 8

/-- The two-bit enumeration code `d[1:0]` of a setter (R93). -/
def codeField (w : Half) : BitVec 2 := w.extractLsb' 0 2

/-- `d` must be 0 for an operation that takes no operand (R91, R95). -/
def decodeNoOperand (w : Half) (i : Instr) : Decoded :=
  if operandField w = 0 then .ok i else .reserved .operand

/-- A setter requires `d[7:2] = 0` (R93, R95). -/
def decodeSetter (w : Half) (d : Decoded) : Decoded :=
  if w.extractLsb' 2 6 = 0 then d else .reserved .operand

/-- The mode codes of R97; code 3 is reserved (R95). -/
def modeOfCode (c : BitVec 2) : Option Mode :=
  match c.toNat with
  | 0 => some .idle
  | 1 => some .active
  | 2 => some .scan
  | _ => none

/-- The rate codes of R97. -/
def biteRateOfCode (c : BitVec 2) : BiteRate :=
  match c.toNat with
  | 0 => .slow
  | 1 => .medium
  | 2 => .fast
  | _ => .realtime

/-- The power codes of R97. -/
def powerOfCode (c : BitVec 2) : Power :=
  match c.toNat with
  | 0 => .low
  | 1 => .medium
  | 2 => .high
  | _ => .max

/-- The channel codes of R97: logical channel minus one. -/
def channelOfCode (c : BitVec 2) : Channel :=
  match c.toNat with
  | 0 => .ch1
  | 1 => .ch2
  | 2 => .ch3
  | _ => .ch4

/-- Units `000b`: the RingBuffer operations on buffer `b` (R92). -/
def decodeRing (b : Buf) (w : Half) : Decoded :=
  match (opField w).toNat with
  | 0 => .ok (.rbStore b (operandField w))
  | 1 => decodeNoOperand w (.rbReadByte b)
  | 2 => decodeNoOperand w (.rbPeek b)
  | 3 => decodeNoOperand w (.rbOccupied b)
  | 4 => decodeNoOperand w (.rbFreeSlots b)
  | _ => .reserved .op

/-- Unit `0010`: the PacketCodec operations (R92). -/
def decodeCodec (w : Half) : Decoded :=
  match (opField w).toNat with
  | 0 => decodeNoOperand w .pcChecksum
  | 1 => decodeNoOperand w .pcEncode
  | 2 => decodeNoOperand w .pcSerialize
  | 3 => decodeNoOperand w .pcParse
  | 4 => decodeNoOperand w .pcValidate
  | _ => .reserved .op

/-- Unit `0011`: the stream contract (R92). -/
def decodeStream (w : Half) : Decoded :=
  match (opField w).toNat with
  | 0 => decodeNoOperand w .available
  | 1 => decodeNoOperand w .read
  | 2 => decodeNoOperand w .peek
  | 3 => .ok (.write (operandField w))
  | 4 => decodeNoOperand w .availableForWrite
  | 5 => decodeNoOperand w .flush
  | _ => .reserved .op

/-- Unit `0100`: the servicing tick (R92). -/
def decodeTick (w : Half) : Decoded :=
  match (opField w).toNat with
  | 0 => decodeNoOperand w .tick
  | _ => .reserved .op

/-- `SET_MODE` with the reserved code refused by its own name (R95). -/
def decodeSetMode (w : Half) : Decoded :=
  match modeOfCode (codeField w) with
  | some m => .ok (.setMode m)
  | none => .reserved .modeCode

/-- Unit `0101`: the setters and `INIT` (R92). -/
def decodeConfig (w : Half) : Decoded :=
  match (opField w).toNat with
  | 0 => decodeSetter w (decodeSetMode w)
  | 1 => decodeSetter w (.ok (.setBiteRate (biteRateOfCode (codeField w))))
  | 2 => decodeSetter w (.ok (.setPower (powerOfCode (codeField w))))
  | 3 => decodeSetter w (.ok (.setChannel (channelOfCode (codeField w))))
  | 4 => decodeNoOperand w .init
  | _ => .reserved .op

/-- The decoder (R91, R92, R95). -/
def decode (w : Half) : Decoded :=
  match (unitField w).toNat with
  | 0 => decodeRing .rx w
  | 1 => decodeRing .tx w
  | 2 => decodeCodec w
  | 3 => decodeStream w
  | 4 => decodeTick w
  | 5 => decodeConfig w
  | _ => .reserved .unit

/-- `unit ++ op ++ d` (R91). -/
def commandWord (unit op : BitVec 4) (d : Byte) : Half := unit ++ op ++ d

/-- The code of a mode (R97). -/
def modeCode : Mode → BitVec 2
  | .idle => 0
  | .active => 1
  | .scan => 2

/-- The code of a rate (R97). -/
def biteRateCode : BiteRate → BitVec 2
  | .slow => 0
  | .medium => 1
  | .fast => 2
  | .realtime => 3

/-- The code of a power (R97). -/
def powerCode : Power → BitVec 2
  | .low => 0
  | .medium => 1
  | .high => 2
  | .max => 3

/-- The code of a logical channel: the channel minus one (R97). -/
def channelCode : Channel → BitVec 2
  | .ch1 => 0
  | .ch2 => 1
  | .ch3 => 2
  | .ch4 => 3

/-- The unit of the RingBuffer operations on `b`: `000b` (R92). -/
def ringUnit : Buf → BitVec 4
  | .rx => 0
  | .tx => 1

/-- The encoder: the command word R92 gives an operation. -/
def encode : Instr → Half
  | .rbStore b d => commandWord (ringUnit b) 0 d
  | .rbReadByte b => commandWord (ringUnit b) 1 0
  | .rbPeek b => commandWord (ringUnit b) 2 0
  | .rbOccupied b => commandWord (ringUnit b) 3 0
  | .rbFreeSlots b => commandWord (ringUnit b) 4 0
  | .pcChecksum => commandWord 2 0 0
  | .pcEncode => commandWord 2 1 0
  | .pcSerialize => commandWord 2 2 0
  | .pcParse => commandWord 2 3 0
  | .pcValidate => commandWord 2 4 0
  | .available => commandWord 3 0 0
  | .read => commandWord 3 1 0
  | .peek => commandWord 3 2 0
  | .write d => commandWord 3 3 d
  | .availableForWrite => commandWord 3 4 0
  | .flush => commandWord 3 5 0
  | .tick => commandWord 4 0 0
  | .setMode m => commandWord 5 0 ((modeCode m).setWidth 8)
  | .setBiteRate r => commandWord 5 1 ((biteRateCode r).setWidth 8)
  | .setPower p => commandWord 5 2 ((powerCode p).setWidth 8)
  | .setChannel c => commandWord 5 3 ((channelCode c).setWidth 8)
  | .init => commandWord 5 4 0

/-- The operation the decoder reads from an opcode-table word of `nbits` bits. -/
def decodeTableWord (nbits w : Nat) : Option Instr :=
  match decode (BitVec.ofNat 16 (w % 2 ^ nbits)) with
  | .ok i => some i
  | .reserved _ => none

end Sys2Proof
end

