-- ==== Sys2Proof/Config.lean ====
section
/-! DEFINITION. The named parameters of the block (R10, R11, R86), their legal ranges and their
defaults (92_eei_decisions.md), and the one free value. State holds a `Params`, which no operation
changes (R37), so that what is proved of every state is proved of every choice of parameters. -/

namespace Sys2Proof

/-- `WIRE_ORDER` (R55, D5): which byte of a 16-bit wire field comes first. -/
inductive WireOrder where
  | little
  | big
deriving DecidableEq, Repr

/-- `FRAME_LEN_POLICY` (R85, D6): how a received frame's length relates to its `length` field. -/
inductive FrameLenPolicy where
  | exact
  | atLeast
deriving DecidableEq, Repr

/-- `CONTEXTS` (R60, R61, D23): whether an operation is one atomic step or a program of atomic steps. -/
inductive Contexts where
  | single
  | dual
deriving DecidableEq, Repr

/-- Which interfaces stand to the outside. `integrated` is the block of R42, whose components are
reachable only through its own operations; `components` is a RingBuffer or the PacketCodec modelled
alone, at its internal interface (R48, R92). The setting is the model's: notes/assumptions/29.md. -/
inductive Assembly where
  | integrated
  | components
deriving DecidableEq, Repr

/-- The eight masks `FLAG_<name>` of the flags byte (R86, D7). -/
structure FlagMasks where
  ack : Byte
  retry : Byte
  error : Byte
  broadcast : Byte
  priority : Byte
  encrypted : Byte
  fragment : Byte
  reserved : Byte
deriving DecidableEq, Repr

/-- The masks in the order R86 lists them. -/
def FlagMasks.all (f : FlagMasks) : List Byte :=
  [f.ack, f.retry, f.error, f.broadcast, f.priority, f.encrypted, f.fragment, f.reserved]

/-- Eight independently settable flags of one byte (R86): each mask is one bit, no two the same
(notes/assumptions/23.md). -/
abbrev FlagMasks.Legal (f : FlagMasks) : Prop :=
  f.all.Nodup ∧ ∀ m ∈ f.all, m ∈ ([1, 2, 4, 8, 16, 32, 64, 128] : List Byte)

/-- The parameters of the block (R10, R11), and the model's own setting of what is modelled. -/
structure Params where
  /-- `C`, slots of each ring buffer and modulus of the indices -/
  capacity : Nat
  /-- `MTU`, the largest frame -/
  mtu : Nat
  /-- `WIRE_ORDER` -/
  wireOrder : WireOrder
  /-- `FRAME_LEN_POLICY` -/
  frameLenPolicy : FrameLenPolicy
  /-- `FLAG_<name>` -/
  flags : FlagMasks
  /-- `ACK_ECHO_ON_ACK` -/
  ackEchoOnAck : Bool
  /-- `TX_STREAM_ID` -/
  txStreamId : Byte
  /-- `CONTEXTS` -/
  contexts : Contexts
  /-- the integrated block, or its components alone (R42, R48) -/
  assembly : Assembly
deriving DecidableEq, Repr

/-- The ranges of R11 (D17): `2 <= C <= 65536`, `8 <= MTU <= 262`, and legal flag masks. -/
abbrev Params.Legal (p : Params) : Prop :=
  2 ≤ p.capacity ∧ p.capacity ≤ 65536 ∧ 8 ≤ p.mtu ∧ p.mtu ≤ 262 ∧ p.flags.Legal

/-- `HEADER` (R10, R82): the bytes of a frame that are not payload. -/
def Config.headerSize : Nat := 7

/-- `USABLE = C - 1` (R10): the bytes a RingBuffer of `c` slots can hold. -/
def Config.usable (c : Nat) : Nat := c - 1

/-- `USABLE` of these parameters (R10). -/
def Params.usable (p : Params) : Nat := Config.usable p.capacity

/-- `IDXW = ceil(log2 C)` (R11, R21, D17), the width of `head` and `tail`, for the legal `C >= 2`. -/
def Config.indexWidth (c : Nat) : Nat := Nat.log2 (c - 1) + 1

/-- `IDXW` of these parameters (R11). -/
def Params.indexWidth (p : Params) : Nat := Config.indexWidth p.capacity

/-- `MAXP = MTU - HEADER` (R10, R82). -/
def Params.maxPayload (p : Params) : Nat := p.mtu - Config.headerSize

/-- The default masks: the listed order from bit 0 (R86, D7). -/
def Config.defaultFlags : FlagMasks :=
  { ack := 0x01, retry := 0x02, error := 0x04, broadcast := 0x08
    priority := 0x10, encrypted := 0x20, fragment := 0x40, reserved := 0x80 }

/-- The defaults of R10 and R11 (the last lines of 92_eei_decisions.md). -/
def Config.defaults : Params :=
  { capacity := 128, mtu := 32, wireOrder := .little, frameLenPolicy := .exact
    flags := Config.defaultFlags, ackEchoOnAck := true, txStreamId := 0, contexts := .single
    assembly := .integrated }

/-- FREE VALUE (notes/assumptions/9.md, DESIGN CHOICE). R93 carries wide operands on a byte-wide side
port and gives no protocol for it. When an operation reads a byte position beyond the bytes
presented, this is the byte it reads: a value nothing constrains, fixed by the bytes presented and
the position (the codec operations repeat their answers, R59). -/
opaque Config.sidePortIdle (presented : List Byte) (position : Nat) : Byte

end Sys2Proof
end

