-- ==== Sys2Proof/Machine/State.lean ====
section
/-! DEFINITION. The state of the block as plain data: the eleven elements of R20, the boundary's
inputs and outputs (R42 to R47), the parameters (R10, R11, R37), and, for `CONTEXTS = dual`, the
operation each context is in the middle of (R61). Reset values are those of R38. -/

namespace Sys2Proof.Machine

/-- One storage array `B.buf` (R22, R50): the slots that hold something other than
`unwrittenByte`, by rising slot number. -/
abbrev Memory := List Host.Cell

/-- What an unlisted slot reads as. The spec leaves storage unspecified after reset and shows that no
operation returns it (R38, R39, U1). DESIGN CHOICE, unsafe: notes/assumptions/2.md. -/
def unwrittenByte : Byte := 0

/-- Canonical form of a storage array: slot numbers strictly rising, no listed slot holding what an
unlisted one reads as. -/
abbrev Memory.wf (m : Memory) : Prop :=
  (m.map Prod.fst).Pairwise (· < ·) ∧ ∀ c ∈ m, c.2 ≠ unwrittenByte

/-- A RingBuffer (R21, R22): next write index, next read index, storage. Both indices are below `C`
in every state the block can be in (R21; `Safety.lean`, notes/assumptions/21.md). -/
structure RingBuffer where
  head : Nat
  tail : Nat
  buf : Memory
deriving DecidableEq, Repr

/-- Both indices 0, storage unspecified (R38, D16). -/
def ringAfterReset : RingBuffer := { head := 0, tail := 0, buf := [] }

/-- The configuration register `CFG` (R30), field by field (notes/assumptions/20.md). -/
structure Cfg where
  mode : Mode
  biteRate : BiteRate
  power : Power
  channel : Channel
deriving DecidableEq, Repr

/-- `{Idle, Slow, Low, Channel1}` (R31, R38). -/
def cfgDefaults : Cfg := { mode := .idle, biteRate := .slow, power := .low, channel := .ch1 }

/-- A Packet value (R41, R80). `length` is the number of payload bytes, so it is not held twice: see
`Packet.length` (notes/assumptions/22.md). -/
structure Packet where
  sequenceNumber : Half
  streamId : Byte
  flags : Byte
  payload : List Byte
  checksum : Half
deriving DecidableEq, Repr

/-- What the LinkDriver would answer to each call if it were called now (R46, R237, U4). The
environment sets them; no operation does (notes/assumptions/4.md). `recv` is `none` for a `false`
answer and otherwise the `rlen` bytes handed over (notes/assumptions/18.md). -/
structure LinkAnswers where
  init : Bool
  available : Bool
  recv : Option (List Byte)
  sendAck : Bool
  sendData : Bool
  currentlyTransmitting : Bool
deriving DecidableEq, Repr

/-- The seven LinkDriver calls with the arguments that go out (R46). -/
inductive LinkCall where
  | init
  | available
  | recv
  | send (bytes : List Byte) (len : Nat)
  | currentlyTransmitting
  | setDataRateAndPower (rate : BiteRate) (power : Power)
  | setChannel (n : Nat)
deriving DecidableEq, Repr

/-- What an observer of the link and trace ports sees, in order (R17, R47, R237). -/
inductive Event where
  | link (c : LinkCall)
  | ackObserved (seq : Half)
deriving DecidableEq, Repr

/-- The two roles, and the two ports by which they issue operations (R44, R45, R233, R234). -/
inductive Role where
  | application
  | servicing
deriving DecidableEq, Repr

/-- Under `CONTEXTS = dual`: the next atomic step of an operation in progress, with the temporaries
it carries (R33, R61, R72). The steps are those of the pseudocode of R171, R188, R202 to R204, R208. -/
inductive Activity where
  /-- call `Link.available()` (R152) -/
  | tickAvailable
  /-- call `Link.recv()` (R153) -/
  | tickRecv
  /-- `parse` the received bytes (R154) -/
  | tickParse (frame : List Byte)
  /-- `validate` the packet (R154), and observe its ACK flag (R155): R61 lists no step for the event
  `AckObserved`, and that it is of this one is the model's choice, notes/assumptions/30.md -/
  | tickValidate (p : Packet)
  /-- `freeSlots(RX)`, once (R156) -/
  | tickFreeSlots (p : Packet)
  /-- `store(RX, …)` of the first of the bytes still to copy (R156) -/
  | tickCopy (p : Packet) (rest : List Byte)
  /-- `encode` the ACK packet (R159) -/
  | tickAckEncode (p : Packet)
  /-- `serialize` the ACK packet (R160) -/
  | tickAckSerialize (ack : Packet)
  /-- call `Link.send` with the ACK's frame (R160) -/
  | tickAckSend (frame : List Byte)
  /-- call `Link.currentlyTransmitting()` (R163) -/
  | tickBusy
  /-- `occupied(TX)`, once (R164) -/
  | tickOccupied
  /-- `readByte(TX)`, with `n` bytes still to drain (R166) -/
  | tickDrain (n : Nat) (scratch : List Byte)
  /-- `encode` the data packet (R167) -/
  | tickEncode (scratch : List Byte)
  /-- advance `SEQ` (R168) -/
  | tickSeq (q : Packet)
  /-- `serialize` the data packet (R169) -/
  | tickSerialize (q : Packet)
  /-- call `Link.send` with the data packet's frame (R169) -/
  | tickSend (frame : List Byte)
  /-- `readByte(RX)`, discarding (R188) -/
  | flushRead
  /-- return from `flush`, some time after the read that found `RX` empty (R188, R266) -/
  | flushReturn
  /-- `CFG.biteRate <- r` (R202) -/
  | cfgBiteRate (r : BiteRate)
  /-- `CFG.power <- p` (R203) -/
  | cfgPower (p : Power)
  /-- `CFG.channel <- c` (R204) -/
  | cfgChannel (c : Channel)
  /-- call `Link.setDataRateAndPower` with the current values (R202, R203) -/
  | rfCall
  /-- call `Link.setChannel` with the current channel (R204) -/
  | channelCall
  /-- test `pins_valid`, then call `Link.init()` (R208) -/
  | initLink
  /-- write the default configuration (R208) -/
  | initDefaults
  /-- call `Link.setDataRateAndPower(Slow, Low)` (R208) -/
  | initRf
  /-- call `Link.setChannel(10)` (R208) -/
  | initChannel
deriving DecidableEq, Repr

/-- What the outside world does to the block, one at a time, between atomic steps (R42 to R46). -/
inductive Stimulus where
  /-- a command word presented at a port (R44, R45), or, where components are modelled alone, at the
  side of a component that this context drives (R48) -/
  | command (port : Role) (word : Half)
  /-- under `dual`: this context makes its next atomic step (R61) -/
  | advance (port : Role)
  /-- the LinkDriver's answers become these (R237) -/
  | link (answers : LinkAnswers)
  /-- these bytes are presented on the side port, which is of the codec's internal interface and not
  of the integrated block (R42, R48, R93) -/
  | side (bytes : List Byte)
  /-- the platform sets `pins_valid`, which it can only while the block does not run (R43, R209, R253) -/
  | pins (valid : Bool)
  /-- the level of `reset` (R43, R250) -/
  | reset (asserted : Bool)
deriving DecidableEq, Repr

/-- The state of the block and of its boundary. -/
structure State where
  /-- the parameters (R10, R11); constant (R37) -/
  par : Params
  /-- the receive ring buffer `RX` (R20) -/
  rx : RingBuffer
  /-- the transmit ring buffer `TX` (R20) -/
  tx : RingBuffer
  /-- the sequence counter `SEQ` (R28) -/
  seq : Half
  /-- the configuration register `CFG` (R30) -/
  cfg : Cfg
  /-- the `reset` input (R43) -/
  resetLevel : Bool
  /-- the `pins_valid` input (R43, R209) -/
  pinsValid : Bool
  /-- the LinkDriver's answers (R46, R237) -/
  link : LinkAnswers
  /-- the link and trace ports' output so far, oldest first (R17, R47) -/
  trace : List Event
  /-- the side port, bytes in (R93) -/
  sideIn : List Byte
  /-- the side port, bytes out (R93, R94) -/
  sideOut : List Byte
  /-- the response word last given (R94) -/
  rsp : Half
  /-- what the outside world does next, in order -/
  inputs : List Stimulus
  /-- under `dual`: what the application context is in the middle of (R61) -/
  app : Option Activity
  /-- under `dual`: what the servicing context is in the middle of (R61) -/
  svc : Option Activity
deriving DecidableEq, Repr

/-- The one fault of the model. The spec gives the block no fault outcome (R226). -/
inductive Fault where
  /-- Raised by the storage primitives `BufRead` and `BufWrite` when the slot number is not below `C`,
  and by `flush` when `RX.head` names no slot its reads can reach: such a slot does not exist (R15,
  R50). No state with its indices below `C` meets it (`Safety.lean`). Safe: the model stops.
  notes/assumptions/11.md -/
  | noSuchSlot
deriving DecidableEq, Repr

/-- Why the model takes no step. -/
inductive Refusal where
  /-- Raised by `exec`'s arm of an instruction that has no meaning yet. No arm does. Safe. -/
  | notModelled (mnemonic : String)
  /-- Raised by the operation port on a reserved command word: "A model refuses it (no step, a named
  refusal)" (R95, U14). Safe. -/
  | reserved (why : Reserved)
  /-- Raised by the operation port under `CONTEXTS = dual` when a context issues an operation of the
  other role (R45, R235, U15). Safe. notes/assumptions/15.md -/
  | roleViolation
  /-- Raised by the operation port when a command is presented while `reset` is asserted (R43, U16).
  Safe. -/
  | resetAsserted
  /-- Raised by the operation port and the side port when what is presented is of an interface that is
  not there: an `RB_*` or `PC_*` word, or side-port bytes, at the integrated block (R42, R48, R92), or
  an operation of the integrated block where components are modelled alone. Safe.
  notes/assumptions/29.md -/
  | notReachable
  /-- Raised when the platform would change `pins_valid` while the block runs, which it does not (R37,
  R43, R209, U22). Safe. notes/assumptions/6.md -/
  | strapHeld
deriving DecidableEq, Repr

/-- The outcome of a step of this machine. -/
abbrev Result := Host.Outcome State Fault Refusal

/-- The answers present at reset: no answer is `true` and no frame waits. DESIGN CHOICE, unsafe:
notes/assumptions/5.md. -/
def linkAtReset : LinkAnswers :=
  { init := false, available := false, recv := none, sendAck := false, sendData := false
    currentlyTransmitting := false }

/-- The block right after reset (R38, R250) with the default parameters. Inputs and outputs at the
boundary hold values the spec does not give: notes/assumptions/5.md, 6.md, 9.md, 10.md, 12.md. -/
def State.reset : State :=
  { par := Config.defaults, rx := ringAfterReset, tx := ringAfterReset, seq := 0, cfg := cfgDefaults
    resetLevel := false, pinsValid := true, link := linkAtReset, trace := []
    sideIn := [], sideOut := [], rsp := 0, inputs := [], app := none, svc := none }

end Sys2Proof.Machine
end

