-- ==== Sys2Proof/Machine/Flags.lean ====
section
/-! DEFINITION. The flags byte of a packet (R86, R87), and the packed views of `CFG` (R30) and of
the index registers (R21). The block has no condition flags: "full" and "empty" are computed from the
indices (R32; `Ops.lean`). -/

namespace Sys2Proof.Machine

/-- `(flags & mask) != 0`. -/
def flagSet (flags mask : Byte) : Bool := flags &&& mask != 0

/-- Has the packet the ACK flag (R155)? The only flag the block acts on (R86). -/
def hasAck (f : FlagMasks) (p : Packet) : Bool := flagSet p.flags f.ack

/-- `TX_FLAGS = ACK | PRIORITY`, the flags of every data packet (R10, R167). -/
def txFlags (f : FlagMasks) : Byte := f.ack ||| f.priority

/-- Is a validated packet answered with an ACK packet (R158)? -/
def answersWithAck (par : Params) (p : Packet) : Bool := par.ackEchoOnAck || !hasAck par.flags p

/-- The 8-bit register `CFG` (R30): `channel[7:6] power[5:4] biteRate[3:2] mode[1:0]`,
with the codes of R97. No operation reads it (R212); it is the observable view R30 allows. -/
def Cfg.word (c : Cfg) : Byte :=
  channelCode c.channel ++ powerCode c.power ++ biteRateCode c.biteRate ++ modeCode c.mode

/-- The register `B.head` as its `IDXW` bits (R20, R21). An index below `C` fits them
(notes/assumptions/21.md). -/
def RingBuffer.headRegister (c : Nat) (r : RingBuffer) : BitVec (Config.indexWidth c) :=
  BitVec.ofNat _ r.head

/-- The register `B.tail` as its `IDXW` bits (R20, R21). -/
def RingBuffer.tailRegister (c : Nat) (r : RingBuffer) : BitVec (Config.indexWidth c) :=
  BitVec.ofNat _ r.tail

/-- The transceiver channel of a logical channel: `10 * c` (R204, R205, R104: a table of four
entries). -/
def transceiverChannel : Channel → Nat
  | .ch1 => 10
  | .ch2 => 20
  | .ch3 => 30
  | .ch4 => 40

end Sys2Proof.Machine
end

