-- ==== Sys2Proof/Machine/Operands.lean ====
section
/-! DEFINITION. The operand forms and result forms of the block: the bytes of a 16-bit field (R13,
R55), the frame layout read as a packet and written as bytes (R81, R134), the operands of the
codec operations on the side port (R93), and the response words (R94). -/

namespace Sys2Proof.Machine

/-- `lo8(v)` (R13, R104). -/
def lo8 (v : Half) : Byte := v.extractLsb' 0 8

/-- `hi8(v)` (R13, R104). -/
def hi8 (v : Half) : Byte := v.extractLsb' 8 8

/-- The two bytes of a 16-bit field in wire order (R55, R81). -/
def wireBytes (o : WireOrder) (v : Half) : List Byte :=
  match o with
  | .little => [lo8 v, hi8 v]
  | .big => [hi8 v, lo8 v]

/-- The 16-bit field whose first byte on the wire is `a` and second `b`: `a + 256 * b` in little
order (R55, R104). -/
def ofWireBytes (o : WireOrder) (a b : Byte) : Half :=
  match o with
  | .little => b ++ a
  | .big => a ++ b

/-- `p.length` (R41, R83): the number of payload bytes, as the one-byte field. -/
def Packet.length (p : Packet) : Byte := BitVec.ofNat 8 p.payload.length

/-- `n` bytes from position `k` on. -/
def bytesFrom (byte : Nat → Byte) (k n : Nat) : List Byte := (List.range n).map fun i => byte (k + i)

/-- The packet whose frame's bytes are `byte 0, byte 1, …`, read in the layout of R81. -/
def packetAt (o : WireOrder) (byte : Nat → Byte) : Packet :=
  let n := (byte 2).toNat
  { sequenceNumber := ofWireBytes o (byte 0) (byte 1)
    streamId := byte 3
    flags := byte 4
    payload := bytesFrom byte 5 n
    checksum := ofWireBytes o (byte (5 + n)) (byte (6 + n)) }

/-- The frame of a packet (R81, R134): `7 + length` bytes, the checksum as it stands. -/
def serialize (o : WireOrder) (p : Packet) : List Byte :=
  wireBytes o p.sequenceNumber ++ [p.length, p.streamId, p.flags] ++ p.payload
    ++ wireBytes o p.checksum

/-- The byte an operation reads at position `k` of the side port: the one presented there, and past
the bytes presented a free value (R93; notes/assumptions/9.md). -/
def State.sideByte (s : State) (k : Nat) : Byte :=
  match s.sideIn[k]? with
  | some b => b
  | none => Config.sidePortIdle s.sideIn k

/-- The packet operand of `PC_CHECKSUM`, `PC_SERIALIZE` and `PC_VALIDATE`: in the frame layout on the
side port (R93). Bytes presented beyond the `7 + length` of the packet are ignored: R93 gives no protocol
that says so, DESIGN CHOICE, notes/assumptions/9.md. -/
def State.sidePacket (s : State) : Packet := packetAt s.par.wireOrder s.sideByte

/-- The operands of `encode` (R132). -/
structure EncodeOperands where
  payload : List Byte
  len : Nat
  seq : Half
  streamId : Byte
  flags : Byte
deriving DecidableEq, Repr

/-- The operands of `PC_ENCODE` on the side port: the frame layout without the checksum, which
`encode` computes (R93, R132; notes/assumptions/9.md). -/
def State.sideEncodeOperands (s : State) : EncodeOperands :=
  let p := s.sidePacket
  { payload := p.payload, len := (s.sideByte 2).toNat, seq := p.sequenceNumber
    streamId := p.streamId, flags := p.flags }

/-- Response "nothing" (R94). -/
def rspNothing : Half := 0x0000

/-- Response of a count: `zext_16(count)` (R94). -/
def rspCount (n : Nat) : Half := BitVec.ofNat 16 n

/-- Response of a boolean (R94); also `Ok` and `Fail` (R94). -/
def rspBool (b : Bool) : Half := if b then 0x0001 else 0x0000

/-- Response of a byte-or-empty: bit 8 is the out-of-band "empty" mark (R94, R114). -/
def rspByte (v : Option Byte) : Half :=
  match v with
  | some b => b.setWidth 16
  | none => 0x0100

end Sys2Proof.Machine
end

