-- ==== Sys2Proof/Machine/Ops.lean ====
section
/-! DEFINITION. The shared operations: storage (R15), the RingBuffer primitives and what is built of
them by repetition (R111 to R117, R156, R166, R188), link calls and trace events (R17, R47, R237),
responses (R94), and reset (R250).

The block takes no exception and returns from none: "no state is saved, no mode or mask changes,
control goes nowhere" (R230, R231), so there is no exception entry here. -/

namespace Sys2Proof.Machine

/-- The byte of slot `i`. -/
def Memory.read : Memory → Nat → Byte
  | [], _ => unwrittenByte
  | (a, w) :: m, i => if a = i then w else Memory.read m i

/-- `(i, v)` before `m`, unless `v` is what an unlisted slot reads as. -/
def Memory.put (i : Nat) (v : Byte) (m : Memory) : Memory :=
  if v = unwrittenByte then m else (i, v) :: m

/-- Slot `i` becomes `v`, in canonical form. -/
def Memory.write : Memory → Nat → Byte → Memory
  | [], i, v => Memory.put i v []
  | (a, w) :: m, i, v =>
    if i < a then Memory.put i v ((a, w) :: m)
    else if i = a then Memory.put i v m
    else (a, w) :: Memory.write m i v

/-- `BufRead(B, i)` (R15): `none` where there is no slot `i`. -/
def bufRead (c : Nat) (m : Memory) (i : Nat) : Option Byte :=
  if i < c then some (Memory.read m i) else none

/-- `BufWrite(B, i, v)` (R15): `none` where there is no slot `i`. -/
def bufWrite (c : Nat) (m : Memory) (i : Nat) (v : Byte) : Option Memory :=
  if i < c then some (Memory.write m i v) else none

/-- `occ(B) = (C + head - tail) mod C` (R23, R116). -/
def RingBuffer.occupied (c : Nat) (r : RingBuffer) : Nat := (c + r.head - r.tail) % c

/-- `USABLE - occ(B)`, which is `C - 1 - occ(B)` (R10, R117). -/
def RingBuffer.freeSlots (c : Nat) (r : RingBuffer) : Nat := Config.usable c - r.occupied c

/-- `empty(B)`: `head == tail` (R24). -/
def RingBuffer.empty (r : RingBuffer) : Bool := r.head == r.tail

/-- `full(B)`: `(head + 1) mod C == tail` (R25). -/
def RingBuffer.full (c : Nat) (r : RingBuffer) : Bool := (r.head + 1) % c == r.tail

/-- `store(B, b)` (R111): a full buffer drops the new byte (R112). -/
def RingBuffer.store (c : Nat) (b : Byte) (r : RingBuffer) : Option RingBuffer :=
  if r.full c then some r
  else (bufWrite c r.buf r.head b).map fun m =>
    { r with buf := m, head := (r.head + 1) % c }

/-- `readByte(B)` (R113): the answer (`none` is `Empty`) and the buffer after it. -/
def RingBuffer.readByte (c : Nat) (r : RingBuffer) : Option (Option Byte × RingBuffer) :=
  if r.empty then some (none, r)
  else (bufRead c r.buf r.tail).map fun v => (some v, { r with tail := (r.tail + 1) % c })

/-- `peek(B)` (R115): the answer (`none` is `Empty`). -/
def RingBuffer.peek (c : Nat) (r : RingBuffer) : Option (Option Byte) :=
  if r.empty then some none else (bufRead c r.buf r.tail).map some

/-- `store` of each byte in turn (R156, R185). -/
def RingBuffer.storeAll (c : Nat) : List Byte → RingBuffer → Option RingBuffer
  | [], r => some r
  | b :: bs, r =>
    match r.store c b with
    | none => none
    | some r' => RingBuffer.storeAll c bs r'

/-- `n` `readByte`s (R166): the bytes returned, oldest first, and the buffer after them. -/
def RingBuffer.drain (c : Nat) : Nat → RingBuffer → Option (List Byte × RingBuffer)
  | 0, r => some ([], r)
  | n + 1, r =>
    match r.readByte c with
    | none => none
    | some (v, r') =>
      match RingBuffer.drain c n r' with
      | none => none
      | some (vs, r'') => some (v.toList ++ vs, r'')

/-- `while readByte(B) != Empty` (R188), for at most `fuel` reads. `C` reads are enough whenever the
indices are below `C` (R188: "at most `C - 1` reads and one final `Empty`"); where they are not enough
`head` is no slot's number (notes/assumptions/11.md). -/
def RingBuffer.flush (c : Nat) : Nat → RingBuffer → Option RingBuffer
  | 0, _ => none
  | fuel + 1, r =>
    match r.readByte c with
    | none => none
    | some (none, r') => some r'
    | some (some _, r') => RingBuffer.flush c fuel r'

/-- The bytes a buffer holds, oldest first (R26). -/
def RingBuffer.contents (c : Nat) (r : RingBuffer) : List Byte :=
  (List.range (r.occupied c)).map fun k => Memory.read r.buf ((r.tail + k) % c)

/-- The buffer an operand selects (R27, R110). -/
def State.ring (s : State) : Buf → RingBuffer
  | .rx => s.rx
  | .tx => s.tx

/-- The state with that buffer replaced. -/
def State.setRing (s : State) (b : Buf) (r : RingBuffer) : State :=
  match b with
  | .rx => { s with rx := r }
  | .tx => { s with tx := r }

/-- `occupied(B)` (R116). -/
def State.occupied (s : State) (b : Buf) : Nat := (s.ring b).occupied s.par.capacity

/-- `freeSlots(B)` (R117). -/
def State.freeSlots (s : State) (b : Buf) : Nat := (s.ring b).freeSlots s.par.capacity

/-- `store(B, v)` (R111). -/
def State.store (s : State) (b : Buf) (v : Byte) : Option State :=
  ((s.ring b).store s.par.capacity v).map (s.setRing b)

/-- `store` of each byte in turn (R156, R185). -/
def State.storeAll (s : State) (b : Buf) (vs : List Byte) : Option State :=
  ((s.ring b).storeAll s.par.capacity vs).map (s.setRing b)

/-- `readByte(B)` (R113). -/
def State.readByte (s : State) (b : Buf) : Option (Option Byte × State) :=
  ((s.ring b).readByte s.par.capacity).map fun q => (q.1, s.setRing b q.2)

/-- `peek(B)` (R115). -/
def State.peek (s : State) (b : Buf) : Option (Option Byte) := (s.ring b).peek s.par.capacity

/-- One more event on the link and trace ports (R17). -/
def State.emit (s : State) (e : Event) : State := { s with trace := s.trace ++ [e] }

/-- One LinkDriver call: the call and its arguments join the trace (R237); its answer is read from
`State.link` by the caller. -/
def State.call (s : State) (c : LinkCall) : State := s.emit (.link c)

/-- The operation returns this response word (R94). What the side port holds after an operation with no
side-port result the spec does not say; the bytes there stay (DESIGN CHOICE, notes/assumptions/10.md). -/
def State.respond (s : State) (w : Half) : State := { s with rsp := w }

/-- The operation returns this response word and these bytes on the side port (R93, R94). -/
def State.respondWith (s : State) (w : Half) (bytes : List Byte) : State :=
  { s with rsp := w, sideOut := bytes }

/-- The operation a context is in the middle of (R61). -/
def State.running (s : State) : Role → Option Activity
  | .application => s.app
  | .servicing => s.svc

/-- The context is now in the middle of this. -/
def State.setRunning (s : State) (r : Role) (a : Option Activity) : State :=
  match r with
  | .application => { s with app := a }
  | .servicing => { s with svc := a }

/-- `Link.setDataRateAndPower(CFG.biteRate, CFG.power)`: the current values (R202, R203, R206). -/
def State.applyRf (s : State) : State := s.call (.setDataRateAndPower s.cfg.biteRate s.cfg.power)

/-- `Link.setChannel(10 * CFG.channel)` (R204). -/
def State.applyChannel (s : State) : State := s.call (.setChannel (transceiverChannel s.cfg.channel))

/-- `CFG.mode <- m` (R201). -/
def State.setCfgMode (s : State) (m : Mode) : State := { s with cfg := { s.cfg with mode := m } }

/-- `CFG.biteRate <- r` (R202). -/
def State.setCfgBiteRate (s : State) (r : BiteRate) : State :=
  { s with cfg := { s.cfg with biteRate := r } }

/-- `CFG.power <- p` (R203). -/
def State.setCfgPower (s : State) (p : Power) : State := { s with cfg := { s.cfg with power := p } }

/-- `CFG.channel <- c` (R204). -/
def State.setCfgChannel (s : State) (c : Channel) : State :=
  { s with cfg := { s.cfg with channel := c } }

/-- The default configuration is written to `CFG` (R208). -/
def State.setCfgDefaults (s : State) : State := { s with cfg := cfgDefaults }

/-- `SEQ <- (SEQ + 1) mod 65536` (R168). -/
def State.advanceSeq (s : State) : State := { s with seq := s.seq + 1 }

/-- The effect of asserting `reset` (R38, R250): every state element at its reset value, no link call,
no trace event. An operation in progress is dropped; storage is unspecified after reset, and the
model lists nothing in it (notes/assumptions/3.md, 13.md). -/
def State.assertReset (s : State) : State :=
  { s with rx := ringAfterReset, tx := ringAfterReset, seq := 0, cfg := cfgDefaults
           app := none, svc := none, resetLevel := true }

/-- An operation's outcome: the next state, or the fault of a slot that does not exist. -/
def slotOutcome : Option State → Result
  | some s => .next s
  | none => .fault .noSuchSlot

/-- The meaning of a composite operation (R61): one atomic step under `single`; under `dual` the
issuing context begins it, and its atomic steps follow one by one (`Activity`). -/
def State.composite (s : State) (r : Role) (start : Activity) (atomic : Option State) : Result :=
  match s.par.contexts with
  | .single => slotOutcome atomic
  | .dual => .next (s.setRunning r (some start))

end Sys2Proof.Machine
end

