-- ==== Sys2Proof/Machine/Codec.lean ====
section
/-! DEFINITION. The PacketCodec: `checksum`, `encode`, `parse`, `validate` (R131 to R136; `serialize`
is in Operands.lean) and the meanings of the `PC_*` operations, whose operands are on the side port
(R93). None reads or writes the block's state (R130). -/

namespace Sys2Proof.Machine

/-- `checksum(seq, len, sid, fl, payload)` (R131): the sum of the values, modulo 65536. -/
def checksum (seq : Half) (len sid fl : Byte) (payload : List Byte) : Half :=
  BitVec.ofNat 16
    (seq.toNat + len.toNat + sid.toNat + fl.toNat + (payload.map BitVec.toNat).sum)

/-- `checksum(p)` (R131): over the packet without its checksum field. -/
def Packet.sum (p : Packet) : Half :=
  Sys2Proof.Machine.checksum p.sequenceNumber p.length p.streamId p.flags p.payload

/-- The packet with the checksum of its other fields. -/
def Packet.sealed (p : Packet) : Packet := { p with checksum := p.sum }

/-- `encode(payload, len, seq, sid, fl)` (R132): `none` is `Fail`. -/
def encodePacket (par : Params) (payload : List Byte) (len : Nat) (seq : Half) (sid fl : Byte) :
    Option Packet :=
  if len > par.maxPayload then none
  else some (Packet.sealed
    { sequenceNumber := seq, streamId := sid, flags := fl, payload := payload.take len
      checksum := 0 })

/-- The third test of `parse` (R85, R135): does `rlen` fit a frame of `n` payload bytes? -/
def frameLengthOk (policy : FrameLenPolicy) (rlen n : Nat) : Bool :=
  match policy with
  | .exact => rlen == 7 + n
  | .atLeast => 7 + n ≤ rlen

/-- `parse(f, rlen)` (R135), `rlen` the number of bytes of `f`; `none` is `Fail`. -/
def parse (par : Params) (f : List Byte) : Option Packet :=
  let n := (f.getD 2 0).toNat
  if f.length < 7 then none
  else if n > par.maxPayload then none
  else if frameLengthOk par.frameLenPolicy f.length n then
    some (packetAt par.wireOrder (fun k => f.getD k 0))
  else none

/-- `validate(p)` (R136). -/
def validate (p : Packet) : Bool := p.sum == p.checksum

/-- `PC_CHECKSUM` (R131): the checksum of the packet on the side port. -/
def execPcChecksum (s : State) : Result := .next (s.respond s.sidePacket.sum)

/-- The response of a packet-or-failure (R94): on `Ok` the packet on the side port; on `Fail` the spec
names no bytes there and the model leaves none (DESIGN CHOICE, notes/assumptions/10.md). -/
def respondPacket (s : State) (p : Option Packet) : State :=
  s.respondWith (rspBool p.isSome) (match p with
    | some q => serialize s.par.wireOrder q
    | none => [])

/-- `PC_ENCODE` (R132). -/
def execPcEncode (s : State) : Result :=
  let o := s.sideEncodeOperands
  .next (respondPacket s (encodePacket s.par o.payload o.len o.seq o.streamId o.flags))

/-- `PC_SERIALIZE` (R134): `7 + length` and the frame; beyond `MAXP`, notes/assumptions/28.md. -/
def execPcSerialize (s : State) : Result :=
  .next (s.respondWith (rspCount (7 + s.sidePacket.length.toNat))
    (serialize s.par.wireOrder s.sidePacket))

/-- `PC_PARSE` (R135): of the bytes presented on the side port. -/
def execPcParse (s : State) : Result := .next (respondPacket s (parse s.par s.sideIn))

/-- `PC_VALIDATE` (R136); beyond `MAXP`, notes/assumptions/28.md. -/
def execPcValidate (s : State) : Result := .next (s.respond (rspBool (validate s.sidePacket)))

end Sys2Proof.Machine
end

