-- ==== Sys2Proof/Machine/Configure.lean ====
section
/-! DEFINITION. The setters and `init` (R200 to R212). -/

namespace Sys2Proof.Machine

/-- `SET_MODE` (R201): no LinkDriver call. -/
def execSetMode (m : Mode) (s : State) : Result := .next ((s.setCfgMode m).respond rspNothing)

/-- `SET_BITERATE` (R202): one call, the new rate with the current power. -/
def execSetBiteRate (r : BiteRate) (s : State) : Result :=
  s.composite .servicing (.cfgBiteRate r) (some ((s.setCfgBiteRate r).applyRf.respond rspNothing))

/-- `SET_POWER` (R203): one call, the current rate with the new power. -/
def execSetPower (p : Power) (s : State) : Result :=
  s.composite .servicing (.cfgPower p) (some ((s.setCfgPower p).applyRf.respond rspNothing))

/-- `SET_CHANNEL` (R204): one call with the mapped transceiver channel. -/
def execSetChannel (c : Channel) (s : State) : Result :=
  s.composite .servicing (.cfgChannel c)
    (some ((s.setCfgChannel c).applyChannel.respond rspNothing))

/-- What a successful `init` does after `Link.init()` (R208). -/
def State.initDefaults (s : State) : State :=
  (s.setCfgDefaults.call (.setDataRateAndPower .slow .low)).call (.setChannel 10)

/-- `init()` as one atomic step (R208): addressing first, then the driver, one attempt. -/
def State.initAtomic (s : State) : State :=
  if s.pinsValid then
    let s1 := s.call .init
    if s.link.init then s1.initDefaults.respond (rspBool true)
    else s1.respond (rspBool false)
  else s.respond (rspBool false)

/-- `INIT` (R208). -/
def execInit (s : State) : Result := s.composite .servicing .initLink (some s.initAtomic)

end Sys2Proof.Machine
end

