-- ==== Sys2Proof/Machine/RingBuffer.lean ====
section
/-! DEFINITION. The meanings of the `RB_*` operations (R110 to R117), each on the buffer its operand
selects. -/

namespace Sys2Proof.Machine

/-- `RB_STORE` (R111). -/
def execRbStore (b : Buf) (d : Byte) (s : State) : Result :=
  slotOutcome ((s.store b d).map fun t => t.respond rspNothing)

/-- `RB_READBYTE` (R113). -/
def execRbReadByte (b : Buf) (s : State) : Result :=
  slotOutcome ((s.readByte b).map fun q => q.2.respond (rspByte q.1))

/-- `RB_PEEK` (R115). -/
def execRbPeek (b : Buf) (s : State) : Result :=
  slotOutcome ((s.peek b).map fun v => s.respond (rspByte v))

/-- `RB_OCCUPIED` (R116). -/
def execRbOccupied (b : Buf) (s : State) : Result := .next (s.respond (rspCount (s.occupied b)))

/-- `RB_FREESLOTS` (R117). -/
def execRbFreeSlots (b : Buf) (s : State) : Result := .next (s.respond (rspCount (s.freeSlots b)))

end Sys2Proof.Machine
end

