-- ==== Sys2Proof/Machine/Stream.lean ====
section
/-! DEFINITION. The byte-stream contract (R180 to R191): the application reads `RX` and writes `TX`.
`write(bytes, n)` is the pseudo-operation `writeN` (R103, R185); it has no command word. -/

namespace Sys2Proof.Machine

/-- `AVAILABLE` (R181): `occupied(RX)`. -/
def execAvailable (s : State) : Result := .next (s.respond (rspCount (s.occupied .rx)))

/-- `READ` (R182): `readByte(RX)`. -/
def execRead (s : State) : Result :=
  slotOutcome ((s.readByte .rx).map fun q => q.2.respond (rspByte q.1))

/-- `PEEK` (R183): `peek(RX)`. -/
def execPeek (s : State) : Result :=
  slotOutcome ((s.peek .rx).map fun v => s.respond (rspByte v))

/-- `WRITE` (R184): `store(TX, d)`; the response is 1 whether or not the byte was kept (R186). -/
def execWrite (d : Byte) (s : State) : Result :=
  slotOutcome ((s.store .tx d).map fun t => t.respond (rspCount 1))

/-- `AVAILABLE_FOR_WRITE` (R187): `freeSlots(TX)`. -/
def execAvailableForWrite (s : State) : Result :=
  .next (s.respond (rspCount (s.freeSlots .tx)))

/-- `flush()` as one atomic step (R188): the loop, literally. -/
def State.flushAtomic (s : State) : Option State :=
  (s.rx.flush s.par.capacity s.par.capacity).map fun r => (s.setRing .rx r).respond rspNothing

/-- `FLUSH` (R188). -/
def execFlush (s : State) : Result := s.composite .application .flushRead s.flushAtomic

/-- `writeN(bytes, n)` under `single` (R185): the state after it, and the count it returns. -/
def State.writeN (s : State) (bytes : List Byte) : Option (State × Nat) :=
  (s.storeAll .tx bytes).map fun t => (t, bytes.length)

end Sys2Proof.Machine
end

