-- ==== Sys2Proof/Machine/Tick.lean ====
section
/-! DEFINITION. The servicing tick as one atomic step (R171): the receive phase, then the transmit
phase. Its steps under `CONTEXTS = dual` are in Dual.lean. -/

namespace Sys2Proof.Machine

/-- Step 3 of the receive phase (R154): the packet of a frame that parses and validates. -/
def acceptFrame (par : Params) (f : List Byte) : Option Packet :=
  match parse par f with
  | some p => if validate p then some p else none
  | none => none

/-- Step 4 (R155): a packet with the ACK flag is observed, and nothing else. -/
def State.observeAck (s : State) (p : Packet) : State :=
  if hasAck s.par.flags p then s.emit (.ackObserved p.sequenceNumber) else s

/-- The payload bytes that are copied: the first `min(p.length, freeSlots(RX))` (R156). -/
def State.copiedBytes (s : State) (p : Packet) : List Byte :=
  p.payload.take (min p.length.toNat (s.freeSlots .rx))

/-- The ACK packet of `p` (R159); `encode` with `len = 0` cannot fail (R133). -/
def ackPacket (par : Params) (p : Packet) : Option Packet :=
  encodePacket par [] 0 p.sequenceNumber p.streamId par.flags.ack

/-- `Link.send(g, glen)` with `(g, glen) = serialize(q)` (R160, R169): the answer is ignored. -/
def State.sendPacket (s : State) (q : Packet) : State :=
  s.call (.send (serialize s.par.wireOrder q) (7 + q.length.toNat))

/-- Steps 6 to 8 (R158 to R160): the ACK, if the packet is answered. -/
def State.echoAck (s : State) (p : Packet) : State :=
  if answersWithAck s.par p then
    match ackPacket s.par p with
    | some a => s.sendPacket a
    | none => s
  else s

/-- Steps 4 to 8, on a valid packet (R155 to R160). -/
def State.acceptPacket (s : State) (p : Packet) : Option State :=
  ((s.observeAck p).storeAll .rx (s.copiedBytes p)).map fun t => t.echoAck p

/-- The receive phase (R152 to R162). -/
def State.receivePhase (s : State) : Option State :=
  let s1 := s.call .available
  if s.link.available then
    let s2 := s1.call .recv
    match s.link.recv with
    | none => some s2
    | some f =>
      match acceptFrame s.par f with
      | none => some s2
      | some p => s2.acceptPacket p
  else some s1

/-- `n <- min(occupied(TX), MAXP)` (R164). -/
def State.transmitCount (s : State) : Nat := min (s.occupied .tx) s.par.maxPayload

/-- The data packet of the drained bytes (R167). -/
def State.dataPacket (s : State) (scratch : List Byte) (n : Nat) : Option Packet :=
  encodePacket s.par scratch n s.seq s.par.txStreamId (txFlags s.par.flags)

/-- Steps 13 to 15 (R167 to R169): frame, advance `SEQ`, send. `encode` cannot fail (R133). -/
def State.sendData (s : State) (scratch : List Byte) (n : Nat) : State :=
  match s.dataPacket scratch n with
  | none => s
  | some q => s.advanceSeq.sendPacket q

/-- The transmit phase (R163 to R170). -/
def State.transmitPhase (s : State) : Option State :=
  let s1 := s.call .currentlyTransmitting
  if s.link.currentlyTransmitting then some s1
  else if s.transmitCount = 0 then some s1
  else
    (s1.tx.drain s.par.capacity s.transmitCount).map fun q =>
      (s1.setRing .tx q.2).sendData q.1 s.transmitCount

/-- `tick()` (R171): the receive phase, then the transmit phase, whatever the first did (R151). -/
def State.tickAtomic (s : State) : Option State :=
  (s.receivePhase.bind State.transmitPhase).map fun t => t.respond rspNothing

/-- `TICK` (R171). -/
def execTick (s : State) : Result := s.composite .servicing .tickAvailable s.tickAtomic

end Sys2Proof.Machine
end

