-- ==== Sys2Proof/Machine/Dispatch.lean ====
section
/-! DEFINITION. One arm per operation: a direct call of its meaning. -/

namespace Sys2Proof.Machine

def exec (i : Instr) (s : State) : Host.Outcome State Fault Refusal :=
  match i with
  | .rbStore b d => Sys2Proof.Machine.execRbStore b d s
  | .rbReadByte b => Sys2Proof.Machine.execRbReadByte b s
  | .rbPeek b => Sys2Proof.Machine.execRbPeek b s
  | .rbOccupied b => Sys2Proof.Machine.execRbOccupied b s
  | .rbFreeSlots b => Sys2Proof.Machine.execRbFreeSlots b s
  | .pcChecksum => Sys2Proof.Machine.execPcChecksum s
  | .pcEncode => Sys2Proof.Machine.execPcEncode s
  | .pcSerialize => Sys2Proof.Machine.execPcSerialize s
  | .pcParse => Sys2Proof.Machine.execPcParse s
  | .pcValidate => Sys2Proof.Machine.execPcValidate s
  | .available => Sys2Proof.Machine.execAvailable s
  | .read => Sys2Proof.Machine.execRead s
  | .peek => Sys2Proof.Machine.execPeek s
  | .write d => Sys2Proof.Machine.execWrite d s
  | .availableForWrite => Sys2Proof.Machine.execAvailableForWrite s
  | .flush => Sys2Proof.Machine.execFlush s
  | .tick => Sys2Proof.Machine.execTick s
  | .setMode m => Sys2Proof.Machine.execSetMode m s
  | .setBiteRate r => Sys2Proof.Machine.execSetBiteRate r s
  | .setPower p => Sys2Proof.Machine.execSetPower p s
  | .setChannel c => Sys2Proof.Machine.execSetChannel c s
  | .init => Sys2Proof.Machine.execInit s

end Sys2Proof.Machine
end

