-- ==== Sys2Proof/Machine/Dual.lean ====
section
/-! DEFINITION. `CONTEXTS = dual` (R61, R72): one atomic step of an operation in progress, and which
context may issue what (R233 to R235). -/

namespace Sys2Proof.Machine

/-- What follows an atomic step: another, or the operation's return with its response. -/
inductive After where
  | more (a : Activity)
  | done (w : Half)
deriving DecidableEq, Repr

/-- After the receive copy (R158): the ACK, or the transmit phase. -/
def afterCopy (s : State) (p : Packet) : After :=
  if answersWithAck s.par p then .more (.tickAckEncode p) else .more .tickBusy

/-- The next step of the receive copy with these bytes still to store (R156). -/
def nextCopy (s : State) (p : Packet) : List Byte → After
  | [] => afterCopy s p
  | b :: bs => .more (.tickCopy p (b :: bs))

/-- The next step of the transmit drain with `n` bytes still to read (R166). -/
def nextDrain (scratch : List Byte) : Nat → After
  | 0 => .more (.tickEncode scratch)
  | n + 1 => .more (.tickDrain (n + 1) scratch)

/-- One atomic step (R61): `none` where a slot does not exist. That the event `AckObserved` (R155), for
which R61 lists no step, is of the `validate` step is DESIGN CHOICE, notes/assumptions/30.md. -/
def microStep (s : State) : Activity → Option (State × After)
  | .tickAvailable =>
    some (s.call .available, if s.link.available then .more .tickRecv else .more .tickBusy)
  | .tickRecv =>
    some (s.call .recv, match s.link.recv with
      | some f => .more (.tickParse f)
      | none => .more .tickBusy)
  | .tickParse f =>
    some (s, match parse s.par f with
      | some p => .more (.tickValidate p)
      | none => .more .tickBusy)
  | .tickValidate p =>
    if validate p then some (s.observeAck p, .more (.tickFreeSlots p))
    else some (s, .more .tickBusy)
  | .tickFreeSlots p => some (s, nextCopy s p (s.copiedBytes p))
  | .tickCopy p [] => some (s, afterCopy s p)
  | .tickCopy p (b :: bs) => (s.store .rx b).map fun t => (t, nextCopy t p bs)
  | .tickAckEncode p =>
    some (s, match ackPacket s.par p with
      | some a => .more (.tickAckSerialize a)
      | none => .more .tickBusy)
  | .tickAckSerialize a => some (s, .more (.tickAckSend (serialize s.par.wireOrder a)))
  | .tickAckSend g => some (s.call (.send g g.length), .more .tickBusy)
  | .tickBusy =>
    some (s.call .currentlyTransmitting,
      if s.link.currentlyTransmitting then .done rspNothing else .more .tickOccupied)
  | .tickOccupied =>
    some (s, if s.transmitCount = 0 then .done rspNothing else nextDrain [] s.transmitCount)
  | .tickDrain n scratch =>
    (s.readByte .tx).map fun q => (q.2, nextDrain (scratch ++ q.1.toList) (n - 1))
  | .tickEncode scratch =>
    some (s, match s.dataPacket scratch scratch.length with
      | some q => .more (.tickSeq q)
      | none => .done rspNothing)
  | .tickSeq q => some (s.advanceSeq, .more (.tickSerialize q))
  | .tickSerialize q => some (s, .more (.tickSend (serialize s.par.wireOrder q)))
  | .tickSend g => some (s.call (.send g g.length), .done rspNothing)
  | .flushRead =>
    (s.readByte .rx).map fun q => (q.2, match q.1 with
      | some _ => .more .flushRead
      | none => .more .flushReturn)
  | .flushReturn => some (s, .done rspNothing)
  | .cfgBiteRate r => some (s.setCfgBiteRate r, .more .rfCall)
  | .cfgPower p => some (s.setCfgPower p, .more .rfCall)
  | .cfgChannel c => some (s.setCfgChannel c, .more .channelCall)
  | .rfCall => some (s.applyRf, .done rspNothing)
  | .channelCall => some (s.applyChannel, .done rspNothing)
  | .initLink =>
    if s.pinsValid then
      some (s.call .init, if s.link.init then .more .initDefaults else .done (rspBool false))
    else some (s, .done (rspBool false))
  | .initDefaults => some (s.setCfgDefaults, .more .initRf)
  | .initRf => some (s.call (.setDataRateAndPower .slow .low), .more .initChannel)
  | .initChannel => some (s.call (.setChannel 10), .done (rspBool true))

/-- The context goes on with the operation, or returns from it (R94). -/
def State.resume (s : State) (r : Role) : After → State
  | .more a => s.setRunning r (some a)
  | .done w => (s.setRunning r none).respond w

/-- The context makes its next atomic step (R61); a context that is in the middle of nothing does
nothing. -/
def State.advance (s : State) (r : Role) : Result :=
  match s.running r with
  | none => .next s
  | some a => slotOutcome ((microStep s a).map fun q => q.1.resume r q.2)

/-- The producer of a buffer (R27, R233, R234). -/
def producer : Buf → Role
  | .rx => .servicing
  | .tx => .application

/-- The consumer of a buffer (R27, R233, R234). -/
def consumer : Buf → Role
  | .rx => .application
  | .tx => .servicing

/-- Is this an operation of a component's internal interface (R48): an `RB_*` or a `PC_*`? -/
def isInternal : Instr → Bool
  | .rbStore _ _ => true
  | .rbReadByte _ => true
  | .rbPeek _ => true
  | .rbOccupied _ => true
  | .rbFreeSlots _ => true
  | .pcChecksum => true
  | .pcEncode => true
  | .pcSerialize => true
  | .pcParse => true
  | .pcValidate => true
  | .available => false
  | .read => false
  | .peek => false
  | .write _ => false
  | .availableForWrite => false
  | .flush => false
  | .tick => false
  | .setMode _ => false
  | .setBiteRate _ => false
  | .setPower _ => false
  | .setChannel _ => false
  | .init => false

/-- Can this operation be issued from outside (R42, R48, R92)? In the integrated block the operations
of the components are issued only inside the block's own; where components are modelled alone, theirs
are the only ones. That one machine serves for both is the model's choice: notes/assumptions/29.md. -/
def reachable (a : Assembly) (i : Instr) : Bool :=
  match a with
  | .integrated => !isInternal i
  | .components => isInternal i

/-- Under `dual`: may this context issue this operation (R45, R48, R110, R233 to R235)? `occupied` is
meant for the consumer and `freeSlots` for the producer (R48, R110), but the other side may ask and has
an upper bound that may be stale (R270), so either context may: DEDUCED, notes/assumptions/15.md. The
codec has no state and no sides (R48, R130): its operations are admitted from either context, DESIGN
CHOICE, notes/assumptions/15.md. -/
def mayIssue (r : Role) : Instr → Bool
  | .rbStore b _ => r == producer b
  | .rbReadByte b => r == consumer b
  | .rbPeek b => r == consumer b
  | .rbOccupied _ => true
  | .rbFreeSlots _ => true
  | .pcChecksum => true
  | .pcEncode => true
  | .pcSerialize => true
  | .pcParse => true
  | .pcValidate => true
  | .available => r == .application
  | .read => r == .application
  | .peek => r == .application
  | .write _ => r == .application
  | .availableForWrite => r == .application
  | .flush => r == .application
  | .tick => r == .servicing
  | .setMode _ => r == .servicing
  | .setBiteRate _ => r == .servicing
  | .setPower _ => r == .servicing
  | .setChannel _ => r == .servicing
  | .init => r == .servicing

end Sys2Proof.Machine
end

