-- ==== Sys2Proof/Machine/Port.lean ====
section
/-! DEFINITION. The operation ports and the control inputs (R42 to R45): what the block does with the
next thing the outside world does to it. The block starts nothing by itself (R150, R228). -/

namespace Sys2Proof.Machine

/-- A port takes a command word (R44, R45, R91): a reserved word is refused (R95), an operation of an
interface that is not there is (R42, R48; the `RB_*` and `PC_*` words have an effect, R92, R111, but not
from outside the integrated block, R108: the model's choice of where they run is
notes/assumptions/29.md), and under `dual` an operation of the other role is (R235). -/
def State.issue (s : State) (r : Role) (w : Half) : Result :=
  match decode w with
  | .reserved why => .refused (.reserved why)
  | .ok i =>
    if reachable s.par.assembly i then
      match s.par.contexts with
      | .single => exec i s
      | .dual => if mayIssue r i then exec i s else .refused .roleViolation
    else .refused .notReachable

/-- A command word presented at a port, with `rest` to come after it. No operation is accepted while
`reset` is asserted (R43). A port accepts one transaction at a time (R44): while its context is in
the middle of an operation that operation goes on and the command waits (notes/assumptions/14.md). -/
def State.present (s : State) (r : Role) (w : Half) (rest : List Stimulus) : Result :=
  if s.resetLevel then .refused .resetAsserted
  else if (s.running r).isSome then s.advance r
  else ({ s with inputs := rest } : State).issue r w

/-- Bytes presented on the side port, with `rest` to come after (R93). The side port is of the codec's
internal interface, and nothing but the five interfaces of R42 crosses the integrated block's boundary. -/
def State.presentSide (s : State) (bs : List Byte) (rest : List Stimulus) : Result :=
  match s.par.assembly with
  | .integrated => .refused .notReachable
  | .components => .next { s with inputs := rest, sideIn := bs }

/-- The platform sets the strap `pins_valid`, with `rest` to come after: only while `reset` is asserted,
since it is constant while the block runs (R37, R43, R209; notes/assumptions/6.md). -/
def State.setPins (s : State) (v : Bool) (rest : List Stimulus) : Result :=
  if s.resetLevel then .next { s with inputs := rest, pinsValid := v } else .refused .strapHeld

/-- The next thing the outside world does; with none to come the block stays as it is. -/
def serve (s : State) : Result :=
  match s.inputs with
  | [] => .next s
  | .command r w :: rest => s.present r w rest
  | .advance r :: rest => ({ s with inputs := rest } : State).advance r
  | .link a :: rest => .next { s with inputs := rest, link := a }
  | .side bs :: rest => s.presentSide bs rest
  | .pins v :: rest => s.setPins v rest
  | .reset true :: rest => .next ({ s with inputs := rest } : State).assertReset
  | .reset false :: rest => .next { s with inputs := rest, resetLevel := false }

/-- The port at which an operation is at home (R44, R45, R48). -/
def homePort : Instr → Role
  | .rbStore b _ => producer b
  | .rbReadByte b => consumer b
  | .rbPeek b => consumer b
  | .rbOccupied b => consumer b
  | .rbFreeSlots b => producer b
  | .pcChecksum => .servicing
  | .pcEncode => .servicing
  | .pcSerialize => .servicing
  | .pcParse => .servicing
  | .pcValidate => .servicing
  | .available => .application
  | .read => .application
  | .peek => .application
  | .write _ => .application
  | .availableForWrite => .application
  | .flush => .application
  | .tick => .servicing
  | .setMode _ => .servicing
  | .setBiteRate _ => .servicing
  | .setPower _ => .servicing
  | .setChannel _ => .servicing
  | .init => .servicing

/-- The port a platform presents a command word at: its operation's home port. -/
def portOfWord (w : Half) : Role :=
  match decode w with
  | .ok i => homePort i
  | .reserved _ => .servicing

/-- Where an operation can be issued from outside (`reachable`). -/
def homeAssembly (i : Instr) : Assembly := if isInternal i then .components else .integrated

/-- What must be modelled for a command word to be issued from outside. -/
def assemblyOfWord (w : Half) : Assembly :=
  match decode w with
  | .ok i => homeAssembly i
  | .reserved _ => .integrated

/-- The platform presents this command word next: `reset` is released, no context is in the middle of
an operation, what the word is of can be reached, and the word is at the front of what is to come
(notes/assumptions/7.md, 29.md). -/
def State.presentNext (s : State) (w : Half) : State :=
  { s with resetLevel := false, app := none, svc := none
           par := { s.par with assembly := assemblyOfWord w }
           inputs := .command (portOfWord w) w :: s.inputs }

end Sys2Proof.Machine
end

