-- ==== Sys2Proof/Machine/Step.lean ====
section
/-! DEFINITION. One step of the machine: the block serves the next thing the outside world does. -/

namespace Sys2Proof.Machine

/-- One step (R60, R61): an operation, or under `dual` an atomic step of one, or a change of an input. -/
def step (s : State) : Host.Outcome State Fault Refusal := serve s

/-- `s` with the opcode-table word `w` of `nbits` bits presented as the next command: the block fetches
nothing, its platform issues its operations (R34, R44). -/
def State.withFetchWord (s : State) (nbits w : Nat) : State :=
  s.presentNext (BitVec.ofNat 16 (w % 2 ^ nbits))

end Sys2Proof.Machine
end

