-- ==== Sys2Proof/Machine/Conditions.lean ====
section
/-! DEFINITION. The error conditions of R220 to R227, which the block absorbs: none has a code, a
register or an effect beyond the rule that names it. They are labels of what an atomic step meets, read
off the state it starts from: of an operation that is one atomic step (`conditionsOf`), of one step of
a composite operation under `CONTEXTS = dual` (`microConditions`), and of a step of the machine, which
is one or the other (`stepConditions`). Where a label belongs under `dual`: notes/assumptions/31.md. -/

namespace Sys2Proof.Machine

/-- The labels of R227 (D36). -/
inductive Condition where
  /-- `E_CONFIG_PINS` (R221) -/
  | configPins
  /-- `E_CONFIG_LINK` (R221) -/
  | configLink
  /-- `E_MALFORMED` (R88, R222) -/
  | malformed
  /-- `E_CHECKSUM` (R222) -/
  | checksum
  /-- `E_TX_FULL` (R223) -/
  | txFull
  /-- `E_RX_TRUNC` (R157, R223) -/
  | rxTrunc
  /-- `E_NO_DATA` (R224) -/
  | noData
  /-- `E_TOO_LONG` (R225) -/
  | tooLong
  /-- `E_SEND_DECLINED` (R225) -/
  | sendDeclined
  /-- `E_RECV_FAILED` (R225) -/
  | recvFailed
deriving DecidableEq, Repr

/-- The label if the condition holds. -/
def labelIf (holds : Bool) (c : Condition) : List Condition := if holds then [c] else []

/-- What an `init` meets (R221, R229: the pins before the driver). -/
def initConditions (s : State) : List Condition :=
  if !s.pinsValid then [.configPins] else labelIf (!s.link.init) .configLink

/-- What the count of a receive copy meets: the copy is cut short (R157). -/
def truncConditions (s : State) (p : Packet) : List Condition :=
  labelIf (s.freeSlots .rx < p.length.toNat) .rxTrunc

/-- What a valid packet meets: the copy may be cut short (R157), the ACK may be declined (R160). -/
def acceptConditions (s : State) (p : Packet) : List Condition :=
  truncConditions s p ++ labelIf (answersWithAck s.par p && !s.link.sendAck) .sendDeclined

/-- What the receive phase meets, in the order of R229. -/
def receiveConditions (s : State) : List Condition :=
  if !s.link.available then []
  else match s.link.recv with
    | none => [.recvFailed]
    | some f =>
      match parse s.par f with
      | none => [.malformed]
      | some p => if validate p then acceptConditions s p else [.checksum]

/-- What the transmit phase meets (R169). -/
def transmitConditions (s : State) : List Condition :=
  labelIf (!s.link.currentlyTransmitting && s.transmitCount != 0 && !s.link.sendData) .sendDeclined

/-- What one atomic step of an operation in progress meets (R227): the step whose test or whose
LinkDriver answer is the condition. -/
def microConditions (s : State) : Activity → List Condition
  | .tickAvailable => []
  | .tickRecv => labelIf s.link.recv.isNone .recvFailed
  | .tickParse f => labelIf (parse s.par f).isNone .malformed
  | .tickValidate p => labelIf (!validate p) .checksum
  | .tickFreeSlots p => truncConditions s p
  | .tickCopy _ _ => []
  | .tickAckEncode _ => []
  | .tickAckSerialize _ => []
  | .tickAckSend _ => labelIf (!s.link.sendAck) .sendDeclined
  | .tickBusy => []
  | .tickOccupied => []
  | .tickDrain _ _ => labelIf s.tx.empty .noData
  | .tickEncode scratch => labelIf (s.par.maxPayload < scratch.length) .tooLong
  | .tickSeq _ => []
  | .tickSerialize _ => []
  | .tickSend _ => labelIf (!s.link.sendData) .sendDeclined
  | .flushRead => labelIf s.rx.empty .noData
  | .flushReturn => []
  | .cfgBiteRate _ => []
  | .cfgPower _ => []
  | .cfgChannel _ => []
  | .rfCall => []
  | .channelCall => []
  | .initLink => initConditions s
  | .initDefaults => []
  | .initRf => []
  | .initChannel => []

/-- What a composite operation meets as it is issued (R60, R61): all of it where it is one atomic step;
nothing where it only begins, since its steps meet what they meet (`microConditions`). -/
def State.compositeConditions (s : State) (atomic : List Condition) : List Condition :=
  match s.par.contexts with
  | .single => atomic
  | .dual => []

/-- What an operation meets in the atomic step that issues it (R227). -/
def conditionsOf (i : Instr) (s : State) : List Condition :=
  match i with
  | .rbStore _ _ => []
  | .rbReadByte b => labelIf (s.ring b).empty .noData
  | .rbPeek b => labelIf (s.ring b).empty .noData
  | .rbOccupied _ => []
  | .rbFreeSlots _ => []
  | .pcChecksum => []
  | .pcEncode => labelIf (s.par.maxPayload < s.sideEncodeOperands.len) .tooLong
  | .pcSerialize => []
  | .pcParse => []
  | .pcValidate => []
  | .available => []
  | .read => labelIf s.rx.empty .noData
  | .peek => labelIf s.rx.empty .noData
  | .write _ => labelIf (s.tx.full s.par.capacity) .txFull
  | .availableForWrite => []
  | .flush => s.compositeConditions [.noData]
  | .tick => s.compositeConditions (receiveConditions s ++ transmitConditions s)
  | .setMode _ => []
  | .setBiteRate _ => []
  | .setPower _ => []
  | .setChannel _ => []
  | .init => s.compositeConditions (initConditions s)

/-- What this context's next atomic step meets (R61, R227). -/
def State.advanceConditions (s : State) (r : Role) : List Condition :=
  match s.running r with
  | none => []
  | some a => microConditions s a

/-- What a port meets as it takes the next command or goes on with the operation in progress (R44). -/
def State.presentConditions (s : State) (r : Role) (w : Half) : List Condition :=
  if (s.running r).isSome then s.advanceConditions r
  else match decode w with
    | .ok i => conditionsOf i s
    | .reserved _ => []

/-- What a step of the machine meets (R227): nothing where it is refused. -/
def stepConditions (s : State) : List Condition :=
  match serve s with
  | .next _ =>
    match s.inputs with
    | .command r w :: _ => s.presentConditions r w
    | .advance r :: _ => s.advanceConditions r
    | .link _ :: _ => []
    | .side _ :: _ => []
    | .pins _ :: _ => []
    | .reset _ :: _ => []
    | [] => []
  | .fault _ => []
  | .refused _ => []

end Sys2Proof.Machine
end

