-- ==== Sys2Proof/Safety.lean ====
section
/-! DEFINITION. What the statements call a good state: legal parameters, indices and storage within
the `C` slots (R21, R22), and, for the operations in progress under `dual`, the bounds of R72. -/

namespace Sys2Proof.Machine

/-- A RingBuffer the block can have: both indices below `C` (R21), storage in canonical form and only
at slots below `C` (R50). -/
abbrev RingBuffer.Ok (c : Nat) (r : RingBuffer) : Prop :=
  r.head < c ∧ r.tail < c ∧ r.buf.wf ∧ ∀ x ∈ r.buf, x.1 < c

/-- A frame the block sends: its length is between `HEADER` and `MTU` (R82, R239). -/
abbrev FrameOk (par : Params) (g : List Byte) : Prop := 7 ≤ g.length ∧ g.length ≤ par.mtu

/-- What an operation in progress may rely on (R72 (a), (b)): the bytes still to copy fit, the bytes
still to drain are there, and packets and frames keep their bounds. -/
def Activity.Ok (s : State) : Activity → Prop
  | .tickCopy _ rest => rest.length ≤ s.freeSlots .rx
  | .tickAckSerialize a => a.payload.length ≤ s.par.maxPayload
  | .tickAckSend g => FrameOk s.par g
  | .tickDrain n scratch =>
    0 < n ∧ n ≤ s.occupied .tx ∧ scratch.length + n ≤ s.par.maxPayload
  | .tickEncode scratch => 0 < scratch.length ∧ scratch.length ≤ s.par.maxPayload
  | .tickSeq q => q.payload.length ≤ s.par.maxPayload
  | .tickSerialize q => q.payload.length ≤ s.par.maxPayload
  | .tickSend g => FrameOk s.par g
  | .flushRead => False
  | .flushReturn => False
  | .tickAvailable => True
  | .tickRecv => True
  | .tickParse _ => True
  | .tickValidate _ => True
  | .tickFreeSlots _ => True
  | .tickAckEncode _ => True
  | .tickBusy => True
  | .tickOccupied => True
  | .cfgBiteRate _ => True
  | .cfgPower _ => True
  | .cfgChannel _ => True
  | .rfCall => True
  | .channelCall => True
  | .initLink => True
  | .initDefaults => True
  | .initRf => True
  | .initChannel => True

/-- The invariant of the block. -/
structure State.Inv (s : State) : Prop where
  /-- the parameters are in their ranges (R11) -/
  par : s.par.Legal
  /-- `RX` is a ring buffer of `C` slots -/
  rx : s.rx.Ok s.par.capacity
  /-- `TX` is a ring buffer of `C` slots -/
  tx : s.tx.Ok s.par.capacity
  /-- under `single` no operation is ever half done (R60) -/
  atomic : s.par.contexts = .single → s.app = none ∧ s.svc = none
  /-- the application context is in the middle of nothing or of a `flush` (R233) -/
  app : s.app = none ∨ s.app = some .flushRead ∨ s.app = some .flushReturn
  /-- the servicing context is in the middle of nothing or of an operation within its bounds (R234) -/
  svc : ∀ a, s.svc = some a → a.Ok s

/-- Every frame handed to the LinkDriver so far had its true length, between 7 and `MTU` (R239). -/
def State.SentFramesOk (s : State) : Prop :=
  ∀ g n, Event.link (.send g n) ∈ s.trace → n = g.length ∧ FrameOk s.par g

/-- The state right after a reset from `s`, with `reset` released again (R43, R250). -/
def State.afterReset (s : State) : State := { s.assertReset with resetLevel := false }

/-- The highest `op` R92 lists for a unit. -/
def highestOp (u : Nat) : Nat :=
  match u with
  | 0 => 4
  | 1 => 4
  | 2 => 4
  | 3 => 5
  | 4 => 0
  | _ => 4

/-- Which of the classes of R95 a reserved command word is of, from its fields (R91): the unit, the
`op` above the highest of its unit, mode code 3 in an otherwise good `SET_MODE`, or else the operand. -/
def reservedClass (w : Half) : Reserved :=
  if 6 ≤ w.toNat / 4096 then .unit
  else if highestOp (w.toNat / 4096) < w.toNat / 256 % 16 then .op
  else if w = 0x5003 then .modeCode
  else .operand

/-- Is this a setter or `init`, which write `CFG` (R20, R234)? -/
def writesCfg : Instr → Bool
  | .setMode _ => true
  | .setBiteRate _ => true
  | .setPower _ => true
  | .setChannel _ => true
  | .init => true
  | .rbStore _ _ => false
  | .rbReadByte _ => false
  | .rbPeek _ => false
  | .rbOccupied _ => false
  | .rbFreeSlots _ => false
  | .pcChecksum => false
  | .pcEncode => false
  | .pcSerialize => false
  | .pcParse => false
  | .pcValidate => false
  | .available => false
  | .read => false
  | .peek => false
  | .write _ => false
  | .availableForWrite => false
  | .flush => false
  | .tick => false

/-- The operations of the stream contract (R233). -/
def isStreamOperation : Instr → Bool
  | .available => true
  | .read => true
  | .peek => true
  | .write _ => true
  | .availableForWrite => true
  | .flush => true
  | .rbStore _ _ => false
  | .rbReadByte _ => false
  | .rbPeek _ => false
  | .rbOccupied _ => false
  | .rbFreeSlots _ => false
  | .pcChecksum => false
  | .pcEncode => false
  | .pcSerialize => false
  | .pcParse => false
  | .pcValidate => false
  | .tick => false
  | .setMode _ => false
  | .setBiteRate _ => false
  | .setPower _ => false
  | .setChannel _ => false
  | .init => false

/-- `k` further atomic steps of one context, with no step of the other between them. -/
def advanceTimes (r : Role) : Nat → State → Result
  | 0, s => .next s
  | k + 1, s =>
    match s.advance r with
    | .next t => advanceTimes r k t
    | .fault f => .fault f
    | .refused x => .refused x

/-- The same state under the other setting of `CONTEXTS`. -/
def State.withContexts (s : State) (c : Contexts) : State :=
  { s with par := { s.par with contexts := c } }

/-- Operations one after another, each from the state the one before left. -/
def execAll : List Instr → State → Result
  | [], s => .next s
  | i :: is, s =>
    match exec i s with
    | .next t => execAll is t
    | .fault f => .fault f
    | .refused x => .refused x

/-- A RingBuffer call that may change the buffer or answer a byte (R111, R113, R115). -/
inductive RingCall where
  | store (b : Byte)
  | readByte
  | peek
deriving DecidableEq, Repr

/-- A sequence of calls on a RingBuffer: the answers of the reads and peeks, and the buffer after. -/
def ringAnswers (c : Nat) : List RingCall → RingBuffer → Option (List (Option Byte) × RingBuffer)
  | [], r => some ([], r)
  | .store b :: os, r =>
    match r.store c b with
    | none => none
    | some r' => ringAnswers c os r'
  | .readByte :: os, r =>
    match r.readByte c with
    | none => none
    | some (v, r') => (ringAnswers c os r').map fun q => (v :: q.1, q.2)
  | .peek :: os, r =>
    match r.peek c with
    | none => none
    | some v => (ringAnswers c os r).map fun q => (v :: q.1, q.2)

/-- The same calls on a queue that holds at most `cap` bytes and drops the byte that does not fit
(R26, R112, R121). -/
def queueAnswers (cap : Nat) : List RingCall → List Byte → List (Option Byte) × List Byte
  | [], q => ([], q)
  | .store b :: os, q => queueAnswers cap os (if q.length < cap then q ++ [b] else q)
  | .readByte :: os, q =>
    (q.head? :: (queueAnswers cap os q.tail).1, (queueAnswers cap os q.tail).2)
  | .peek :: os, q => (q.head? :: (queueAnswers cap os q).1, (queueAnswers cap os q).2)

/-- The frame with one bit of one byte inverted (R139). -/
def flipBit (f : List Byte) (k j : Nat) : List Byte :=
  f.set k (f.getD k 0 ^^^ BitVec.twoPow 8 j)

/-- The packet a tick from `s` receives and accepts, if any (R152 to R154). -/
def receivedPacket (s : State) : Option Packet :=
  if s.link.available then s.link.recv.bind (acceptFrame s.par) else none

/-- How many payload bytes of it go to `RX` (R156). -/
def copiedCount (s : State) : Nat :=
  match receivedPacket s with
  | none => 0
  | some p => min p.payload.length (s.freeSlots .rx)

/-- How many bytes of `TX` a tick from `s` sends (R163 to R165). -/
def sentCount (s : State) : Nat :=
  if s.link.currentlyTransmitting then 0 else min (s.occupied .tx) s.par.maxPayload

/-- The ACK packet of `p`, field by field (R159). -/
def ackFor (par : Params) (p : Packet) : Packet :=
  { sequenceNumber := p.sequenceNumber, streamId := p.streamId, flags := par.flags.ack, payload := []
    checksum := BitVec.ofNat 16
      (p.sequenceNumber.toNat + 0 + p.streamId.toNat + par.flags.ack.toNat) }

/-- The data packet of the `n` oldest bytes of `TX`, field by field (R166, R167). -/
def dataFor (s : State) (n : Nat) : Packet :=
  { sequenceNumber := s.seq, streamId := s.par.txStreamId
    flags := s.par.flags.ack ||| s.par.flags.priority
    payload := (s.tx.contents s.par.capacity).take n
    checksum := BitVec.ofNat 16
      (s.seq.toNat + n + s.par.txStreamId.toNat
        + (s.par.flags.ack ||| s.par.flags.priority).toNat
        + (((s.tx.contents s.par.capacity).take n).map BitVec.toNat).sum) }

/-- Is this a step of a `tick` in progress (R171)? -/
def Activity.ofTick : Activity → Bool
  | .flushRead => false
  | .flushReturn => false
  | .cfgBiteRate _ => false
  | .cfgPower _ => false
  | .cfgChannel _ => false
  | .rfCall => false
  | .channelCall => false
  | .initLink => false
  | .initDefaults => false
  | .initRf => false
  | .initChannel => false
  | .tickAvailable => true
  | .tickRecv => true
  | .tickParse _ => true
  | .tickValidate _ => true
  | .tickFreeSlots _ => true
  | .tickCopy _ _ => true
  | .tickAckEncode _ => true
  | .tickAckSerialize _ => true
  | .tickAckSend _ => true
  | .tickBusy => true
  | .tickOccupied => true
  | .tickDrain _ _ => true
  | .tickEncode _ => true
  | .tickSeq _ => true
  | .tickSerialize _ => true
  | .tickSend _ => true

/-- The operations that are programs of several atomic steps under `dual` (R61), with the context that
issues each and its first step. -/
def compositeOf : Instr → Option (Role × Activity)
  | .flush => some (.application, .flushRead)
  | .tick => some (.servicing, .tickAvailable)
  | .setBiteRate r => some (.servicing, .cfgBiteRate r)
  | .setPower p => some (.servicing, .cfgPower p)
  | .setChannel c => some (.servicing, .cfgChannel c)
  | .init => some (.servicing, .initLink)
  | .rbStore _ _ => none
  | .rbReadByte _ => none
  | .rbPeek _ => none
  | .rbOccupied _ => none
  | .rbFreeSlots _ => none
  | .pcChecksum => none
  | .pcEncode => none
  | .pcSerialize => none
  | .pcParse => none
  | .pcValidate => none
  | .available => none
  | .read => none
  | .peek => none
  | .write _ => none
  | .availableForWrite => none
  | .setMode _ => none

end Sys2Proof.Machine
end

