-- ==== Sys2Proof/Certificates/Slice0/Obligations.lean ====
section
/-! DEFINITION. The statements for the provers. Each docstring names the rules of spec/ it comes from.
`Ok` (R21, R50), `Inv` and the other words of the statements are in Safety.lean. A statement about one
operation as an atomic step has `CONTEXTS = single` as a premise where the operation is composite (R61). -/

open Sys2Proof Sys2Proof.Machine

/-! ## Encoding -/

/-- R91, R92: every operation decodes from its own command word, with every operand. -/
def Obligations.DecodeInvertsEncode : Prop :=
  ∀ i : Instr, decode (encode i) = .ok i

/-- R91, R92: no bit of a command word is ignored: a word that decodes is the operation's word. -/
def Obligations.EncodeInvertsDecode : Prop :=
  ∀ (w : Half) (i : Instr), decode w = .ok i → encode i = w

/-- R92, R95: the decoder accepts exactly the words of the opcode map's masks and patterns, less the
one word a constraint reserves. -/
def Obligations.DecodeAcceptsExactlyTheOpcodeMap : Prop :=
  ∀ w : Half, (∃ i, decode w = .ok i) ↔ wellFormedWord w = true

/-- R96: each row fixes `unit` (but for the buffer select) and `op`, and no word is of two rows. -/
def Obligations.WordSelectsAtMostOneOperation : Prop :=
  (∀ r ∈ opcodeRows, r.mask &&& 0xEF00 = 0xEF00) ∧
    ∀ w : Half, (opcodeRows.filter fun r => r.admits w).length ≤ 1

/-- R92: every mnemonic's word as 95_test_vectors.md lists it (with `dd = AA` or `41`, and the codes
its vectors use) decodes to the operation it is listed for, on both buffers where there are two. -/
def Obligations.ListedWordsDecode : Prop :=
  (decode 0x00AA = .ok (.rbStore .rx 0xAA) ∧ decode 0x10AA = .ok (.rbStore .tx 0xAA) ∧
    decode 0x0100 = .ok (.rbReadByte .rx) ∧ decode 0x1100 = .ok (.rbReadByte .tx) ∧
    decode 0x0200 = .ok (.rbPeek .rx) ∧ decode 0x1200 = .ok (.rbPeek .tx) ∧
    decode 0x0300 = .ok (.rbOccupied .rx) ∧ decode 0x1300 = .ok (.rbOccupied .tx) ∧
    decode 0x0400 = .ok (.rbFreeSlots .rx) ∧ decode 0x1400 = .ok (.rbFreeSlots .tx)) ∧
  (decode 0x2000 = .ok .pcChecksum ∧ decode 0x2100 = .ok .pcEncode ∧
    decode 0x2200 = .ok .pcSerialize ∧ decode 0x2300 = .ok .pcParse ∧
    decode 0x2400 = .ok .pcValidate) ∧
  (decode 0x3000 = .ok .available ∧ decode 0x3100 = .ok .read ∧ decode 0x3200 = .ok .peek ∧
    decode 0x3341 = .ok (.write 0x41) ∧ decode 0x3400 = .ok .availableForWrite ∧
    decode 0x3500 = .ok .flush ∧ decode 0x4000 = .ok .tick) ∧
  (decode 0x5001 = .ok (.setMode .active) ∧ decode 0x5102 = .ok (.setBiteRate .fast) ∧
    decode 0x5203 = .ok (.setPower .max) ∧ decode 0x5302 = .ok (.setChannel .ch3) ∧
    decode 0x5400 = .ok .init)

/-! ## The operation port -/

/-- R44, R45, R91: a command word taken at a port runs the operation it decodes to, on the state with
the word gone. The model's choices in it: what the outside world does is a queue in the state
(notes/assumptions/7.md); which operations are issued from outside is a setting (29.md); under `dual`
the codec operations are admitted from either context (15.md); that the two occupancy queries are, is its
reading of R270 (15.md). -/
def Obligations.StepRunsTheDecodedOperation : Prop :=
  ∀ (s : State) (r : Role) (w : Half) (rest : List Stimulus) (i : Instr),
    s.inputs = .command r w :: rest → s.resetLevel = false → s.running r = none →
    decode w = .ok i → reachable s.par.assembly i = true →
    (s.par.contexts = .single ∨ mayIssue r i = true) →
    step s = exec i { s with inputs := rest }

/-- The model's choice, notes/assumptions/7.md and 29.md: a word presented next at its operation's port
(R44, R45, R48) runs at the very next step, under either setting of `CONTEXTS`. -/
def Obligations.PresentedWordRunsNext : Prop :=
  ∀ (s : State) (n w : Nat) (i : Instr), decodeTableWord n w = some i →
    step (s.withFetchWord n w) = exec i { s with
      resetLevel := false, app := none, svc := none
      par := { s.par with assembly := homeAssembly i } }

/-- R95: a word of no row, or the word the constraint reserves, is refused with the name of its class:
the unit, the `op`, mode code 3, or the operand. -/
def Obligations.ReservedWordIsRefused : Prop :=
  ∀ (s : State) (r : Role) (w : Half) (rest : List Stimulus),
    s.inputs = .command r w :: rest → s.resetLevel = false → s.running r = none →
    wellFormedWord w = false → step s = .refused (.reserved (reservedClass w))

/-- R42, R43, R45, R48, R235: while `reset` is asserted no operation is accepted; an operation of an
interface that is not there is refused, and so is, under `dual`, an operation of the other role. Which
operations are of the other role is the model's reading (notes/assumptions/15.md), and that a setting
says which interfaces are there is its choice (29.md). -/
def Obligations.PortRefusesUnderResetAndOtherRole : Prop :=
  ∀ (s : State) (r : Role) (w : Half) (rest : List Stimulus), s.inputs = .command r w :: rest →
    (s.resetLevel = true → step s = .refused .resetAsserted) ∧
    (∀ i, s.resetLevel = false → s.running r = none → decode w = .ok i →
      reachable s.par.assembly i = false → step s = .refused .notReachable) ∧
    ∀ i, s.resetLevel = false → s.running r = none → decode w = .ok i →
      reachable s.par.assembly i = true → s.par.contexts = .dual → mayIssue r i = false →
      step s = .refused .roleViolation

/-! ## Reset -/

/-- R38, R250: asserting `reset` gives every element its reset value, makes no LinkDriver call and
emits no trace event, in any state. -/
def Obligations.ResetRestoresTheStatedValues : Prop :=
  ∀ (s : State) (rest : List Stimulus), s.inputs = .reset true :: rest →
    ∃ t, step s = .next t ∧ t.rx.head = 0 ∧ t.rx.tail = 0 ∧ t.tx.head = 0 ∧ t.tx.tail = 0 ∧
      t.seq = 0 ∧ t.cfg = ⟨.idle, .slow, .low, .ch1⟩ ∧ t.trace = s.trace ∧ t.par = s.par

/-- R43, R251: once `reset` is released again the stream contract answers as from empty buffers, and `write`
queues. That the side port's output stays as it was, where nothing is put there, is the model's choice:
notes/assumptions/10.md. -/
def Obligations.StreamContractAfterReset : Prop :=
  ∀ s : State, s.par.Legal → s.afterReset.resetLevel = false ∧
    exec .available s.afterReset = .next (s.afterReset.respond 0) ∧
    exec .availableForWrite s.afterReset
      = .next (s.afterReset.respond (BitVec.ofNat 16 (s.par.capacity - 1))) ∧
    exec .read s.afterReset = .next (s.afterReset.respond 0x0100) ∧
    exec .peek s.afterReset = .next (s.afterReset.respond 0x0100) ∧
    ∀ d, ∃ t, exec (.write d) s.afterReset = .next t ∧ t.tx.contents s.par.capacity = [d]

/-! ## RingBuffer -/

/-- R111, R112: `store` drops the byte when the buffer is full; otherwise it writes the slot `head` names
and advances `head`. It never writes `tail`, and nothing outside the buffer but the response. That the side
port's output stays as it was, where nothing is put there, is the model's choice: notes/assumptions/10.md. -/
def Obligations.StoreWritesAtHeadOrDrops : Prop :=
  ∀ (b : Buf) (d : Byte) (s : State), (s.ring b).Ok s.par.capacity →
    ∃ t, exec (.rbStore b d) s = .next t ∧ t = (s.setRing b (t.ring b)).respond 0x0000 ∧
      (t.ring b).tail = (s.ring b).tail ∧
      (if ((s.ring b).head + 1) % s.par.capacity = (s.ring b).tail then t.ring b = s.ring b
       else (t.ring b).head = ((s.ring b).head + 1) % s.par.capacity ∧
        ∀ a, Memory.read (t.ring b).buf a
          = if a = (s.ring b).head then d else Memory.read (s.ring b).buf a)

/-- R184, R186: `write` is `store` on `TX`, and its response is 1 whether or not the byte was kept. That the
side port's output stays as it was, where nothing is put there, is the model's choice:
notes/assumptions/10.md. -/
def Obligations.WriteStoresInTxAndAnswersOne : Prop :=
  ∀ (d : Byte) (s : State), s.tx.Ok s.par.capacity →
    ∃ t, exec (.write d) s = .next t ∧ t = (s.setRing .tx t.tx).respond 0x0001 ∧
      t.tx.tail = s.tx.tail ∧
      (if (s.tx.head + 1) % s.par.capacity = s.tx.tail then t.tx = s.tx
       else t.tx.head = (s.tx.head + 1) % s.par.capacity ∧
        ∀ a, Memory.read t.tx.buf a = if a = s.tx.head then d else Memory.read s.tx.buf a)

/-- R113, R182: `readByte` answers `Empty` and changes nothing, or answers the byte at `tail` and advances
`tail`; the storage and `head` stay. `read` is `readByte` on `RX`. That the side port's output stays as it
was, where nothing is put there, is the model's choice: notes/assumptions/10.md. -/
def Obligations.ReadByteTakesTheByteAtTail : Prop :=
  (∀ (b : Buf) (s : State), (s.ring b).Ok s.par.capacity →
    exec (.rbReadByte b) s = .next
      (if (s.ring b).head = (s.ring b).tail then s.respond 0x0100
       else (s.setRing b { s.ring b with tail := ((s.ring b).tail + 1) % s.par.capacity }).respond
        ((Memory.read (s.ring b).buf (s.ring b).tail).setWidth 16))) ∧
  ∀ s : State, s.rx.Ok s.par.capacity →
    exec .read s = .next
      (if s.rx.head = s.rx.tail then s.respond 0x0100
       else (s.setRing .rx { s.rx with tail := (s.rx.tail + 1) % s.par.capacity }).respond
        ((Memory.read s.rx.buf s.rx.tail).setWidth 16))

/-- R115, R183: `peek` answers as `readByte` would and changes nothing but the response. That the side
port's output stays as it was, where nothing is put there, is the model's choice: notes/assumptions/10.md. -/
def Obligations.PeekChangesNothing : Prop :=
  (∀ (b : Buf) (s : State), (s.ring b).Ok s.par.capacity →
    exec (.rbPeek b) s = .next (s.respond
      (if (s.ring b).head = (s.ring b).tail then 0x0100
       else (Memory.read (s.ring b).buf (s.ring b).tail).setWidth 16))) ∧
  ∀ s : State, s.rx.Ok s.par.capacity →
    exec .peek s = .next (s.respond
      (if s.rx.head = s.rx.tail then 0x0100 else (Memory.read s.rx.buf s.rx.tail).setWidth 16))

/-- R116, R117, R181, R187: the occupancy queries answer from the two indices and change nothing but the
response. That the side port's output stays as it was, where nothing is put there, is the model's choice:
notes/assumptions/10.md. -/
def Obligations.OccupancyQueriesAnswerFromTheIndices : Prop :=
  ∀ (b : Buf) (s : State),
    exec (.rbOccupied b) s = .next (s.respond (BitVec.ofNat 16
      ((s.par.capacity + (s.ring b).head - (s.ring b).tail) % s.par.capacity))) ∧
    exec (.rbFreeSlots b) s = .next (s.respond (BitVec.ofNat 16 (s.par.capacity - 1
      - (s.par.capacity + (s.ring b).head - (s.ring b).tail) % s.par.capacity))) ∧
    exec .available s = .next (s.respond (BitVec.ofNat 16
      ((s.par.capacity + s.rx.head - s.rx.tail) % s.par.capacity))) ∧
    exec .availableForWrite s = .next (s.respond (BitVec.ofNat 16 (s.par.capacity - 1
      - (s.par.capacity + s.tx.head - s.tx.tail) % s.par.capacity)))

/-- R117, R111: a `store` is accepted exactly when `freeSlots` is above 0 at that moment. -/
def Obligations.StoreIsAcceptedExactlyWhenThereIsRoom : Prop :=
  ∀ (b : Buf) (d : Byte) (s : State), (s.ring b).Ok s.par.capacity →
    ∃ t, exec (.rbStore b d) s = .next t ∧
      t.occupied b = if 0 < s.freeSlots b then s.occupied b + 1 else s.occupied b

/-- R118: after any sequence of `store` and `readByte` calls. -/
def Obligations.OccupiedAndFreeSlotsAddUp : Prop :=
  ∀ (c : Nat) (r : RingBuffer) (calls : List RingCall), r.Ok c →
    ∃ answers r', ringAnswers c calls r = some (answers, r') ∧
      r'.occupied c + r'.freeSlots c = c - 1 ∧ r'.occupied c ≤ c - 1

/-- R119: `C` writes into an empty `TX` leave the first `C - 1` bytes, in order; `availableForWrite` is
`C - 1` before and 0 after. That the side port's output stays as it was, where nothing is put there, is the
model's choice: notes/assumptions/10.md. -/
def Obligations.FillingAnEmptyBuffer : Prop :=
  ∀ (s : State) (bytes : List Byte), s.tx.Ok s.par.capacity → s.tx.head = s.tx.tail →
    bytes.length = s.par.capacity →
    exec .availableForWrite s
        = .next (s.respond (BitVec.ofNat 16 (s.par.capacity - 1))) ∧
    ∃ t, execAll (bytes.map .write) s = .next t ∧
      t.tx.contents s.par.capacity = bytes.take (s.par.capacity - 1) ∧
      exec .availableForWrite t = .next (t.respond 0)

/-- R26, R121: the circular buffer is a queue of at most `C - 1` bytes that drops the byte that does
not fit: every answer of every sequence of calls, and what the buffer holds after it. -/
def Obligations.RingBufferRefinesBoundedQueue : Prop :=
  ∀ (c : Nat) (r : RingBuffer) (calls : List RingCall), r.Ok c →
    ∃ r', ringAnswers c calls r = some ((queueAnswers (c - 1) calls (r.contents c)).1, r') ∧
      r'.contents c = (queueAnswers (c - 1) calls (r.contents c)).2 ∧ r'.Ok c

/-- R185, R186: `writeN` is `n` writes in index order, and its count is `n` whatever was kept. That the side
port's output stays as it was, where nothing is put there, is the model's choice: notes/assumptions/10.md. -/
def Obligations.WriteNIsRepeatedWrite : Prop :=
  ∀ (s : State) (b : Byte) (bytes : List Byte), s.tx.Ok s.par.capacity →
    ∃ t, s.writeN (b :: bytes) = some (t, bytes.length + 1) ∧
      execAll ((b :: bytes).map .write) s = .next (t.respond 0x0001) ∧
      t.tx.contents s.par.capacity
        = s.tx.contents s.par.capacity ++ (b :: bytes).take (s.freeSlots .tx)

/-! ## PacketCodec

The layout of the side port, on which the operands are, is the model's choice: notes/assumptions/9.md. -/

/-- R131, R93: the response is the sum, modulo 65536, of the values of the packet on the side port; nothing
else changes. That the side port's output stays as it was, where nothing is put there, is the model's
choice: notes/assumptions/10.md. -/
def Obligations.ChecksumOperationAddsTheFields : Prop :=
  ∀ (s : State) (p : Packet), p.payload.length < 256 → s.sideIn = serialize s.par.wireOrder p →
    exec .pcChecksum s = .next (s.respond (BitVec.ofNat 16
      (p.sequenceNumber.toNat + p.payload.length + p.streamId.toNat + p.flags.toNat
        + (p.payload.map BitVec.toNat).sum)))

/-- R132, R93: `encode` of the operands on the side port fails when there are more than `MAXP` bytes;
otherwise it answers the packet of those fields with their checksum. Bytes beyond `len` are ignored. That
a failure leaves no bytes on the side port is the model's choice: notes/assumptions/10.md. -/
def Obligations.EncodeOperationFramesOrFails : Prop :=
  ∀ (s : State) (seq : Half) (sid fl : Byte) (payload extra : List Byte), payload.length < 256 →
    s.sideIn = wireBytes s.par.wireOrder seq ++ [BitVec.ofNat 8 payload.length, sid, fl]
      ++ payload ++ extra →
    exec .pcEncode s = .next
      (if s.par.maxPayload < payload.length then s.respondWith 0x0000 []
       else s.respondWith 0x0001 (serialize s.par.wireOrder
        { sequenceNumber := seq, streamId := sid, flags := fl, payload := payload
          checksum := BitVec.ofNat 16 (seq.toNat + payload.length + sid.toNat + fl.toNat
            + (payload.map BitVec.toNat).sum) }))

/-- R134, R81: the frame of the packet on the side port, its checksum as it stands, and `7 + length`.
For a packet of more than `MAXP` bytes this is the model's reading: notes/assumptions/28.md. -/
def Obligations.SerializeOperationWritesTheFrame : Prop :=
  ∀ (s : State) (p : Packet), p.payload.length < 256 → s.sideIn = serialize s.par.wireOrder p →
    exec .pcSerialize s = .next (s.respondWith (BitVec.ofNat 16 (7 + p.payload.length))
      (wireBytes s.par.wireOrder p.sequenceNumber
        ++ [BitVec.ofNat 8 p.payload.length, p.streamId, p.flags] ++ p.payload
        ++ wireBytes s.par.wireOrder p.checksum))

/-- R135, R88: `parse` fails on a byte string that is too short, has `length` above `MAXP`, or breaks
the length policy; otherwise it answers the packet of the frame's `7 + length` bytes. That `rlen` is the
number of bytes presented (notes/assumptions/9.md), and that a failure leaves no bytes on the side port
(10.md), are the model's choices. -/
def Obligations.ParseOperationTestsTheLength : Prop :=
  ∀ (s : State) (n : Nat), n = (s.sideIn.getD 2 0).toNat →
    exec .pcParse s = .next
      (if 7 ≤ s.sideIn.length ∧ n ≤ s.par.maxPayload ∧
          (s.par.frameLenPolicy = .exact → s.sideIn.length = 7 + n) ∧
          (s.par.frameLenPolicy = .atLeast → 7 + n ≤ s.sideIn.length)
       then s.respondWith 0x0001 (s.sideIn.take (7 + n)) else s.respondWith 0x0000 [])

/-- R136: the response is 1 exactly when the sum of the fields is the checksum the packet carries. For a
packet of more than `MAXP` bytes this is the model's reading: notes/assumptions/28.md. That the side port's
output stays as it was, where nothing is put there, is the model's choice: notes/assumptions/10.md. -/
def Obligations.ValidateOperationComparesTheChecksum : Prop :=
  ∀ (s : State) (p : Packet), p.payload.length < 256 → s.sideIn = serialize s.par.wireOrder p →
    exec .pcValidate s = .next (s.respond
      (if BitVec.ofNat 16 (p.sequenceNumber.toNat + p.payload.length + p.streamId.toNat
          + p.flags.toNat + (p.payload.map BitVec.toNat).sum) = p.checksum then 0x0001 else 0x0000))

/-- R130: a codec operation answers for whatever bytes are on the side port, and changes nothing but the
response and the side port's output. -/
def Obligations.CodecOperationsTouchNoState : Prop :=
  ∀ (s : State) (i : Instr), i ∈ [Instr.pcChecksum, .pcEncode, .pcSerialize, .pcParse, .pcValidate] →
    ∃ w bytes, exec i s = .next { s with rsp := w, sideOut := bytes }

/-- R138: what is encoded and serialised parses back with every field equal, and validates; for every
parameter setting. -/
def Obligations.EncodeSerializeParseRoundTrip : Prop :=
  ∀ (par : Params) (payload : List Byte) (seq : Half) (sid fl : Byte), par.Legal →
    payload.length ≤ par.maxPayload →
    ∃ p, encodePacket par payload payload.length seq sid fl = some p ∧
      p.sequenceNumber = seq ∧ p.streamId = sid ∧ p.flags = fl ∧ p.payload = payload ∧
      parse par (serialize par.wireOrder p) = some p ∧ validate p = true

/-- R139: under `exact` the receive path rejects a frame with one bit inverted before the checksum;
under `at_least` the frame of the rule is accepted both before and after the flip. -/
def Obligations.SingleBitFlipIsRejected : Prop :=
  (∀ (par : Params) (p : Packet) (k j : Nat), par.Legal → par.frameLenPolicy = .exact →
    p.payload.length ≤ par.maxPayload → p.checksum = p.sum → k < 5 + p.payload.length → j < 8 →
    acceptFrame par (flipBit (serialize par.wireOrder p) k j) = none) ∧
  ∀ f, f = ([0x7F, 0xFE, 0x00, 0x00, 0x01, 0x80, 0xFE] : List Byte) ++ List.replicate 25 0 →
    acceptFrame { Config.defaults with frameLenPolicy := .atLeast } f ≠ none ∧
    acceptFrame { Config.defaults with frameLenPolicy := .atLeast } (flipBit f 2 1) ≠ none

/-- R140: a flip in either checksum byte is rejected too, under either length policy. -/
def Obligations.ChecksumFieldFlipIsRejected : Prop :=
  ∀ (par : Params) (p : Packet) (k j : Nat), par.Legal →
    p.payload.length ≤ par.maxPayload → p.checksum = p.sum →
    5 + p.payload.length ≤ k → k < 7 + p.payload.length → j < 8 →
    ∃ q, parse par (flipBit (serialize par.wireOrder p) k j) = some q ∧ validate q = false

/-- R141: two payloads with the same bytes in another order have the same checksum: the exchange of two
bytes is not caught. -/
def Obligations.ChecksumMissesReorderedPayload : Prop :=
  ∀ (p : Packet) (payload : List Byte), List.Perm payload p.payload → validate p = true →
    validate { p with payload := payload } = true

/-! ## The tick -/

/-- R152 to R172: the LinkDriver calls and trace events of a tick, in order, with their arguments: the
ACK of R159 and the data packet of R167 among them. -/
def Obligations.TickCallsTheLinkInOrder : Prop :=
  ∀ s : State, s.par.Legal → s.rx.Ok s.par.capacity → s.tx.Ok s.par.capacity →
    s.par.contexts = .single →
    ∃ t, exec .tick s = .next t ∧ t.trace = s.trace ++ [.link .available]
      ++ (if s.link.available then [.link .recv] else [])
      ++ (match receivedPacket s with
        | none => []
        | some p =>
          (if p.flags &&& s.par.flags.ack ≠ 0 then [.ackObserved p.sequenceNumber] else [])
          ++ (if s.par.ackEchoOnAck = true ∨ p.flags &&& s.par.flags.ack = 0
              then [.link (.send (serialize s.par.wireOrder (ackFor s.par p)) 7)] else []))
      ++ [.link .currentlyTransmitting]
      ++ (if sentCount s = 0 then []
          else [.link (.send (serialize s.par.wireOrder (dataFor s (sentCount s)))
            (7 + sentCount s))])

/-- R156, R164 to R168: the first payload bytes that fit join `RX`, the oldest bytes leave `TX`, and
`SEQ` advances exactly when a data packet is made. -/
def Obligations.TickMovesTheBytes : Prop :=
  ∀ s : State, s.par.Legal → s.rx.Ok s.par.capacity → s.tx.Ok s.par.capacity →
    s.par.contexts = .single →
    ∃ t, exec .tick s = .next t ∧
      t.rx.contents s.par.capacity = s.rx.contents s.par.capacity
        ++ (match receivedPacket s with
          | none => []
          | some p => p.payload.take (s.freeSlots .rx)) ∧
      t.tx.contents s.par.capacity = (s.tx.contents s.par.capacity).drop (sentCount s) ∧
      t.seq = if sentCount s = 0 then s.seq else s.seq + 1

/-- R40, R62: what a tick leaves alone: everything but `RX.head`, `RX.buf`, `TX.tail`, `SEQ`, the trace and
the response; and of `RX.buf` every slot but the ones the copy stores to, from `RX.head` on. That the side
port's output stays as it was, where nothing is put there, is the model's choice: notes/assumptions/10.md. -/
def Obligations.TickFrame : Prop :=
  ∀ s t : State, s.par.Legal → s.rx.Ok s.par.capacity → s.tx.Ok s.par.capacity →
    s.par.contexts = .single → exec .tick s = .next t →
    t = { s with rx := t.rx, tx := t.tx, seq := t.seq, trace := t.trace, rsp := 0x0000 } ∧
      t.rx.tail = s.rx.tail ∧ t.tx.head = s.tx.head ∧ t.tx.buf = s.tx.buf ∧
      t.rx.head = (s.rx.head + copiedCount s) % s.par.capacity ∧
      t.tx.tail = (s.tx.tail + sentCount s) % s.par.capacity ∧
      ∀ a, (∀ k < copiedCount s, a ≠ (s.rx.head + k) % s.par.capacity) →
        Memory.read t.rx.buf a = Memory.read s.rx.buf a

/-- R173: the tick reads no configuration field, as an atomic step and step by step. -/
def Obligations.TickReadsNoConfiguration : Prop :=
  (∀ (s t : State) (c : Cfg), exec .tick s = .next t →
    exec .tick { s with cfg := c } = .next { t with cfg := c }) ∧
  ∀ (s : State) (a : Activity) (c : Cfg), a.ofTick = true →
    microStep { s with cfg := c } a
      = (microStep s a).map fun q => ({ q.1 with cfg := c }, q.2)

/-- R177: the first packet. -/
def Obligations.FirstPacketScenario : Prop :=
  ∃ s, exec (.write 0x41) State.reset = .next s ∧
    s.freeSlots .tx + 1 = State.reset.freeSlots .tx ∧
    ∀ a : LinkAnswers, a.available = false → a.currentlyTransmitting = false →
      ∃ t, exec .tick { s with link := a } = .next t ∧
        t.trace = [.link .available, .link .currentlyTransmitting,
          .link (.send [0x00, 0x00, 0x01, 0x00, 0x11, 0x41, 0x53, 0x00] 8)]

/-- R178: an inbound ACK packet stores nothing; it is observed, and answered exactly when
`ACK_ECHO_ON_ACK` says so. -/
def Obligations.InboundAckScenario : Prop :=
  ∀ (s : State) (seq : Half) (sid : Byte) (f : List Byte), s.par.Legal →
    s.rx.Ok s.par.capacity → s.tx.Ok s.par.capacity → s.par.contexts = .single →
    f = wireBytes s.par.wireOrder seq ++ [0, sid, s.par.flags.ack]
      ++ wireBytes s.par.wireOrder
        (BitVec.ofNat 16 (seq.toNat + sid.toNat + s.par.flags.ack.toNat)) →
    s.link.available = true → s.link.recv = some f → s.tx.head = s.tx.tail →
    ∃ t, exec .tick s = .next t ∧ t.rx = s.rx ∧
      t.trace = s.trace ++ [.link .available, .link .recv, .ackObserved seq]
        ++ (if s.par.ackEchoOnAck then [.link (.send f 7)] else [])
        ++ [.link .currentlyTransmitting]

/-- R190, R121, R138: the bytes one block's tick drains into a frame are the bytes another block's tick
with room for them adds to its `RX`, in order, whatever the first block receives in that tick. -/
def Obligations.DrainedBytesReachThePeer : Prop :=
  ∀ (a b : State) (n : Nat), a.par = b.par → a.par.Legal → a.par.contexts = .single →
    a.rx.Ok a.par.capacity → a.tx.Ok a.par.capacity →
    b.rx.Ok b.par.capacity → b.tx.Ok b.par.capacity →
    a.link.currentlyTransmitting = false →
    n = min (a.occupied .tx) a.par.maxPayload → 0 < n → n ≤ b.freeSlots .rx →
    ∃ a' g, exec .tick a = .next a' ∧ a'.trace.getLast? = some (.link (.send g (7 + n))) ∧
      ∃ b', exec .tick { b with link := { b.link with available := true, recv := some g } }
          = .next b' ∧
        b'.rx.contents b.par.capacity
          = b.rx.contents b.par.capacity ++ (a.tx.contents a.par.capacity).take n ∧
        a'.tx.contents a.par.capacity = (a.tx.contents a.par.capacity).drop n

/-! ## The stream contract -/

/-- R188, R189, R266: `flush` writes `RX.tail` alone and brings it to `RX.head`; under `dual` each of its
reads writes nothing but `RX.tail`, a read that finds `RX` empty is the last, and the return after it writes
nothing. That the return is a step of its own is the model's choice: notes/assumptions/8.md. That the side
port's output stays as it was, where nothing is put there, is the model's choice: notes/assumptions/10.md. -/
def Obligations.FlushMovesOnlyRxTail : Prop :=
  (∀ s : State, s.rx.Ok s.par.capacity → s.par.contexts = .single →
    exec .flush s = .next (({ s with rx := { s.rx with tail := s.rx.head } } : State).respond 0)) ∧
  (∀ (s t : State) (x : After), microStep s .flushRead = some (t, x) →
    t = { s with rx := { s.rx with tail := t.rx.tail } } ∧
      x = (if s.rx.head = s.rx.tail then .more .flushReturn else .more .flushRead)) ∧
  ∀ s : State, microStep s .flushReturn = some (s, .done 0x0000)

/-- R180: no stream operation calls the LinkDriver, sends or receives a packet, or touches `SEQ` or
`CFG`. -/
def Obligations.StreamOperationsLeaveTheLinkAlone : Prop :=
  ∀ (i : Instr) (s t : State), isStreamOperation i = true → exec i s = .next t →
    t.trace = s.trace ∧ t.seq = s.seq ∧ t.cfg = s.cfg ∧ t.link = s.link

/-! ## Configuration -/

/-- R201: `setMode` writes `CFG.mode` and makes no LinkDriver call. That the side port's output stays as it
was, where nothing is put there, is the model's choice: notes/assumptions/10.md. -/
def Obligations.SetModeWritesTheMode : Prop :=
  ∀ (m : Mode) (s : State),
    exec (.setMode m) s = .next { s with cfg := { s.cfg with mode := m }, rsp := 0x0000 }

/-- R202, R203: each setter writes its field and makes one call with the new value and the other field's
current one, whatever the old value was. That the side port's output stays as it was, where nothing is put
there, is the model's choice: notes/assumptions/10.md. -/
def Obligations.RateAndPowerSettersCallOnce : Prop :=
  ∀ s : State, s.par.contexts = .single →
    (∀ r : BiteRate, exec (.setBiteRate r) s = .next
      { s with cfg := { s.cfg with biteRate := r }, rsp := 0x0000
               trace := s.trace ++ [.link (.setDataRateAndPower r s.cfg.power)] }) ∧
    ∀ p : Power, exec (.setPower p) s = .next
      { s with cfg := { s.cfg with power := p }, rsp := 0x0000
               trace := s.trace ++ [.link (.setDataRateAndPower s.cfg.biteRate p)] }

/-- R204: `setChannel` writes its field and makes one call with ten times the logical channel. That the side
port's output stays as it was, where nothing is put there, is the model's choice: notes/assumptions/10.md. -/
def Obligations.SetChannelCallsOnce : Prop :=
  ∀ (c : Channel) (s : State), s.par.contexts = .single →
    exec (.setChannel c) s = .next
      { s with cfg := { s.cfg with channel := c }, rsp := 0x0000
               trace := s.trace ++ [.link (.setChannel
                 (match c with | .ch1 => 10 | .ch2 => 20 | .ch3 => 30 | .ch4 => 40))] }

/-- R208, R210, R211: `init` fails with no call when the pins are invalid, fails after one call when the
driver does, and otherwise restores the defaults and makes the two calls; `RX`, `TX` and `SEQ` stay. That
the side port's output stays as it was, where nothing is put there, is the model's choice:
notes/assumptions/10.md. -/
def Obligations.InitTriesOnce : Prop :=
  ∀ s : State, s.par.contexts = .single →
    exec .init s = .next
      (if s.pinsValid = false then { s with rsp := 0x0000 }
       else if s.link.init = false then
         { s with rsp := 0x0000, trace := s.trace ++ [.link .init] }
       else { s with rsp := 0x0001, cfg := ⟨.idle, .slow, .low, .ch1⟩
                     trace := s.trace ++ [.link .init, .link (.setDataRateAndPower .slow .low),
                       .link (.setChannel 10)] })

/-- R206: each setter call programs the values current at that call, in either order, from reset. -/
def Obligations.SettersAreNotBatched : Prop :=
  (∃ t, execAll [.setPower .max, .setBiteRate .fast] State.reset = .next t ∧
    t.trace = [.link (.setDataRateAndPower .slow .max), .link (.setDataRateAndPower .fast .max)]) ∧
  ∃ t, execAll [.setBiteRate .fast, .setPower .max] State.reset = .next t ∧
    t.trace = [.link (.setDataRateAndPower .fast .low), .link (.setDataRateAndPower .fast .max)]

/-- R205: the map of the logical channels, and that no step of the block selects any other transceiver
channel. -/
def Obligations.OnlyFourTransceiverChannels : Prop :=
  (∀ c, transceiverChannel c
    = match c with | .ch1 => 10 | .ch2 => 20 | .ch3 => 30 | .ch4 => 40) ∧
  ∀ (s t : State) (n : Nat), step s = .next t → Event.link (.setChannel n) ∈ t.trace →
    Event.link (.setChannel n) ∈ s.trace ∨ n = 10 ∨ n = 20 ∨ n = 30 ∨ n = 40

/-! ## The whole machine -/

/-- R21, R37, R60, R72: every step keeps the invariant, under either setting of `CONTEXTS`. -/
def Obligations.StepKeepsTheInvariant : Prop :=
  ∀ s t : State, s.Inv → step s = .next t → t.Inv

/-- R11, R38: the invariant holds right after reset. The values the model chose for the boundary
(notes/assumptions/5.md, 6.md, 9.md, 10.md, 12.md) play no part in it. -/
def Obligations.ResetSatisfiesTheInvariant : Prop := State.reset.Inv

/-- R226: from a good state a step is a next state, but for the refusals of R37, R42, R43, R95 and R235:
no operation faults. What is of the other role, and what is of an interface that is not there, is the
model's reading: notes/assumptions/15.md, 29.md. -/
def Obligations.NoOperationFaults : Prop :=
  ∀ s : State, s.Inv → (∃ t, step s = .next t) ∨
    (∃ r w rest, s.inputs = .command r w :: rest ∧
      ((s.resetLevel = true ∧ step s = .refused .resetAsserted) ∨
       (wellFormedWord w = false ∧ step s = .refused (.reserved (reservedClass w))) ∨
       ((∃ i, decode w = .ok i ∧ reachable s.par.assembly i = false) ∧
        step s = .refused .notReachable) ∨
       (s.par.contexts = .dual ∧ (∃ i, decode w = .ok i ∧ mayIssue r i = false) ∧
        step s = .refused .roleViolation))) ∨
    (∃ bs rest, s.inputs = .side bs :: rest ∧ s.par.assembly = .integrated ∧
      step s = .refused .notReachable) ∨
    ∃ v rest, s.inputs = .pins v :: rest ∧ s.resetLevel = false ∧ step s = .refused .strapHeld

/-- R239, R82: every frame handed to the LinkDriver goes with its true length, between 7 and `MTU`. -/
def Obligations.SentFramesStayWithinTheMtu : Prop :=
  ∀ s t : State, s.Inv → s.SentFramesOk → step s = .next t → t.SentFramesOk

/-- R37, R43, R209, R237: no operation changes the parameters or the block's inputs; no step changes
the parameters, none changes `pins_valid` unless `reset` is asserted (notes/assumptions/6.md), and
nothing comes in by the side port of the integrated block (R42). -/
def Obligations.OperationsLeaveTheInputsAlone : Prop :=
  (∀ (i : Instr) (s t : State), exec i s = .next t →
    t.par = s.par ∧ t.link = s.link ∧ t.pinsValid = s.pinsValid ∧ t.resetLevel = s.resetLevel ∧
      t.sideIn = s.sideIn ∧ t.inputs = s.inputs) ∧
  ∀ s t : State, step s = .next t →
    t.par = s.par ∧ (s.resetLevel = false → t.pinsValid = s.pinsValid) ∧
      (s.par.assembly = .integrated → t.sideIn = s.sideIn)

/-- R28, R161, R168, R175, R250: `SEQ` changes only by a reset or a tick (as an atomic step under
`single`, at its own step under `dual`), and the tick adds one, modulo 65536. -/
def Obligations.OnlyTheTickAdvancesSeq : Prop :=
  (∀ (i : Instr) (s t : State), exec i s = .next t → t.seq ≠ s.seq →
    i = .tick ∧ s.par.contexts = .single ∧ t.seq = s.seq + 1) ∧
  ∀ s t : State, s.Inv → step s = .next t → t.seq ≠ s.seq →
    (∃ rest, s.inputs = .reset true :: rest ∧ t.seq = 0) ∨
    ((∃ r w rest, s.inputs = .command r w :: rest ∧ decode w = .ok .tick) ∧
      s.par.contexts = .single ∧ t.seq = s.seq + 1) ∨
    ((∃ q, s.svc = some (.tickSeq q)) ∧ t.seq = s.seq + 1)

/-- R20, R40, R250: `CFG` is written by the setters and `init` alone (as atomic steps under `single`, at
their own steps under `dual`; the cut into steps is the model's, notes/assumptions/16.md), and by a
reset. -/
def Obligations.OnlyConfigurationWritesCfg : Prop :=
  (∀ (i : Instr) (s t : State), exec i s = .next t → t.cfg ≠ s.cfg → writesCfg i = true) ∧
  ∀ s t : State, s.Inv → step s = .next t → t.cfg ≠ s.cfg →
    (∃ rest, s.inputs = .reset true :: rest ∧ t.cfg = ⟨.idle, .slow, .low, .ch1⟩) ∨
    (∃ r w rest i, s.inputs = .command r w :: rest ∧ decode w = .ok i ∧ writesCfg i = true ∧
      exec i { s with inputs := rest } = .next t) ∨
    (∃ x, s.svc = some (.cfgBiteRate x) ∧ t.cfg = { s.cfg with biteRate := x }) ∨
    (∃ x, s.svc = some (.cfgPower x) ∧ t.cfg = { s.cfg with power := x }) ∨
    (∃ x, s.svc = some (.cfgChannel x) ∧ t.cfg = { s.cfg with channel := x }) ∨
    (s.svc = some .initDefaults ∧ t.cfg = ⟨.idle, .slow, .low, .ch1⟩)

/-- R20, R22, R40: storage is written by `store` alone: every byte of both buffers reads as before after
any operation but `RB_STORE`, `WRITE` and `TICK`; `RB_STORE` writes its own buffer only, `WRITE` only
`TX`, `TICK` only `RX`. -/
def Obligations.OnlyStoresWriteStorage : Prop :=
  ∀ (i : Instr) (s t : State), exec i s = .next t →
    (((∃ d, i = .rbStore .rx d) ∨ i = .tick) ∨
      ∀ a, Memory.read t.rx.buf a = Memory.read s.rx.buf a) ∧
    (((∃ d, i = .rbStore .tx d) ∨ ∃ d, i = .write d) ∨
      ∀ a, Memory.read t.tx.buf a = Memory.read s.tx.buf a)

/-- R220 to R227: an absorbed condition changes nothing: a full `TX`, an empty buffer, a packet too long, a
failed `init`; and, of every label, in the atomic step of a composite operation that meets it under `dual`,
nothing but the calls made. A discarded frame ends the receive phase, a cut copy stores the first
`freeSlots(RX)` bytes, a failed `init` answers 0. That a failed `PC_ENCODE` leaves no bytes on the side port
is the model's choice (notes/assumptions/10.md), and to which atomic step a label belongs is its reading
(31.md). That the side port's output stays as it was, where nothing is put there, is the model's choice:
notes/assumptions/10.md. -/
def Obligations.AbsorbedConditionsChangeNothing : Prop :=
  (∀ (d : Byte) (s : State), .txFull ∈ conditionsOf (.write d) s →
    exec (.write d) s = .next (s.respond 0x0001)) ∧
  (∀ (b : Buf) (s : State), .noData ∈ conditionsOf (.rbReadByte b) s →
    exec (.rbReadByte b) s = .next (s.respond 0x0100)) ∧
  (∀ s : State, .noData ∈ conditionsOf .read s → exec .read s = .next (s.respond 0x0100)) ∧
  (∀ s : State, .tooLong ∈ conditionsOf .pcEncode s →
    exec .pcEncode s = .next (s.respondWith 0x0000 [])) ∧
  (∀ s t : State, s.par.contexts = .single →
    (.configPins ∈ conditionsOf .init s ∨ .configLink ∈ conditionsOf .init s) →
    exec .init s = .next t → t = { s with trace := t.trace, rsp := 0x0000 }) ∧
  (∀ (s t : State) (a : Activity) (x : After) (c : Condition), c ∈ microConditions s a →
    microStep s a = some (t, x) → t = { s with trace := t.trace } ∧
      (c = .recvFailed ∨ c = .malformed ∨ c = .checksum → x = .more .tickBusy) ∧
      (c = .configPins ∨ c = .configLink → x = .done 0x0000)) ∧
  ∀ (s : State) (p : Packet), .rxTrunc ∈ microConditions s (.tickFreeSlots p) →
    microStep s (.tickFreeSlots p)
      = some (s, nextCopy s p (p.payload.take (s.freeSlots .rx)))

/-! ## Two contexts -/

/-- R61: under `dual` a composite operation begins: its context is at its first atomic step and nothing
else has happened. That beginning is a step of its own is the model's choice: notes/assumptions/8.md. -/
def Obligations.CompositeOperationsBeginUnderDual : Prop :=
  ∀ (i : Instr) (r : Role) (a : Activity) (s : State), compositeOf i = some (r, a) →
    s.par.contexts = .dual → exec i s = .next (s.setRunning r (some a))

/-- R60, R61, R67: a composite operation whose atomic steps no other context's step falls between does
what it does as one atomic step under `single`, response and trace included. That it begins with a step of
its own, and the cut of the setters and `init` into atomic steps, are the model's:
notes/assumptions/8.md, 16.md. -/
def Obligations.UninterruptedProgramEqualsAtomicStep : Prop :=
  ∀ (i : Instr) (r : Role) (a : Activity) (s : State), compositeOf i = some (r, a) → s.Inv →
    s.par.contexts = .dual → s.running r = none →
    ∃ begun k t, exec i s = .next begun ∧ advanceTimes r k begun = .next t ∧
      t.running r = none ∧ exec i (s.withContexts .single) = .next (t.withContexts .single)

/-- R62, R233, R234: under `dual` a step of the application leaves what the servicing context owns:
`RX.head`, `RX.buf`, `TX.tail`, `SEQ`, `CFG` and the link calls. R66, R270: what the servicing context
was told before it stays a lower bound of `occupied(TX)` and of `freeSlots(RX)`, and an upper bound of
`freeSlots(TX)` and of `occupied(RX)`. -/
def Obligations.ApplicationStepsLeaveTheServicingState : Prop :=
  ∀ (s t : State) (x : Stimulus) (rest : List Stimulus), s.Inv → s.par.contexts = .dual →
    s.inputs = x :: rest → (x = .advance .application ∨ ∃ w, x = .command .application w) →
    step s = .next t →
    t.rx.head = s.rx.head ∧ t.rx.buf = s.rx.buf ∧ t.tx.tail = s.tx.tail ∧ t.seq = s.seq ∧
      t.cfg = s.cfg ∧ t.trace = s.trace ∧ t.svc = s.svc ∧
      s.occupied .tx ≤ t.occupied .tx ∧ s.freeSlots .rx ≤ t.freeSlots .rx ∧
      t.freeSlots .tx ≤ s.freeSlots .tx ∧ t.occupied .rx ≤ s.occupied .rx

/-- R62, R233, R234: under `dual` a step of the servicing context leaves what the application owns:
`RX.tail`, `TX.head` and `TX.buf`. R66, R270: what the application was told before it stays a lower bound
of `available` and of `availableForWrite`, and an upper bound of `freeSlots(RX)` and of `occupied(TX)`. -/
def Obligations.ServicingStepsLeaveTheApplicationState : Prop :=
  ∀ (s t : State) (x : Stimulus) (rest : List Stimulus), s.Inv → s.par.contexts = .dual →
    s.inputs = x :: rest → (x = .advance .servicing ∨ ∃ w, x = .command .servicing w) →
    step s = .next t →
    t.rx.tail = s.rx.tail ∧ t.tx.head = s.tx.head ∧ t.tx.buf = s.tx.buf ∧ t.app = s.app ∧
      s.occupied .rx ≤ t.occupied .rx ∧ s.freeSlots .tx ≤ t.freeSlots .tx ∧
      t.freeSlots .rx ≤ s.freeSlots .rx ∧ t.occupied .tx ≤ s.occupied .tx

/-- R72 (a), (b): whatever the application did in between, each store of a receive copy is accepted and
each read of a transmit drain returns a byte, the oldest. -/
def Obligations.CopyAndDrainNeverFallShort : Prop :=
  (∀ (s : State) (p : Packet) (d : Byte) (rest : List Byte), s.Inv →
    s.svc = some (.tickCopy p (d :: rest)) →
    ∃ t, s.advance .servicing = .next t ∧
      t.rx.contents s.par.capacity = s.rx.contents s.par.capacity ++ [d]) ∧
  ∀ (s : State) (n : Nat) (scratch : List Byte), s.Inv →
    s.svc = some (.tickDrain n scratch) →
    ∃ t v, s.advance .servicing = .next t ∧
      s.tx.contents s.par.capacity = v :: t.tx.contents s.par.capacity ∧
      t.svc = some (if n = 1 then .tickEncode (scratch ++ [v])
        else .tickDrain (n - 1) (scratch ++ [v]))
end

