-- ==== Sys2Proof/Laws/Codec.lean ====
section
/-! SUPPORT. The laws of the frame layout and of the codec functions (R81, R131 to R136). -/

namespace Sys2Proof.Machine

theorem hi8_append_lo8 (v : Half) : hi8 v ++ lo8 v = v := by
  apply BitVec.eq_of_toNat_eq
  simp only [hi8, lo8, BitVec.toNat_append, BitVec.extractLsb'_toNat, Nat.shiftRight_zero]
  rw [Nat.shiftLeft_eq, Nat.or_comm, Nat.mul_comm, Nat.or_comm,
    ← Nat.two_pow_add_eq_or_of_lt (Nat.mod_lt _ (by norm_num)), Nat.shiftRight_eq_div_pow]
  have := v.isLt
  omega

/-- A 16-bit field survives the wire in either order (R55). -/
theorem ofWireBytes_wireBytes (o : WireOrder) (v : Half) :
    ofWireBytes o ((wireBytes o v).getD 0 0) ((wireBytes o v).getD 1 0) = v := by
  cases o <;> exact hi8_append_lo8 v

theorem lo8_append (a b : Byte) : lo8 (b ++ a) = a := by
  apply BitVec.eq_of_toNat_eq
  show ((b ++ a : BitVec (8 + 8)).extractLsb' 0 8).toNat = _
  rw [BitVec.extractLsb'_toNat, BitVec.toNat_append, Nat.shiftRight_zero, Nat.shiftLeft_eq,
    Nat.mul_comm, ← Nat.two_pow_add_eq_or_of_lt a.isLt]
  have := a.isLt
  omega

theorem hi8_append (a b : Byte) : hi8 (b ++ a) = b := by
  apply BitVec.eq_of_toNat_eq
  show ((b ++ a : BitVec (8 + 8)).extractLsb' 8 8).toNat = _
  rw [BitVec.extractLsb'_toNat, BitVec.toNat_append, Nat.shiftLeft_eq, Nat.mul_comm,
    ← Nat.two_pow_add_eq_or_of_lt a.isLt, Nat.shiftRight_eq_div_pow]
  have := a.isLt
  have := b.isLt
  omega

/-- Two bytes read as a field in either order are the bytes the field is written as (R55). -/
theorem wireBytes_ofWireBytes (o : WireOrder) (a b : Byte) :
    wireBytes o (ofWireBytes o a b) = [a, b] := by
  cases o <;> simp only [wireBytes, ofWireBytes, lo8_append, hi8_append]

@[simp] theorem length_wireBytes (o : WireOrder) (v : Half) : (wireBytes o v).length = 2 := by
  cases o <;> rfl

/-- A frame has `7 + length` bytes (R81, R82). -/
@[simp] theorem length_serialize (o : WireOrder) (p : Packet) :
    (serialize o p).length = 7 + p.payload.length := by
  simp [serialize]
  omega

theorem Packet.length_toNat {p : Packet} (h : p.payload.length < 256) :
    p.length.toNat = p.payload.length := by
  simp [Packet.length, Nat.mod_eq_of_lt h]

/-- The byte of each field of a frame (R81): the first field. -/
theorem getD_serialize_seq (o : WireOrder) (p : Packet) {k : Nat} (h : k < 2) :
    (serialize o p).getD k 0 = (wireBytes o p.sequenceNumber).getD k 0 := by
  cases o <;> interval_cases k <;> rfl

theorem getD_serialize_length (o : WireOrder) (p : Packet) :
    (serialize o p).getD 2 0 = p.length := by cases o <;> rfl

theorem getD_serialize_streamId (o : WireOrder) (p : Packet) :
    (serialize o p).getD 3 0 = p.streamId := by cases o <;> rfl

theorem getD_serialize_flags (o : WireOrder) (p : Packet) :
    (serialize o p).getD 4 0 = p.flags := by cases o <;> rfl

theorem serialize_eq (o : WireOrder) (p : Packet) :
    serialize o p = (wireBytes o p.sequenceNumber ++ [p.length, p.streamId, p.flags])
      ++ (p.payload ++ wireBytes o p.checksum) := by
  simp [serialize]

theorem getD_serialize_payload (o : WireOrder) (p : Packet) {i : Nat}
    (h : i < p.payload.length) : (serialize o p).getD (5 + i) 0 = p.payload.getD i 0 := by
  rw [serialize_eq, List.getD_append_right _ _ _ _ (by simp)]
  simp only [List.length_append, length_wireBytes, List.length_cons, List.length_nil,
    show 5 + i - (2 + (0 + 1 + 1 + 1)) = i by omega]
  exact List.getD_append _ _ _ _ h

theorem getD_serialize_checksum (o : WireOrder) (p : Packet) (k : Nat) :
    (serialize o p).getD (5 + p.payload.length + k) 0 = (wireBytes o p.checksum).getD k 0 := by
  rw [serialize_eq, List.getD_append_right _ _ _ _ (by simp; omega)]
  simp only [List.length_append, length_wireBytes, List.length_cons, List.length_nil]
  rw [List.getD_append_right _ _ _ _ (by omega)]
  congr 1
  omega

theorem bytesFrom_getD {byte : Nat → Byte} {l : List Byte} {k : Nat}
    (h : ∀ i < l.length, byte (k + i) = l.getD i 0) : bytesFrom byte k l.length = l := by
  apply List.ext_getElem (by simp [bytesFrom])
  intro i h1 h2
  simp only [bytesFrom, List.getElem_map, List.getElem_range]
  rw [h i h2, List.getD_eq_getElem _ _ h2]

/-- Bytes that begin with a packet's frame read back as the packet (R134, R135). -/
theorem packetAt_of_frame {o : WireOrder} {p : Packet} {byte : Nat → Byte}
    (hp : p.payload.length < 256)
    (hb : ∀ k < 7 + p.payload.length, byte k = (serialize o p).getD k 0) :
    packetAt o byte = p := by
  have h2 : (byte 2).toNat = p.payload.length := by
    rw [hb 2 (by omega), getD_serialize_length, Packet.length_toNat hp]
  have h5 : byte (5 + p.payload.length) = (wireBytes o p.checksum).getD 0 0 := by
    rw [hb _ (by omega), ← getD_serialize_checksum, Nat.add_zero]
  have h6 : byte (6 + p.payload.length) = (wireBytes o p.checksum).getD 1 0 := by
    rw [hb _ (by omega), ← getD_serialize_checksum,
      show 5 + p.payload.length + 1 = 6 + p.payload.length by omega]
  have hpay : bytesFrom byte 5 p.payload.length = p.payload :=
    bytesFrom_getD fun i hi => by rw [hb _ (by omega), getD_serialize_payload o p hi]
  unfold packetAt
  simp only [h2, h5, h6, hpay, hb 0 (by omega), hb 1 (by omega), hb 3 (by omega),
    hb 4 (by omega), getD_serialize_streamId, getD_serialize_flags,
    getD_serialize_seq o p (show 0 < 2 by omega), getD_serialize_seq o p (show 1 < 2 by omega),
    ofWireBytes_wireBytes]

/-- All `encode` can do (R132). -/
theorem encodePacket_cases (par : Params) (payload : List Byte) (len : Nat) (seq : Half)
    (sid fl : Byte) :
    (par.maxPayload < len ∧ encodePacket par payload len seq sid fl = none) ∨
      (len ≤ par.maxPayload ∧ ∃ p, encodePacket par payload len seq sid fl = some p ∧
        p.sequenceNumber = seq ∧ p.streamId = sid ∧ p.flags = fl ∧ p.payload = payload.take len ∧
        p.checksum = p.sum) := by
  unfold encodePacket
  by_cases h : len > par.maxPayload
  · exact .inl ⟨h, if_pos h⟩
  · exact .inr ⟨by omega, _, if_neg h, rfl, rfl, rfl, rfl, rfl⟩

/-- All `parse` can do (R135). -/
theorem parse_cases (par : Params) (f : List Byte) :
    ((f.length < 7 ∨ par.maxPayload < (f.getD 2 0).toNat ∨
        frameLengthOk par.frameLenPolicy f.length (f.getD 2 0).toNat = false) ∧
      parse par f = none) ∨
      (7 ≤ f.length ∧ (f.getD 2 0).toNat ≤ par.maxPayload ∧
        frameLengthOk par.frameLenPolicy f.length (f.getD 2 0).toNat = true ∧
        parse par f = some (packetAt par.wireOrder fun k => f.getD k 0)) := by
  simp only [parse]
  split
  · exact .inl ⟨.inl ‹_›, rfl⟩
  · split
    · exact .inl ⟨.inr (.inl ‹_›), rfl⟩
    · split
      · exact .inr ⟨by omega, by omega, ‹_›, rfl⟩
      · exact .inl ⟨.inr (.inr (Bool.eq_false_iff.2 ‹_›)), rfl⟩

/-- All the acceptance test of the tick can do (R154). -/
theorem acceptFrame_eq_some {par : Params} {f : List Byte} {p : Packet} :
    acceptFrame par f = some p ↔ parse par f = some p ∧ validate p = true := by
  unfold acceptFrame
  cases parse par f with
  | none => simp
  | some q =>
    by_cases hv : validate q = true
    · simp only [hv, if_true, Option.some.injEq]
      exact ⟨fun h => ⟨h, h ▸ hv⟩, fun h => h.1⟩
    · simp only [hv]
      constructor
      · intro h; simp at h
      · rintro ⟨h, h'⟩
        rw [Option.some.injEq] at h
        exact absurd (h ▸ h') hv

@[simp] theorem length_packetAt_payload (o : WireOrder) (byte : Nat → Byte) :
    (packetAt o byte).payload.length = (byte 2).toNat := by
  simp [packetAt, bytesFrom]

/-- The packet of an accepted frame has at most `MAXP` bytes (R83, R88). -/
theorem payload_of_parse {par : Params} {f : List Byte} {p : Packet} (h : parse par f = some p) :
    p.payload.length ≤ par.maxPayload := by
  rcases parse_cases par f with ⟨-, h'⟩ | ⟨-, hl, -, h'⟩
  · rw [h'] at h; simp at h
  · rw [h', Option.some.injEq] at h
    rw [← h, length_packetAt_payload]
    exact hl

end Sys2Proof.Machine
end

