-- ==== Sys2Proof/Laws/Memory.lean ====
section
/-! SUPPORT. The laws of a storage array: a read after a write, and the canonical form every write
keeps. -/

namespace Sys2Proof.Machine

/-- Every slot number of `m` is above `i`. -/
abbrev Memory.Above (i : Nat) (m : Memory) : Prop := ∀ c ∈ m, i < c.1

@[simp] theorem Memory.read_nil (i : Nat) : Memory.read [] i = unwrittenByte := rfl

theorem Memory.read_cons (a : Nat) (w : Byte) (m : Memory) (i : Nat) :
    Memory.read ((a, w) :: m) i = if a = i then w else Memory.read m i := rfl

theorem Memory.wf_nil : Memory.wf [] := by simp [Memory.wf]

theorem Memory.wf_cons {a : Nat} {w : Byte} {m : Memory} :
    Memory.wf ((a, w) :: m) ↔ Memory.Above a m ∧ w ≠ unwrittenByte ∧ m.wf := by
  simp only [Memory.wf, List.map_cons, List.pairwise_cons, List.mem_map, List.mem_cons,
    forall_exists_index, and_imp, forall_eq_or_imp, Memory.Above]
  constructor
  · rintro ⟨⟨h1, h2⟩, h3, h4⟩
    exact ⟨fun c hc => h1 c.1 c hc rfl, h3, h2, h4⟩
  · rintro ⟨h1, h3, h2, h4⟩
    exact ⟨⟨fun j c hc e => e ▸ h1 c hc, h2⟩, h3, h4⟩

theorem Memory.read_eq_unwritten_of_above {i : Nat} {m : Memory} (h : m.Above i) :
    Memory.read m i = unwrittenByte := by
  induction m with
  | nil => rfl
  | cons c m ih =>
    obtain ⟨a, w⟩ := c
    have ha : i < a := h (a, w) (by simp)
    rw [Memory.read_cons, if_neg (by omega)]
    exact ih fun x hx => h x (by simp [hx])

theorem Memory.put_above {a i : Nat} {v : Byte} {m : Memory} (hi : a < i) (h : m.Above a) :
    (Memory.put i v m).Above a := by
  unfold Memory.put
  split
  · exact h
  · intro c hc
    rcases List.mem_cons.1 hc with rfl | hc
    · exact hi
    · exact h c hc

theorem Memory.put_wf {i : Nat} {v : Byte} {m : Memory} (hi : m.Above i) (h : m.wf) :
    (Memory.put i v m).wf := by
  unfold Memory.put
  split
  · exact h
  · exact Memory.wf_cons.2 ⟨hi, ‹_›, h⟩

theorem Memory.read_put {i : Nat} {v : Byte} {m : Memory} (hi : m.Above i) (j : Nat) :
    Memory.read (Memory.put i v m) j = if j = i then v else Memory.read m j := by
  unfold Memory.put
  by_cases hv : v = unwrittenByte
  · rw [if_pos hv]
    by_cases hj : j = i
    · rw [if_pos hj, hj, hv, Memory.read_eq_unwritten_of_above hi]
    · rw [if_neg hj]
  · rw [if_neg hv, Memory.read_cons]
    by_cases hj : j = i
    · rw [if_pos hj, if_pos hj.symm]
    · rw [if_neg hj, if_neg (Ne.symm hj)]

/-- Every slot a write leaves listed was listed before or is the one written. -/
theorem Memory.mem_write {m : Memory} {i : Nat} {v : Byte} {c : Host.Cell}
    (h : c ∈ Memory.write m i v) : c = (i, v) ∨ c ∈ m := by
  induction m with
  | nil =>
    simp only [Memory.write, Memory.put] at h
    split at h <;> simp_all
  | cons x m ih =>
    obtain ⟨a, w⟩ := x
    simp only [Memory.write, Memory.put] at h
    split at h
    · split at h <;> simp_all
    · split at h
      · split at h
        · exact .inr (List.mem_cons_of_mem _ h)
        · rcases List.mem_cons.1 h with h | h
          · exact .inl h
          · exact .inr (List.mem_cons_of_mem _ h)
      · rcases List.mem_cons.1 h with h | h
        · exact .inr (h ▸ List.mem_cons_self)
        · exact (ih h).imp_right (List.mem_cons_of_mem _)

theorem Memory.above_trans {a i : Nat} {m : Memory} (ha : i < a) (h : m.Above a) : m.Above i :=
  fun c hc => ha.trans (h c hc)

/-- A write keeps the canonical form. -/
theorem Memory.write_wf {m : Memory} (h : m.wf) (i : Nat) (v : Byte) : (Memory.write m i v).wf := by
  induction m with
  | nil => exact Memory.put_wf (by simp [Memory.Above]) Memory.wf_nil
  | cons x m ih =>
    obtain ⟨a, w⟩ := x
    obtain ⟨h1, h2, h3⟩ := Memory.wf_cons.1 h
    simp only [Memory.write]
    split
    · refine Memory.put_wf (fun c hc => ?_) h
      rcases List.mem_cons.1 hc with rfl | hc
      · assumption
      · exact lt_trans ‹i < a› (h1 c hc)
    · split
      · subst_vars; exact Memory.put_wf h1 h3
      · refine Memory.wf_cons.2 ⟨fun c hc => ?_, h2, ih h3⟩
        rcases Memory.mem_write hc with rfl | hc
        · show a < i; omega
        · exact h1 c hc

/-- A read after a write: the value written in its own slot, the old byte in every other. -/
theorem Memory.read_write {m : Memory} (h : m.wf) (i : Nat) (v : Byte) (j : Nat) :
    Memory.read (Memory.write m i v) j = if j = i then v else Memory.read m j := by
  induction m with
  | nil => exact Memory.read_put (by simp [Memory.Above]) j
  | cons x m ih =>
    obtain ⟨a, w⟩ := x
    obtain ⟨h1, -, h3⟩ := Memory.wf_cons.1 h
    simp only [Memory.write]
    split
    · refine Memory.read_put (fun c hc => ?_) j
      rcases List.mem_cons.1 hc with rfl | hc
      · assumption
      · exact lt_trans ‹i < a› (h1 c hc)
    · split
      · subst_vars
        rw [Memory.read_put h1, Memory.read_cons]
        by_cases hj : j = a
        · simp [hj]
        · rw [if_neg hj, if_neg hj, if_neg (Ne.symm hj)]
      · rw [Memory.read_cons, Memory.read_cons, ih h3]
        by_cases ha : a = j
        · rw [if_pos ha, if_pos ha, if_neg (by omega)]
        · rw [if_neg ha, if_neg ha]

/-- A write at a slot below `c` lists no slot at or above `c`. -/
theorem Memory.write_below {m : Memory} {c i : Nat} (h : ∀ x ∈ m, x.1 < c) (hi : i < c) (v : Byte) :
    ∀ x ∈ Memory.write m i v, x.1 < c := by
  intro x hx
  rcases Memory.mem_write hx with rfl | hx
  · exact hi
  · exact h x hx

/-- Two canonical arrays that read alike everywhere are the same data. -/
theorem Memory.eq_of_read_eq {m n : Memory} (hm : m.wf) (hn : n.wf)
    (h : ∀ i, Memory.read m i = Memory.read n i) : m = n := by
  induction m generalizing n with
  | nil =>
    cases n with
    | nil => rfl
    | cons y n =>
      obtain ⟨b, u⟩ := y
      have := h b
      simp only [Memory.read_nil, Memory.read_cons, if_true] at this
      exact absurd this.symm (Memory.wf_cons.1 hn).2.1
  | cons x m ih =>
    obtain ⟨a, w⟩ := x
    obtain ⟨ha, hw, hm'⟩ := Memory.wf_cons.1 hm
    cases n with
    | nil =>
      have := h a
      simp only [Memory.read_nil, Memory.read_cons, if_true] at this
      exact absurd this hw
    | cons y n =>
      obtain ⟨b, u⟩ := y
      obtain ⟨hb, hu, hn'⟩ := Memory.wf_cons.1 hn
      have hab : a = b := by
        rcases Nat.lt_trichotomy a b with hlt | heq | hgt
        · have := h a
          rw [Memory.read_cons, Memory.read_cons, if_pos rfl, if_neg (by omega),
            Memory.read_eq_unwritten_of_above (Memory.above_trans hlt hb)] at this
          exact absurd this hw
        · exact heq
        · have := h b
          rw [Memory.read_cons, Memory.read_cons, if_pos rfl, if_neg (by omega),
            Memory.read_eq_unwritten_of_above (Memory.above_trans hgt ha)] at this
          exact absurd this.symm hu
      subst hab
      have hwu : w = u := by simpa [Memory.read_cons] using h a
      subst hwu
      have : m = n := by
        refine ih hm' hn' fun i => ?_
        by_cases hi : a = i
        · subst hi
          rw [Memory.read_eq_unwritten_of_above ha, Memory.read_eq_unwritten_of_above hb]
        · simpa [Memory.read_cons, hi] using h i
      rw [this]

end Sys2Proof.Machine
end

