-- ==== Sys2Proof/Laws/Ring.lean ====
section
/-! SUPPORT. The laws of the RingBuffer: occupancy as arithmetic (R23 to R25), what each primitive does
to the indices, the storage and the contents (R26, R111, R113, R115), and what repetition does. -/

namespace Sys2Proof.Machine

/-- One reduction modulo `c` is a compare and a subtraction (R104). -/
theorem mod_eq_wrap {x c : Nat} (h : x < 2 * c) : x % c = if x < c then x else x - c := by
  split
  · exact Nat.mod_eq_of_lt ‹_›
  · rw [Nat.mod_eq_sub_mod (by omega), Nat.mod_eq_of_lt (by omega)]

section Arithmetic

variable {c : Nat} {r : RingBuffer}

theorem RingBuffer.occupied_eq (hh : r.head < c) (ht : r.tail < c) :
    r.occupied c = if r.tail ≤ r.head then r.head - r.tail else c + r.head - r.tail := by
  unfold RingBuffer.occupied
  rw [mod_eq_wrap (by omega)]
  split <;> split <;> omega

theorem RingBuffer.occupied_lt (hh : r.head < c) : r.occupied c < c :=
  Nat.mod_lt _ (by omega)

theorem RingBuffer.occupied_add_freeSlots (hh : r.head < c) :
    r.occupied c + r.freeSlots c = c - 1 := by
  have := r.occupied_lt hh
  unfold RingBuffer.freeSlots Config.usable
  omega

theorem RingBuffer.empty_iff (hh : r.head < c) (ht : r.tail < c) :
    r.empty = true ↔ r.occupied c = 0 := by
  rw [r.occupied_eq hh ht]
  simp only [RingBuffer.empty, beq_iff_eq]
  split <;> omega

theorem RingBuffer.full_iff (hh : r.head < c) (ht : r.tail < c) :
    r.full c = true ↔ r.occupied c = c - 1 := by
  rw [r.occupied_eq hh ht]
  simp only [RingBuffer.full, beq_iff_eq]
  rw [mod_eq_wrap (by omega)]
  split <;> split <;> omega

theorem RingBuffer.full_iff_freeSlots (hh : r.head < c) (ht : r.tail < c) :
    r.full c = true ↔ r.freeSlots c = 0 := by
  have := r.occupied_add_freeSlots hh
  rw [r.full_iff hh ht]
  omega

/-- The slot after the occupied run is the one `head` names. -/
theorem RingBuffer.tail_add_occupied (hh : r.head < c) (ht : r.tail < c) :
    (r.tail + r.occupied c) % c = r.head := by
  rw [r.occupied_eq hh ht, mod_eq_wrap (by split <;> omega)]
  split <;> split <;> omega

/-- No slot of the occupied run is the one `head` names. -/
theorem RingBuffer.run_ne_head (hh : r.head < c) (ht : r.tail < c) {k : Nat}
    (hk : k < r.occupied c) : (r.tail + k) % c ≠ r.head := by
  rw [r.occupied_eq hh ht] at hk
  rw [mod_eq_wrap (by split at hk <;> omega)]
  split at hk <;> split <;> omega

@[simp] theorem RingBuffer.length_contents : (r.contents c).length = r.occupied c := by
  simp [RingBuffer.contents]

end Arithmetic

/-- What an accepted `store` makes of the buffer (R111). -/
def RingBuffer.stored (c : Nat) (b : Byte) (r : RingBuffer) : RingBuffer :=
  { r with buf := Memory.write r.buf r.head b, head := (r.head + 1) % c }

/-- What a `readByte` that returns a byte makes of the buffer (R113). -/
def RingBuffer.consumed (c : Nat) (r : RingBuffer) : RingBuffer :=
  { r with tail := (r.tail + 1) % c }

section Primitives

variable {c : Nat} {r : RingBuffer}

theorem RingBuffer.stored_ok (h : r.Ok c) (b : Byte) : (r.stored c b).Ok c :=
  ⟨Nat.mod_lt _ (by have := h.1; omega), h.2.1, Memory.write_wf h.2.2.1 _ _,
    Memory.write_below h.2.2.2 h.1 b⟩

theorem RingBuffer.consumed_ok (h : r.Ok c) : (r.consumed c).Ok c :=
  ⟨h.1, Nat.mod_lt _ (by have := h.1; omega), h.2.2⟩

theorem RingBuffer.occupied_stored (h : r.Ok c) (hf : r.full c = false) (b : Byte) :
    (r.stored c b).occupied c = r.occupied c + 1 := by
  have hh := h.1
  have ht := h.2.1
  have hf' : ¬ r.occupied c = c - 1 := by rw [← r.full_iff hh ht]; simp [hf]
  have hm : (r.head + 1) % c = _ := mod_eq_wrap (by omega)
  rw [r.occupied_eq hh ht] at hf' ⊢
  rw [(r.stored c b).occupied_eq (Nat.mod_lt _ (by omega)) ht]
  simp only [RingBuffer.stored, hm]
  split at hf' <;> split <;> split at * <;> split at * <;> omega

theorem RingBuffer.occupied_consumed (h : r.Ok c) (he : r.empty = false) :
    (r.consumed c).occupied c + 1 = r.occupied c := by
  have hh := h.1
  have ht := h.2.1
  have he' : ¬ r.occupied c = 0 := by rw [← r.empty_iff hh ht]; simp [he]
  have hm : (r.tail + 1) % c = _ := mod_eq_wrap (by omega)
  rw [r.occupied_eq hh ht] at he' ⊢
  rw [(r.consumed c).occupied_eq hh (Nat.mod_lt _ (by omega))]
  simp only [RingBuffer.consumed, hm]
  split at he' <;> split <;> split at * <;> split at * <;> omega

/-- The byte stored is the newest of the contents (R26, R111). -/
theorem RingBuffer.contents_stored (h : r.Ok c) (hf : r.full c = false) (b : Byte) :
    (r.stored c b).contents c = r.contents c ++ [b] := by
  unfold RingBuffer.contents
  rw [RingBuffer.occupied_stored h hf, List.range_succ, List.map_append, List.map_singleton]
  congr 1
  · refine List.map_congr_left fun k hk => ?_
    show Memory.read (Memory.write r.buf r.head b) ((r.tail + k) % c) = _
    rw [Memory.read_write h.2.2.1, if_neg (r.run_ne_head h.1 h.2.1 (List.mem_range.1 hk))]
  · show [Memory.read (Memory.write r.buf r.head b) ((r.tail + r.occupied c) % c)] = [b]
    rw [Memory.read_write h.2.2.1, r.tail_add_occupied h.1 h.2.1, if_pos rfl]

/-- The byte at `tail` is the oldest of the contents (R26, R113). -/
theorem RingBuffer.contents_consumed (h : r.Ok c) (he : r.empty = false) :
    r.contents c = Memory.read r.buf r.tail :: (r.consumed c).contents c := by
  unfold RingBuffer.contents
  rw [← RingBuffer.occupied_consumed h he, List.range_succ_eq_map, List.map_cons, List.map_map,
    Nat.add_zero, Nat.mod_eq_of_lt h.2.1]
  congr 1
  refine List.map_congr_left fun k _ => ?_
  show Memory.read r.buf ((r.tail + (k + 1)) % c) = Memory.read r.buf (((r.tail + 1) % c + k) % c)
  rw [Nat.mod_add_mod, Nat.add_comm k 1, ← Nat.add_assoc]

/-- All a `store` can do (R111). -/
theorem RingBuffer.store_cases (h : r.Ok c) (b : Byte) :
    (r.full c = true ∧ r.store c b = some r) ∨
      (r.full c = false ∧ r.store c b = some (r.stored c b)) := by
  unfold RingBuffer.store bufWrite
  cases hf : r.full c
  · exact .inr ⟨rfl, by simp [if_pos h.1, RingBuffer.stored]⟩
  · exact .inl ⟨rfl, by simp⟩

/-- All a `readByte` can do (R113). -/
theorem RingBuffer.readByte_cases (h : r.Ok c) :
    (r.empty = true ∧ r.readByte c = some (none, r)) ∨
      (r.empty = false ∧
        r.readByte c = some (some (Memory.read r.buf r.tail), r.consumed c)) := by
  unfold RingBuffer.readByte bufRead
  cases he : r.empty
  · exact .inr ⟨rfl, by simp [if_pos h.2.1, RingBuffer.consumed]⟩
  · exact .inl ⟨rfl, by simp⟩

/-- All a `peek` can do (R115). -/
theorem RingBuffer.peek_cases (h : r.Ok c) :
    (r.empty = true ∧ r.peek c = some none) ∨
      (r.empty = false ∧ r.peek c = some (some (Memory.read r.buf r.tail))) := by
  unfold RingBuffer.peek bufRead
  cases he : r.empty
  · exact .inr ⟨rfl, by simp [if_pos h.2.1]⟩
  · exact .inl ⟨rfl, by simp⟩

theorem RingBuffer.empty_iff_contents (h : r.Ok c) : r.empty = true ↔ r.contents c = [] := by
  rw [r.empty_iff h.1 h.2.1, ← List.length_eq_zero_iff, RingBuffer.length_contents]

end Primitives

/-- All that storing bytes that fit can do: they join the contents in order (R156). -/
theorem RingBuffer.storeAll_fits {c : Nat} {bs : List Byte} {r : RingBuffer} (h : r.Ok c)
    (hn : bs.length ≤ r.freeSlots c) :
    ∃ r', r.storeAll c bs = some r' ∧ r'.Ok c ∧ r'.tail = r.tail ∧
      r'.contents c = r.contents c ++ bs := by
  induction bs generalizing r with
  | nil => exact ⟨r, rfl, h, rfl, by simp⟩
  | cons b bs ih =>
    have hf : r.full c = false := by
      rw [Bool.eq_false_iff, ne_eq, r.full_iff_freeSlots h.1 h.2.1]
      simp only [List.length_cons] at hn
      omega
    have hs : r.store c b = some (r.stored c b) := by
      rcases RingBuffer.store_cases h b with ⟨hf', -⟩ | ⟨-, hs⟩
      · simp [hf] at hf'
      · exact hs
    have hok := RingBuffer.stored_ok h b
    have ho := RingBuffer.occupied_stored h hf b
    obtain ⟨r', h1, h2, h3, h4⟩ := ih hok (by
      have e1 := r.occupied_add_freeSlots h.1
      have e2 := (r.stored c b).occupied_add_freeSlots hok.1
      simp only [List.length_cons] at hn
      omega)
    exact ⟨r', by simp only [RingBuffer.storeAll, hs, h1], h2, h3,
      by rw [h4, RingBuffer.contents_stored h hf]; simp⟩

/-- Storing any bytes keeps a buffer a buffer, and keeps as many as fit, in order (R185). -/
theorem RingBuffer.storeAll_cases {c : Nat} {bs : List Byte} {r : RingBuffer} (h : r.Ok c) :
    ∃ r', r.storeAll c bs = some r' ∧ r'.Ok c ∧ r'.tail = r.tail ∧
      r'.contents c = r.contents c ++ bs.take (r.freeSlots c) := by
  induction bs generalizing r with
  | nil => exact ⟨r, rfl, h, rfl, by simp⟩
  | cons b bs ih =>
    rcases RingBuffer.store_cases h b with ⟨hf, hs⟩ | ⟨hf, hs⟩
    · have h0 := (r.full_iff_freeSlots h.1 h.2.1).1 hf
      obtain ⟨r', h1, h2, h3, h4⟩ := ih h
      exact ⟨r', by simp only [RingBuffer.storeAll, hs, h1], h2, h3, by rw [h4, h0]; simp⟩
    · have hok := RingBuffer.stored_ok h b
      have ho := RingBuffer.occupied_stored h hf b
      have e1 := r.occupied_add_freeSlots h.1
      have e2 := (r.stored c b).occupied_add_freeSlots hok.1
      obtain ⟨r', h1, h2, h3, h4⟩ := ih hok
      refine ⟨r', by simp only [RingBuffer.storeAll, hs, h1], h2, h3, ?_⟩
      rw [h4, RingBuffer.contents_stored h hf,
        show r.freeSlots c = (r.stored c b).freeSlots c + 1 by omega]
      simp

/-- All that draining bytes that are there can do: the oldest leave, in order (R166). -/
theorem RingBuffer.drain_cases {c n : Nat} {r : RingBuffer} (h : r.Ok c) (hn : n ≤ r.occupied c) :
    ∃ r', r.drain c n = some ((r.contents c).take n, r') ∧ r'.Ok c ∧ r'.head = r.head ∧
      r'.buf = r.buf ∧ r'.contents c = (r.contents c).drop n := by
  induction n generalizing r with
  | zero => exact ⟨r, rfl, h, rfl, rfl, rfl⟩
  | succ n ih =>
    have he : r.empty = false := by
      rw [Bool.eq_false_iff, ne_eq, r.empty_iff h.1 h.2.1]; omega
    have hr : r.readByte c = some (some (Memory.read r.buf r.tail), r.consumed c) := by
      rcases RingBuffer.readByte_cases h with ⟨he', -⟩ | ⟨-, hr⟩
      · simp [he] at he'
      · exact hr
    have ho := RingBuffer.occupied_consumed h he
    obtain ⟨r', h1, h2, h3, h4, h5⟩ := ih (RingBuffer.consumed_ok h) (by omega)
    refine ⟨r', ?_, h2, h3, h4, ?_⟩
    · simp only [RingBuffer.drain, hr, h1]
      rw [RingBuffer.contents_consumed h he]
      simp
    · rw [h5, RingBuffer.contents_consumed h he, List.drop_succ_cons]

/-- All that the `flush` loop can do with enough reads: `tail` comes to stand at `head` (R188). -/
theorem RingBuffer.flush_cases {c fuel : Nat} {r : RingBuffer} (h : r.Ok c)
    (hf : r.occupied c < fuel) : r.flush c fuel = some { r with tail := r.head } := by
  induction fuel generalizing r with
  | zero => omega
  | succ fuel ih =>
    rcases RingBuffer.readByte_cases h with ⟨he, hr⟩ | ⟨he, hr⟩
    · have : r.head = r.tail := by simpa [RingBuffer.empty] using he
      simp only [RingBuffer.flush, hr]
      cases r
      simp_all
    · have ho := RingBuffer.occupied_consumed h he
      simp only [RingBuffer.flush, hr]
      rw [ih (RingBuffer.consumed_ok h) (by omega)]
      rfl

end Sys2Proof.Machine
end

