-- ==== Sys2Proof/Laws/State.lean ====
section
/-! SUPPORT. What each update of the state does to each field: one lemma per field per update, so that
no proof unfolds a record update. -/

namespace Sys2Proof.Machine

@[simp] theorem State.emit_par (s : State) (e : Event) : (s.emit e).par = s.par := rfl
@[simp] theorem State.emit_rx (s : State) (e : Event) : (s.emit e).rx = s.rx := rfl
@[simp] theorem State.emit_tx (s : State) (e : Event) : (s.emit e).tx = s.tx := rfl
@[simp] theorem State.emit_seq (s : State) (e : Event) : (s.emit e).seq = s.seq := rfl
@[simp] theorem State.emit_cfg (s : State) (e : Event) : (s.emit e).cfg = s.cfg := rfl
@[simp] theorem State.emit_resetLevel (s : State) (e : Event) :
    (s.emit e).resetLevel = s.resetLevel := rfl
@[simp] theorem State.emit_pinsValid (s : State) (e : Event) :
    (s.emit e).pinsValid = s.pinsValid := rfl
@[simp] theorem State.emit_link (s : State) (e : Event) : (s.emit e).link = s.link := rfl
@[simp] theorem State.emit_trace (s : State) (e : Event) : (s.emit e).trace = s.trace ++ [e] := rfl
@[simp] theorem State.emit_sideIn (s : State) (e : Event) : (s.emit e).sideIn = s.sideIn := rfl
@[simp] theorem State.emit_sideOut (s : State) (e : Event) : (s.emit e).sideOut = s.sideOut := rfl
@[simp] theorem State.emit_rsp (s : State) (e : Event) : (s.emit e).rsp = s.rsp := rfl
@[simp] theorem State.emit_inputs (s : State) (e : Event) : (s.emit e).inputs = s.inputs := rfl
@[simp] theorem State.emit_app (s : State) (e : Event) : (s.emit e).app = s.app := rfl
@[simp] theorem State.emit_svc (s : State) (e : Event) : (s.emit e).svc = s.svc := rfl

@[simp] theorem State.call_par (s : State) (c : LinkCall) : (s.call c).par = s.par := rfl
@[simp] theorem State.call_rx (s : State) (c : LinkCall) : (s.call c).rx = s.rx := rfl
@[simp] theorem State.call_tx (s : State) (c : LinkCall) : (s.call c).tx = s.tx := rfl
@[simp] theorem State.call_seq (s : State) (c : LinkCall) : (s.call c).seq = s.seq := rfl
@[simp] theorem State.call_cfg (s : State) (c : LinkCall) : (s.call c).cfg = s.cfg := rfl
@[simp] theorem State.call_resetLevel (s : State) (c : LinkCall) :
    (s.call c).resetLevel = s.resetLevel := rfl
@[simp] theorem State.call_pinsValid (s : State) (c : LinkCall) :
    (s.call c).pinsValid = s.pinsValid := rfl
@[simp] theorem State.call_link (s : State) (c : LinkCall) : (s.call c).link = s.link := rfl
@[simp] theorem State.call_trace (s : State) (c : LinkCall) :
    (s.call c).trace = s.trace ++ [.link c] := rfl
@[simp] theorem State.call_sideIn (s : State) (c : LinkCall) : (s.call c).sideIn = s.sideIn := rfl
@[simp] theorem State.call_sideOut (s : State) (c : LinkCall) :
    (s.call c).sideOut = s.sideOut := rfl
@[simp] theorem State.call_rsp (s : State) (c : LinkCall) : (s.call c).rsp = s.rsp := rfl
@[simp] theorem State.call_inputs (s : State) (c : LinkCall) : (s.call c).inputs = s.inputs := rfl
@[simp] theorem State.call_app (s : State) (c : LinkCall) : (s.call c).app = s.app := rfl
@[simp] theorem State.call_svc (s : State) (c : LinkCall) : (s.call c).svc = s.svc := rfl

@[simp] theorem State.respond_par (s : State) (w : Half) : (s.respond w).par = s.par := rfl
@[simp] theorem State.respond_rx (s : State) (w : Half) : (s.respond w).rx = s.rx := rfl
@[simp] theorem State.respond_tx (s : State) (w : Half) : (s.respond w).tx = s.tx := rfl
@[simp] theorem State.respond_seq (s : State) (w : Half) : (s.respond w).seq = s.seq := rfl
@[simp] theorem State.respond_cfg (s : State) (w : Half) : (s.respond w).cfg = s.cfg := rfl
@[simp] theorem State.respond_resetLevel (s : State) (w : Half) :
    (s.respond w).resetLevel = s.resetLevel := rfl
@[simp] theorem State.respond_pinsValid (s : State) (w : Half) :
    (s.respond w).pinsValid = s.pinsValid := rfl
@[simp] theorem State.respond_link (s : State) (w : Half) : (s.respond w).link = s.link := rfl
@[simp] theorem State.respond_trace (s : State) (w : Half) : (s.respond w).trace = s.trace := rfl
@[simp] theorem State.respond_sideIn (s : State) (w : Half) : (s.respond w).sideIn = s.sideIn := rfl
@[simp] theorem State.respond_sideOut (s : State) (w : Half) :
    (s.respond w).sideOut = s.sideOut := rfl
@[simp] theorem State.respond_rsp (s : State) (w : Half) : (s.respond w).rsp = w := rfl
@[simp] theorem State.respond_inputs (s : State) (w : Half) : (s.respond w).inputs = s.inputs := rfl
@[simp] theorem State.respond_app (s : State) (w : Half) : (s.respond w).app = s.app := rfl
@[simp] theorem State.respond_svc (s : State) (w : Half) : (s.respond w).svc = s.svc := rfl

@[simp] theorem State.respondWith_par (s : State) (w : Half) (bs : List Byte) :
    (s.respondWith w bs).par = s.par := rfl
@[simp] theorem State.respondWith_rx (s : State) (w : Half) (bs : List Byte) :
    (s.respondWith w bs).rx = s.rx := rfl
@[simp] theorem State.respondWith_tx (s : State) (w : Half) (bs : List Byte) :
    (s.respondWith w bs).tx = s.tx := rfl
@[simp] theorem State.respondWith_seq (s : State) (w : Half) (bs : List Byte) :
    (s.respondWith w bs).seq = s.seq := rfl
@[simp] theorem State.respondWith_cfg (s : State) (w : Half) (bs : List Byte) :
    (s.respondWith w bs).cfg = s.cfg := rfl
@[simp] theorem State.respondWith_resetLevel (s : State) (w : Half) (bs : List Byte) :
    (s.respondWith w bs).resetLevel = s.resetLevel := rfl
@[simp] theorem State.respondWith_pinsValid (s : State) (w : Half) (bs : List Byte) :
    (s.respondWith w bs).pinsValid = s.pinsValid := rfl
@[simp] theorem State.respondWith_link (s : State) (w : Half) (bs : List Byte) :
    (s.respondWith w bs).link = s.link := rfl
@[simp] theorem State.respondWith_trace (s : State) (w : Half) (bs : List Byte) :
    (s.respondWith w bs).trace = s.trace := rfl
@[simp] theorem State.respondWith_sideIn (s : State) (w : Half) (bs : List Byte) :
    (s.respondWith w bs).sideIn = s.sideIn := rfl
@[simp] theorem State.respondWith_sideOut (s : State) (w : Half) (bs : List Byte) :
    (s.respondWith w bs).sideOut = bs := rfl
@[simp] theorem State.respondWith_rsp (s : State) (w : Half) (bs : List Byte) :
    (s.respondWith w bs).rsp = w := rfl
@[simp] theorem State.respondWith_inputs (s : State) (w : Half) (bs : List Byte) :
    (s.respondWith w bs).inputs = s.inputs := rfl
@[simp] theorem State.respondWith_app (s : State) (w : Half) (bs : List Byte) :
    (s.respondWith w bs).app = s.app := rfl
@[simp] theorem State.respondWith_svc (s : State) (w : Half) (bs : List Byte) :
    (s.respondWith w bs).svc = s.svc := rfl

@[simp] theorem State.setCfgMode_par (s : State) (m : Mode) : (s.setCfgMode m).par = s.par := rfl
@[simp] theorem State.setCfgMode_rx (s : State) (m : Mode) : (s.setCfgMode m).rx = s.rx := rfl
@[simp] theorem State.setCfgMode_tx (s : State) (m : Mode) : (s.setCfgMode m).tx = s.tx := rfl
@[simp] theorem State.setCfgMode_seq (s : State) (m : Mode) : (s.setCfgMode m).seq = s.seq := rfl
@[simp] theorem State.setCfgMode_cfg (s : State) (m : Mode) :
    (s.setCfgMode m).cfg = { s.cfg with mode := m } := rfl
@[simp] theorem State.setCfgMode_resetLevel (s : State) (m : Mode) :
    (s.setCfgMode m).resetLevel = s.resetLevel := rfl
@[simp] theorem State.setCfgMode_pinsValid (s : State) (m : Mode) :
    (s.setCfgMode m).pinsValid = s.pinsValid := rfl
@[simp] theorem State.setCfgMode_link (s : State) (m : Mode) : (s.setCfgMode m).link = s.link := rfl
@[simp] theorem State.setCfgMode_trace (s : State) (m : Mode) :
    (s.setCfgMode m).trace = s.trace := rfl
@[simp] theorem State.setCfgMode_sideIn (s : State) (m : Mode) :
    (s.setCfgMode m).sideIn = s.sideIn := rfl
@[simp] theorem State.setCfgMode_sideOut (s : State) (m : Mode) :
    (s.setCfgMode m).sideOut = s.sideOut := rfl
@[simp] theorem State.setCfgMode_rsp (s : State) (m : Mode) : (s.setCfgMode m).rsp = s.rsp := rfl
@[simp] theorem State.setCfgMode_inputs (s : State) (m : Mode) :
    (s.setCfgMode m).inputs = s.inputs := rfl
@[simp] theorem State.setCfgMode_app (s : State) (m : Mode) : (s.setCfgMode m).app = s.app := rfl
@[simp] theorem State.setCfgMode_svc (s : State) (m : Mode) : (s.setCfgMode m).svc = s.svc := rfl

@[simp] theorem State.setCfgBiteRate_par (s : State) (r : BiteRate) :
    (s.setCfgBiteRate r).par = s.par := rfl
@[simp] theorem State.setCfgBiteRate_rx (s : State) (r : BiteRate) :
    (s.setCfgBiteRate r).rx = s.rx := rfl
@[simp] theorem State.setCfgBiteRate_tx (s : State) (r : BiteRate) :
    (s.setCfgBiteRate r).tx = s.tx := rfl
@[simp] theorem State.setCfgBiteRate_seq (s : State) (r : BiteRate) :
    (s.setCfgBiteRate r).seq = s.seq := rfl
@[simp] theorem State.setCfgBiteRate_cfg (s : State) (r : BiteRate) :
    (s.setCfgBiteRate r).cfg = { s.cfg with biteRate := r } := rfl
@[simp] theorem State.setCfgBiteRate_resetLevel (s : State) (r : BiteRate) :
    (s.setCfgBiteRate r).resetLevel = s.resetLevel := rfl
@[simp] theorem State.setCfgBiteRate_pinsValid (s : State) (r : BiteRate) :
    (s.setCfgBiteRate r).pinsValid = s.pinsValid := rfl
@[simp] theorem State.setCfgBiteRate_link (s : State) (r : BiteRate) :
    (s.setCfgBiteRate r).link = s.link := rfl
@[simp] theorem State.setCfgBiteRate_trace (s : State) (r : BiteRate) :
    (s.setCfgBiteRate r).trace = s.trace := rfl
@[simp] theorem State.setCfgBiteRate_sideIn (s : State) (r : BiteRate) :
    (s.setCfgBiteRate r).sideIn = s.sideIn := rfl
@[simp] theorem State.setCfgBiteRate_sideOut (s : State) (r : BiteRate) :
    (s.setCfgBiteRate r).sideOut = s.sideOut := rfl
@[simp] theorem State.setCfgBiteRate_rsp (s : State) (r : BiteRate) :
    (s.setCfgBiteRate r).rsp = s.rsp := rfl
@[simp] theorem State.setCfgBiteRate_inputs (s : State) (r : BiteRate) :
    (s.setCfgBiteRate r).inputs = s.inputs := rfl
@[simp] theorem State.setCfgBiteRate_app (s : State) (r : BiteRate) :
    (s.setCfgBiteRate r).app = s.app := rfl
@[simp] theorem State.setCfgBiteRate_svc (s : State) (r : BiteRate) :
    (s.setCfgBiteRate r).svc = s.svc := rfl

@[simp] theorem State.setCfgPower_par (s : State) (p : Power) : (s.setCfgPower p).par = s.par := rfl
@[simp] theorem State.setCfgPower_rx (s : State) (p : Power) : (s.setCfgPower p).rx = s.rx := rfl
@[simp] theorem State.setCfgPower_tx (s : State) (p : Power) : (s.setCfgPower p).tx = s.tx := rfl
@[simp] theorem State.setCfgPower_seq (s : State) (p : Power) : (s.setCfgPower p).seq = s.seq := rfl
@[simp] theorem State.setCfgPower_cfg (s : State) (p : Power) :
    (s.setCfgPower p).cfg = { s.cfg with power := p } := rfl
@[simp] theorem State.setCfgPower_resetLevel (s : State) (p : Power) :
    (s.setCfgPower p).resetLevel = s.resetLevel := rfl
@[simp] theorem State.setCfgPower_pinsValid (s : State) (p : Power) :
    (s.setCfgPower p).pinsValid = s.pinsValid := rfl
@[simp] theorem State.setCfgPower_link (s : State) (p : Power) :
    (s.setCfgPower p).link = s.link := rfl
@[simp] theorem State.setCfgPower_trace (s : State) (p : Power) :
    (s.setCfgPower p).trace = s.trace := rfl
@[simp] theorem State.setCfgPower_sideIn (s : State) (p : Power) :
    (s.setCfgPower p).sideIn = s.sideIn := rfl
@[simp] theorem State.setCfgPower_sideOut (s : State) (p : Power) :
    (s.setCfgPower p).sideOut = s.sideOut := rfl
@[simp] theorem State.setCfgPower_rsp (s : State) (p : Power) : (s.setCfgPower p).rsp = s.rsp := rfl
@[simp] theorem State.setCfgPower_inputs (s : State) (p : Power) :
    (s.setCfgPower p).inputs = s.inputs := rfl
@[simp] theorem State.setCfgPower_app (s : State) (p : Power) : (s.setCfgPower p).app = s.app := rfl
@[simp] theorem State.setCfgPower_svc (s : State) (p : Power) : (s.setCfgPower p).svc = s.svc := rfl

@[simp] theorem State.setCfgChannel_par (s : State) (c : Channel) :
    (s.setCfgChannel c).par = s.par := rfl
@[simp] theorem State.setCfgChannel_rx (s : State) (c : Channel) :
    (s.setCfgChannel c).rx = s.rx := rfl
@[simp] theorem State.setCfgChannel_tx (s : State) (c : Channel) :
    (s.setCfgChannel c).tx = s.tx := rfl
@[simp] theorem State.setCfgChannel_seq (s : State) (c : Channel) :
    (s.setCfgChannel c).seq = s.seq := rfl
@[simp] theorem State.setCfgChannel_cfg (s : State) (c : Channel) :
    (s.setCfgChannel c).cfg = { s.cfg with channel := c } := rfl
@[simp] theorem State.setCfgChannel_resetLevel (s : State) (c : Channel) :
    (s.setCfgChannel c).resetLevel = s.resetLevel := rfl
@[simp] theorem State.setCfgChannel_pinsValid (s : State) (c : Channel) :
    (s.setCfgChannel c).pinsValid = s.pinsValid := rfl
@[simp] theorem State.setCfgChannel_link (s : State) (c : Channel) :
    (s.setCfgChannel c).link = s.link := rfl
@[simp] theorem State.setCfgChannel_trace (s : State) (c : Channel) :
    (s.setCfgChannel c).trace = s.trace := rfl
@[simp] theorem State.setCfgChannel_sideIn (s : State) (c : Channel) :
    (s.setCfgChannel c).sideIn = s.sideIn := rfl
@[simp] theorem State.setCfgChannel_sideOut (s : State) (c : Channel) :
    (s.setCfgChannel c).sideOut = s.sideOut := rfl
@[simp] theorem State.setCfgChannel_rsp (s : State) (c : Channel) :
    (s.setCfgChannel c).rsp = s.rsp := rfl
@[simp] theorem State.setCfgChannel_inputs (s : State) (c : Channel) :
    (s.setCfgChannel c).inputs = s.inputs := rfl
@[simp] theorem State.setCfgChannel_app (s : State) (c : Channel) :
    (s.setCfgChannel c).app = s.app := rfl
@[simp] theorem State.setCfgChannel_svc (s : State) (c : Channel) :
    (s.setCfgChannel c).svc = s.svc := rfl

@[simp] theorem State.setCfgDefaults_par (s : State) : (s.setCfgDefaults).par = s.par := rfl
@[simp] theorem State.setCfgDefaults_rx (s : State) : (s.setCfgDefaults).rx = s.rx := rfl
@[simp] theorem State.setCfgDefaults_tx (s : State) : (s.setCfgDefaults).tx = s.tx := rfl
@[simp] theorem State.setCfgDefaults_seq (s : State) : (s.setCfgDefaults).seq = s.seq := rfl
@[simp] theorem State.setCfgDefaults_cfg (s : State) : (s.setCfgDefaults).cfg = cfgDefaults := rfl
@[simp] theorem State.setCfgDefaults_resetLevel (s : State) :
    (s.setCfgDefaults).resetLevel = s.resetLevel := rfl
@[simp] theorem State.setCfgDefaults_pinsValid (s : State) :
    (s.setCfgDefaults).pinsValid = s.pinsValid := rfl
@[simp] theorem State.setCfgDefaults_link (s : State) : (s.setCfgDefaults).link = s.link := rfl
@[simp] theorem State.setCfgDefaults_trace (s : State) : (s.setCfgDefaults).trace = s.trace := rfl
@[simp] theorem State.setCfgDefaults_sideIn (s : State) :
    (s.setCfgDefaults).sideIn = s.sideIn := rfl
@[simp] theorem State.setCfgDefaults_sideOut (s : State) :
    (s.setCfgDefaults).sideOut = s.sideOut := rfl
@[simp] theorem State.setCfgDefaults_rsp (s : State) : (s.setCfgDefaults).rsp = s.rsp := rfl
@[simp] theorem State.setCfgDefaults_inputs (s : State) :
    (s.setCfgDefaults).inputs = s.inputs := rfl
@[simp] theorem State.setCfgDefaults_app (s : State) : (s.setCfgDefaults).app = s.app := rfl
@[simp] theorem State.setCfgDefaults_svc (s : State) : (s.setCfgDefaults).svc = s.svc := rfl

@[simp] theorem State.advanceSeq_par (s : State) : (s.advanceSeq).par = s.par := rfl
@[simp] theorem State.advanceSeq_rx (s : State) : (s.advanceSeq).rx = s.rx := rfl
@[simp] theorem State.advanceSeq_tx (s : State) : (s.advanceSeq).tx = s.tx := rfl
@[simp] theorem State.advanceSeq_seq (s : State) : (s.advanceSeq).seq = s.seq + 1 := rfl
@[simp] theorem State.advanceSeq_cfg (s : State) : (s.advanceSeq).cfg = s.cfg := rfl
@[simp] theorem State.advanceSeq_resetLevel (s : State) :
    (s.advanceSeq).resetLevel = s.resetLevel := rfl
@[simp] theorem State.advanceSeq_pinsValid (s : State) :
    (s.advanceSeq).pinsValid = s.pinsValid := rfl
@[simp] theorem State.advanceSeq_link (s : State) : (s.advanceSeq).link = s.link := rfl
@[simp] theorem State.advanceSeq_trace (s : State) : (s.advanceSeq).trace = s.trace := rfl
@[simp] theorem State.advanceSeq_sideIn (s : State) : (s.advanceSeq).sideIn = s.sideIn := rfl
@[simp] theorem State.advanceSeq_sideOut (s : State) : (s.advanceSeq).sideOut = s.sideOut := rfl
@[simp] theorem State.advanceSeq_rsp (s : State) : (s.advanceSeq).rsp = s.rsp := rfl
@[simp] theorem State.advanceSeq_inputs (s : State) : (s.advanceSeq).inputs = s.inputs := rfl
@[simp] theorem State.advanceSeq_app (s : State) : (s.advanceSeq).app = s.app := rfl
@[simp] theorem State.advanceSeq_svc (s : State) : (s.advanceSeq).svc = s.svc := rfl

@[simp] theorem State.applyRf_par (s : State) : (s.applyRf).par = s.par := rfl
@[simp] theorem State.applyRf_rx (s : State) : (s.applyRf).rx = s.rx := rfl
@[simp] theorem State.applyRf_tx (s : State) : (s.applyRf).tx = s.tx := rfl
@[simp] theorem State.applyRf_seq (s : State) : (s.applyRf).seq = s.seq := rfl
@[simp] theorem State.applyRf_cfg (s : State) : (s.applyRf).cfg = s.cfg := rfl
@[simp] theorem State.applyRf_resetLevel (s : State) : (s.applyRf).resetLevel = s.resetLevel := rfl
@[simp] theorem State.applyRf_pinsValid (s : State) : (s.applyRf).pinsValid = s.pinsValid := rfl
@[simp] theorem State.applyRf_link (s : State) : (s.applyRf).link = s.link := rfl
@[simp] theorem State.applyRf_trace (s : State) :
    (s.applyRf).trace = s.trace ++ [.link (.setDataRateAndPower s.cfg.biteRate s.cfg.power)] := rfl
@[simp] theorem State.applyRf_sideIn (s : State) : (s.applyRf).sideIn = s.sideIn := rfl
@[simp] theorem State.applyRf_sideOut (s : State) : (s.applyRf).sideOut = s.sideOut := rfl
@[simp] theorem State.applyRf_rsp (s : State) : (s.applyRf).rsp = s.rsp := rfl
@[simp] theorem State.applyRf_inputs (s : State) : (s.applyRf).inputs = s.inputs := rfl
@[simp] theorem State.applyRf_app (s : State) : (s.applyRf).app = s.app := rfl
@[simp] theorem State.applyRf_svc (s : State) : (s.applyRf).svc = s.svc := rfl

@[simp] theorem State.applyChannel_par (s : State) : (s.applyChannel).par = s.par := rfl
@[simp] theorem State.applyChannel_rx (s : State) : (s.applyChannel).rx = s.rx := rfl
@[simp] theorem State.applyChannel_tx (s : State) : (s.applyChannel).tx = s.tx := rfl
@[simp] theorem State.applyChannel_seq (s : State) : (s.applyChannel).seq = s.seq := rfl
@[simp] theorem State.applyChannel_cfg (s : State) : (s.applyChannel).cfg = s.cfg := rfl
@[simp] theorem State.applyChannel_resetLevel (s : State) :
    (s.applyChannel).resetLevel = s.resetLevel := rfl
@[simp] theorem State.applyChannel_pinsValid (s : State) :
    (s.applyChannel).pinsValid = s.pinsValid := rfl
@[simp] theorem State.applyChannel_link (s : State) : (s.applyChannel).link = s.link := rfl
@[simp] theorem State.applyChannel_trace (s : State) :
    (s.applyChannel).trace = s.trace ++ [.link (.setChannel (transceiverChannel s.cfg.channel))] := rfl
@[simp] theorem State.applyChannel_sideIn (s : State) : (s.applyChannel).sideIn = s.sideIn := rfl
@[simp] theorem State.applyChannel_sideOut (s : State) : (s.applyChannel).sideOut = s.sideOut := rfl
@[simp] theorem State.applyChannel_rsp (s : State) : (s.applyChannel).rsp = s.rsp := rfl
@[simp] theorem State.applyChannel_inputs (s : State) : (s.applyChannel).inputs = s.inputs := rfl
@[simp] theorem State.applyChannel_app (s : State) : (s.applyChannel).app = s.app := rfl
@[simp] theorem State.applyChannel_svc (s : State) : (s.applyChannel).svc = s.svc := rfl

@[simp] theorem State.sendPacket_par (s : State) (q : Packet) : (s.sendPacket q).par = s.par := rfl
@[simp] theorem State.sendPacket_rx (s : State) (q : Packet) : (s.sendPacket q).rx = s.rx := rfl
@[simp] theorem State.sendPacket_tx (s : State) (q : Packet) : (s.sendPacket q).tx = s.tx := rfl
@[simp] theorem State.sendPacket_seq (s : State) (q : Packet) : (s.sendPacket q).seq = s.seq := rfl
@[simp] theorem State.sendPacket_cfg (s : State) (q : Packet) : (s.sendPacket q).cfg = s.cfg := rfl
@[simp] theorem State.sendPacket_resetLevel (s : State) (q : Packet) :
    (s.sendPacket q).resetLevel = s.resetLevel := rfl
@[simp] theorem State.sendPacket_pinsValid (s : State) (q : Packet) :
    (s.sendPacket q).pinsValid = s.pinsValid := rfl
@[simp] theorem State.sendPacket_link (s : State) (q : Packet) :
    (s.sendPacket q).link = s.link := rfl
@[simp] theorem State.sendPacket_trace (s : State) (q : Packet) :
    (s.sendPacket q).trace = s.trace ++ [.link (.send (serialize s.par.wireOrder q) (7 + q.length.toNat))] := rfl
@[simp] theorem State.sendPacket_sideIn (s : State) (q : Packet) :
    (s.sendPacket q).sideIn = s.sideIn := rfl
@[simp] theorem State.sendPacket_sideOut (s : State) (q : Packet) :
    (s.sendPacket q).sideOut = s.sideOut := rfl
@[simp] theorem State.sendPacket_rsp (s : State) (q : Packet) : (s.sendPacket q).rsp = s.rsp := rfl
@[simp] theorem State.sendPacket_inputs (s : State) (q : Packet) :
    (s.sendPacket q).inputs = s.inputs := rfl
@[simp] theorem State.sendPacket_app (s : State) (q : Packet) : (s.sendPacket q).app = s.app := rfl
@[simp] theorem State.sendPacket_svc (s : State) (q : Packet) : (s.sendPacket q).svc = s.svc := rfl

@[simp] theorem State.setRing_par (s : State) (b : Buf) (r : RingBuffer) :
    (s.setRing b r).par = s.par := by cases b <;> rfl
@[simp] theorem State.setRing_seq (s : State) (b : Buf) (r : RingBuffer) :
    (s.setRing b r).seq = s.seq := by cases b <;> rfl
@[simp] theorem State.setRing_cfg (s : State) (b : Buf) (r : RingBuffer) :
    (s.setRing b r).cfg = s.cfg := by cases b <;> rfl
@[simp] theorem State.setRing_resetLevel (s : State) (b : Buf) (r : RingBuffer) :
    (s.setRing b r).resetLevel = s.resetLevel := by cases b <;> rfl
@[simp] theorem State.setRing_pinsValid (s : State) (b : Buf) (r : RingBuffer) :
    (s.setRing b r).pinsValid = s.pinsValid := by cases b <;> rfl
@[simp] theorem State.setRing_link (s : State) (b : Buf) (r : RingBuffer) :
    (s.setRing b r).link = s.link := by cases b <;> rfl
@[simp] theorem State.setRing_trace (s : State) (b : Buf) (r : RingBuffer) :
    (s.setRing b r).trace = s.trace := by cases b <;> rfl
@[simp] theorem State.setRing_sideIn (s : State) (b : Buf) (r : RingBuffer) :
    (s.setRing b r).sideIn = s.sideIn := by cases b <;> rfl
@[simp] theorem State.setRing_sideOut (s : State) (b : Buf) (r : RingBuffer) :
    (s.setRing b r).sideOut = s.sideOut := by cases b <;> rfl
@[simp] theorem State.setRing_rsp (s : State) (b : Buf) (r : RingBuffer) :
    (s.setRing b r).rsp = s.rsp := by cases b <;> rfl
@[simp] theorem State.setRing_inputs (s : State) (b : Buf) (r : RingBuffer) :
    (s.setRing b r).inputs = s.inputs := by cases b <;> rfl
@[simp] theorem State.setRing_app (s : State) (b : Buf) (r : RingBuffer) :
    (s.setRing b r).app = s.app := by cases b <;> rfl
@[simp] theorem State.setRing_svc (s : State) (b : Buf) (r : RingBuffer) :
    (s.setRing b r).svc = s.svc := by cases b <;> rfl
@[simp] theorem State.setRing_rx_rx (s : State) (r : RingBuffer) : (s.setRing .rx r).rx = r := rfl
@[simp] theorem State.setRing_rx_tx (s : State) (r : RingBuffer) : (s.setRing .rx r).tx = s.tx := rfl
@[simp] theorem State.setRing_tx_rx (s : State) (r : RingBuffer) : (s.setRing .tx r).rx = s.rx := rfl
@[simp] theorem State.setRing_tx_tx (s : State) (r : RingBuffer) : (s.setRing .tx r).tx = r := rfl
@[simp] theorem State.setRing_ring (s : State) (b : Buf) (r : RingBuffer) :
    (s.setRing b r).ring b = r := by cases b <;> rfl
@[simp] theorem State.setRing_self (s : State) (b : Buf) : s.setRing b (s.ring b) = s := by
  cases b <;> rfl
@[simp] theorem State.ring_rx (s : State) : s.ring .rx = s.rx := rfl
@[simp] theorem State.ring_tx (s : State) : s.ring .tx = s.tx := rfl

@[simp] theorem State.setRunning_par (s : State) (r : Role) (a : Option Activity) :
    (s.setRunning r a).par = s.par := by cases r <;> rfl
@[simp] theorem State.setRunning_rx (s : State) (r : Role) (a : Option Activity) :
    (s.setRunning r a).rx = s.rx := by cases r <;> rfl
@[simp] theorem State.setRunning_tx (s : State) (r : Role) (a : Option Activity) :
    (s.setRunning r a).tx = s.tx := by cases r <;> rfl
@[simp] theorem State.setRunning_seq (s : State) (r : Role) (a : Option Activity) :
    (s.setRunning r a).seq = s.seq := by cases r <;> rfl
@[simp] theorem State.setRunning_cfg (s : State) (r : Role) (a : Option Activity) :
    (s.setRunning r a).cfg = s.cfg := by cases r <;> rfl
@[simp] theorem State.setRunning_resetLevel (s : State) (r : Role) (a : Option Activity) :
    (s.setRunning r a).resetLevel = s.resetLevel := by cases r <;> rfl
@[simp] theorem State.setRunning_pinsValid (s : State) (r : Role) (a : Option Activity) :
    (s.setRunning r a).pinsValid = s.pinsValid := by cases r <;> rfl
@[simp] theorem State.setRunning_link (s : State) (r : Role) (a : Option Activity) :
    (s.setRunning r a).link = s.link := by cases r <;> rfl
@[simp] theorem State.setRunning_trace (s : State) (r : Role) (a : Option Activity) :
    (s.setRunning r a).trace = s.trace := by cases r <;> rfl
@[simp] theorem State.setRunning_sideIn (s : State) (r : Role) (a : Option Activity) :
    (s.setRunning r a).sideIn = s.sideIn := by cases r <;> rfl
@[simp] theorem State.setRunning_sideOut (s : State) (r : Role) (a : Option Activity) :
    (s.setRunning r a).sideOut = s.sideOut := by cases r <;> rfl
@[simp] theorem State.setRunning_rsp (s : State) (r : Role) (a : Option Activity) :
    (s.setRunning r a).rsp = s.rsp := by cases r <;> rfl
@[simp] theorem State.setRunning_inputs (s : State) (r : Role) (a : Option Activity) :
    (s.setRunning r a).inputs = s.inputs := by cases r <;> rfl
@[simp] theorem State.setRunning_application_app (s : State) (a : Option Activity) :
    (s.setRunning .application a).app = a := rfl
@[simp] theorem State.setRunning_application_svc (s : State) (a : Option Activity) :
    (s.setRunning .application a).svc = s.svc := rfl
@[simp] theorem State.setRunning_servicing_app (s : State) (a : Option Activity) :
    (s.setRunning .servicing a).app = s.app := rfl
@[simp] theorem State.setRunning_servicing_svc (s : State) (a : Option Activity) :
    (s.setRunning .servicing a).svc = a := rfl
@[simp] theorem State.running_setRunning (s : State) (r : Role) (a : Option Activity) :
    (s.setRunning r a).running r = a := by cases r <;> rfl
@[simp] theorem State.running_application (s : State) : s.running .application = s.app := rfl
@[simp] theorem State.running_servicing (s : State) : s.running .servicing = s.svc := rfl

end Sys2Proof.Machine
end

