-- ==== Sys2Proof/Laws/Dual.lean ====
section
/-! SUPPORT. What one atomic step of an operation in progress can change (R40, R61), and the index
registers at their width (R21). -/

namespace Sys2Proof.Machine

/-- `IDXW` bits hold every slot number (R11, R21). -/
theorem le_two_pow_indexWidth (c : Nat) : c ≤ 2 ^ Config.indexWidth c := by
  have := Nat.lt_log2_self (n := c - 1)
  unfold Config.indexWidth
  omega

/-- The register `head` holds the index whole (R21). -/
theorem RingBuffer.toNat_headRegister {c : Nat} {r : RingBuffer} (h : r.Ok c) :
    (r.headRegister c).toNat = r.head := by
  have := le_two_pow_indexWidth c
  have := h.1
  simp only [RingBuffer.headRegister, BitVec.toNat_ofNat]
  exact Nat.mod_eq_of_lt (by omega)

/-- The register `tail` holds the index whole (R21). -/
theorem RingBuffer.toNat_tailRegister {c : Nat} {r : RingBuffer} (h : r.Ok c) :
    (r.tailRegister c).toNat = r.tail := by
  have := le_two_pow_indexWidth c
  have := h.2.1
  simp only [RingBuffer.tailRegister, BitVec.toNat_ofNat]
  exact Nat.mod_eq_of_lt (by omega)

theorem observeAck_frame (s : State) (p : Packet) :
    s.observeAck p = { s with trace := (s.observeAck p).trace } := by
  unfold State.observeAck
  split <;> rfl

theorem store_frame {s t : State} {b : Buf} {v : Byte} (h : s.store b v = some t) :
    t = s.setRing b (t.ring b) := by
  simp only [State.store, Option.map_eq_some_iff] at h
  obtain ⟨r, -, rfl⟩ := h
  cases b <;> rfl

theorem readByte_frame {s : State} {b : Buf} {q : Option Byte × State}
    (h : s.readByte b = some q) : q.2 = s.setRing b (q.2.ring b) := by
  simp only [State.readByte, Option.map_eq_some_iff] at h
  obtain ⟨r, -, rfl⟩ := h
  cases b <;> rfl

/-- All an atomic step can change: a buffer, `SEQ` at its own step and by one, `CFG` at its own steps,
and the trace. -/
theorem microStep_frame {s t : State} {a : Activity} {x : After}
    (h : microStep s a = some (t, x)) :
    t = { s with rx := t.rx, tx := t.tx, seq := t.seq, cfg := t.cfg, trace := t.trace } ∧
      (t.seq = s.seq ∨ (∃ q, a = .tickSeq q) ∧ t.seq = s.seq + 1) ∧
      (t.cfg = s.cfg ∨
        (∃ r, a = .cfgBiteRate r ∧ t.cfg = { s.cfg with biteRate := r }) ∨
        (∃ p, a = .cfgPower p ∧ t.cfg = { s.cfg with power := p }) ∨
        (∃ c, a = .cfgChannel c ∧ t.cfg = { s.cfg with channel := c }) ∨
        (a = .initDefaults ∧ t.cfg = cfgDefaults)) := by
  cases a with
  | tickValidate p =>
    simp only [microStep] at h
    split at h <;> cases h
    · rw [observeAck_frame]
      exact ⟨rfl, .inl rfl, .inl rfl⟩
    · exact ⟨rfl, .inl rfl, .inl rfl⟩
  | tickCopy p rest =>
    cases rest with
    | nil =>
      cases h
      exact ⟨rfl, .inl rfl, .inl rfl⟩
    | cons b bs =>
      simp only [microStep, Option.map_eq_some_iff] at h
      obtain ⟨u, hu, h⟩ := h
      cases h
      rw [store_frame hu]
      exact ⟨rfl, .inl rfl, .inl rfl⟩
  | tickDrain n scratch =>
    simp only [microStep, Option.map_eq_some_iff] at h
    obtain ⟨q, hq, h⟩ := h
    cases h
    rw [readByte_frame hq]
    exact ⟨rfl, .inl rfl, .inl rfl⟩
  | flushRead =>
    simp only [microStep, Option.map_eq_some_iff] at h
    obtain ⟨q, hq, h⟩ := h
    cases h
    rw [readByte_frame hq]
    exact ⟨rfl, .inl rfl, .inl rfl⟩
  | initLink =>
    simp only [microStep] at h
    split at h <;> cases h <;> exact ⟨rfl, .inl rfl, .inl rfl⟩
  | tickSeq q =>
    cases h
    exact ⟨rfl, .inr ⟨⟨q, rfl⟩, rfl⟩, .inl rfl⟩
  | cfgBiteRate r =>
    cases h
    exact ⟨rfl, .inl rfl, .inr (.inl ⟨r, rfl, rfl⟩)⟩
  | cfgPower p =>
    cases h
    exact ⟨rfl, .inl rfl, .inr (.inr (.inl ⟨p, rfl, rfl⟩))⟩
  | cfgChannel c =>
    cases h
    exact ⟨rfl, .inl rfl, .inr (.inr (.inr (.inl ⟨c, rfl, rfl⟩)))⟩
  | initDefaults =>
    cases h
    exact ⟨rfl, .inl rfl, .inr (.inr (.inr (.inr ⟨rfl, rfl⟩)))⟩
  | _ =>
    cases h
    exact ⟨rfl, .inl rfl, .inl rfl⟩

/-- What follows an atomic step is the context's own next step or its response. -/
theorem State.resume_frame (s : State) (r : Role) (x : After) :
    s.resume r x = { s with
      app := (s.resume r x).app, svc := (s.resume r x).svc, rsp := (s.resume r x).rsp } := by
  cases r <;> cases x <;> rfl

end Sys2Proof.Machine
end

