-- ==== Sys2Proof/Laws/Encoding.lean ====
section
/-! SUPPORT. The fields of a command word (R91): what `commandWord` puts together, the field functions
take apart, and the other way round. -/

namespace Sys2Proof

theorem toNat_commandWord (u o : BitVec 4) (d : Byte) :
    (commandWord u o d).toNat = u.toNat * 4096 + o.toNat * 256 + d.toNat := by
  show ((u ++ o : BitVec 8) ++ d : BitVec (8 + 8)).toNat = _
  rw [BitVec.toNat_append, BitVec.toNat_append, Nat.shiftLeft_eq, Nat.shiftLeft_eq, Nat.mul_comm u.toNat,
    ← Nat.two_pow_add_eq_or_of_lt o.isLt, Nat.mul_comm _ (2 ^ 8), ← Nat.two_pow_add_eq_or_of_lt d.isLt]
  omega

theorem toNat_unitField (w : Half) : (unitField w).toNat = w.toNat / 4096 := by
  have := w.isLt
  simp only [unitField, BitVec.extractLsb'_toNat, Nat.shiftRight_eq_div_pow]
  omega

theorem toNat_opField (w : Half) : (opField w).toNat = w.toNat / 256 % 16 := by
  simp only [opField, BitVec.extractLsb'_toNat, Nat.shiftRight_eq_div_pow]

theorem toNat_operandField (w : Half) : (operandField w).toNat = w.toNat % 256 := by
  simp [operandField]

@[simp] theorem unitField_commandWord (u o : BitVec 4) (d : Byte) :
    unitField (commandWord u o d) = u := by
  apply BitVec.eq_of_toNat_eq
  have := o.isLt
  have := d.isLt
  rw [toNat_unitField, toNat_commandWord]
  omega

@[simp] theorem opField_commandWord (u o : BitVec 4) (d : Byte) :
    opField (commandWord u o d) = o := by
  apply BitVec.eq_of_toNat_eq
  have := o.isLt
  have := d.isLt
  rw [toNat_opField, toNat_commandWord]
  omega

@[simp] theorem operandField_commandWord (u o : BitVec 4) (d : Byte) :
    operandField (commandWord u o d) = d := by
  apply BitVec.eq_of_toNat_eq
  have := d.isLt
  rw [toNat_operandField, toNat_commandWord]
  omega

/-- A command word is its three fields (R91). -/
theorem commandWord_fields (w : Half) :
    commandWord (unitField w) (opField w) (operandField w) = w := by
  apply BitVec.eq_of_toNat_eq
  rw [toNat_commandWord, toNat_unitField, toNat_opField, toNat_operandField]
  omega

end Sys2Proof
end

