-- ==== Sys2Proof/Laws/PerInstr.lean ====
section
/-! SUPPORT. A statement made of every operation, one lemma per constructor: its command word is well
formed by the opcode map's own masks and constraint (R92, R95), written apart from the encoder. -/

namespace Sys2Proof.Laws.WordIsWellFormed

/-- The command word of `i` matches a row of the opcode map and is not reserved. -/
def Statement (i : Instr) : Prop := wellFormedWord (encode i) = true

theorem rbStore (b : Buf) (d : Byte) : Statement (.rbStore b d) := by
  revert d
  cases b <;> unfold Statement <;> decide

theorem rbReadByte (b : Buf) : Statement (.rbReadByte b) := by cases b <;> rfl

theorem rbPeek (b : Buf) : Statement (.rbPeek b) := by cases b <;> rfl

theorem rbOccupied (b : Buf) : Statement (.rbOccupied b) := by cases b <;> rfl

theorem rbFreeSlots (b : Buf) : Statement (.rbFreeSlots b) := by cases b <;> rfl

theorem pcChecksum : Statement .pcChecksum := rfl

theorem pcEncode : Statement .pcEncode := rfl

theorem pcSerialize : Statement .pcSerialize := rfl

theorem pcParse : Statement .pcParse := rfl

theorem pcValidate : Statement .pcValidate := rfl

theorem available : Statement .available := rfl

theorem read : Statement .read := rfl

theorem peek : Statement .peek := rfl

theorem write (d : Byte) : Statement (.write d) := by
  revert d
  unfold Statement
  decide

theorem availableForWrite : Statement .availableForWrite := rfl

theorem flush : Statement .flush := rfl

theorem tick : Statement .tick := rfl

theorem setMode (m : Mode) : Statement (.setMode m) := by cases m <;> rfl

theorem setBiteRate (r : BiteRate) : Statement (.setBiteRate r) := by cases r <;> rfl

theorem setPower (p : Power) : Statement (.setPower p) := by cases p <;> rfl

theorem setChannel (c : Channel) : Statement (.setChannel c) := by cases c <;> rfl

theorem init : Statement .init := rfl

end Sys2Proof.Laws.WordIsWellFormed
end

