-- ==== Sys2Proof/Laws/Step.lean ====
section
/-! SUPPORT. Inversion of the operation port: what a step that answers a next state did, said once
(R43 to R45, R60, R61), and the equations of `composite`, `advance` and `issue`. -/

namespace Sys2Proof.Machine

@[simp] theorem slotOutcome_eq_next {o : Option State} {t : State} :
    slotOutcome o = .next t ↔ o = some t := by
  cases o <;> simp [slotOutcome]

@[simp] theorem slotOutcome_some (s : State) : slotOutcome (some s) = .next s := rfl

theorem State.composite_single {s : State} (h : s.par.contexts = .single) (r : Role) (a : Activity)
    (o : Option State) : s.composite r a o = slotOutcome o := by
  simp [State.composite, h]

theorem State.composite_dual {s : State} (h : s.par.contexts = .dual) (r : Role) (a : Activity)
    (o : Option State) : s.composite r a o = .next (s.setRunning r (some a)) := by
  simp [State.composite, h]

/-- All a composite operation can do when it answers a next state (R61). -/
theorem State.composite_cases {s t : State} {r : Role} {a : Activity} {o : Option State}
    (h : s.composite r a o = .next t) :
    (s.par.contexts = .single ∧ o = some t) ∨
      (s.par.contexts = .dual ∧ t = s.setRunning r (some a)) := by
  cases hc : s.par.contexts with
  | single => exact .inl ⟨rfl, by simpa [State.composite_single hc] using h⟩
  | dual => exact .inr ⟨rfl, by simpa [State.composite_dual hc, eq_comm] using h⟩

theorem State.advance_none {s : State} {r : Role} (h : s.running r = none) :
    s.advance r = .next s := by
  simp [State.advance, h]

theorem State.advance_some {s : State} {r : Role} {a : Activity} (h : s.running r = some a) :
    s.advance r = slotOutcome ((microStep s a).map fun q => q.1.resume r q.2) := by
  simp [State.advance, h]

/-- All an `advance` can do when it answers a next state (R61). -/
theorem State.advance_cases {s t : State} {r : Role} (h : s.advance r = .next t) :
    (s.running r = none ∧ t = s) ∨
      ∃ a u x, s.running r = some a ∧ microStep s a = some (u, x) ∧ t = u.resume r x := by
  cases hr : s.running r with
  | none => exact .inl ⟨rfl, by simpa [State.advance_none hr, eq_comm] using h⟩
  | some a =>
    rw [State.advance_some hr, slotOutcome_eq_next, Option.map_eq_some_iff] at h
    obtain ⟨⟨u, x⟩, h1, h2⟩ := h
    exact .inr ⟨a, u, x, rfl, h1, h2.symm⟩

/-- All a port can do with a command word when it answers a next state (R45, R95, R235). -/
theorem State.issue_cases {s t : State} {r : Role} {w : Half} (h : s.issue r w = .next t) :
    ∃ i, decode w = .ok i ∧ reachable s.par.assembly i = true ∧ exec i s = .next t ∧
      (s.par.contexts = .single ∨ s.par.contexts = .dual ∧ mayIssue r i = true) := by
  unfold State.issue at h
  cases hd : decode w with
  | reserved why => simp [hd] at h
  | ok i =>
    cases ha : reachable s.par.assembly i with
    | false => simp [hd, ha] at h
    | true =>
      cases hc : s.par.contexts with
      | single => exact ⟨i, rfl, ha, by simpa [hd, ha, hc] using h, .inl rfl⟩
      | dual =>
        cases hm : mayIssue r i with
        | false => simp [hd, ha, hc, hm] at h
        | true => exact ⟨i, rfl, ha, by simpa [hd, ha, hc, hm] using h, .inr ⟨rfl, hm⟩⟩

/-- A port that takes a command its context may issue runs its meaning (R44, R45). -/
theorem State.issue_eq_exec {s : State} {r : Role} {w : Half} {i : Instr} (hd : decode w = .ok i)
    (ha : reachable s.par.assembly i = true)
    (hm : s.par.contexts = .single ∨ mayIssue r i = true) : s.issue r w = exec i s := by
  unfold State.issue
  rcases hm with hm | hm <;> cases hc : s.par.contexts <;> simp_all

/-- What the outside world did at a step that answers a next state, and what came of it. -/
inductive Served (s t : State) : Prop where
  /-- nothing was to come -/
  | idle (h : s.inputs = []) (ht : t = s)
  /-- a command waits while its context's operation goes on (R44) -/
  | waits (r : Role) (w : Half) (rest : List Stimulus) (h : s.inputs = .command r w :: rest)
      (hl : s.resetLevel = false) (hr : s.running r ≠ none) (ht : s.advance r = .next t)
  /-- a port takes a command -/
  | takes (r : Role) (w : Half) (rest : List Stimulus) (i : Instr)
      (h : s.inputs = .command r w :: rest) (hl : s.resetLevel = false) (hr : s.running r = none)
      (hd : decode w = .ok i) (ha : reachable s.par.assembly i = true)
      (hm : s.par.contexts = .single ∨ mayIssue r i = true)
      (ht : exec i { s with inputs := rest } = .next t)
  /-- a context makes its next atomic step (R61) -/
  | advances (r : Role) (rest : List Stimulus) (h : s.inputs = .advance r :: rest)
      (ht : ({ s with inputs := rest } : State).advance r = .next t)
  /-- an input changes (R43, R93, R237): `pins_valid` only under `reset`, the side port only where
  components are modelled alone -/
  | input (rest : List Stimulus) (a : LinkAnswers) (bs : List Byte) (p l : Bool)
      (h : ∀ r w, s.inputs ≠ .command r w :: rest) (ha : ∀ r, s.inputs ≠ .advance r :: rest)
      (hp : s.resetLevel = true ∨ p = s.pinsValid)
      (hb : s.par.assembly = .components ∨ bs = s.sideIn)
      (ht : t = { s with inputs := rest, link := a, sideIn := bs, pinsValid := p, resetLevel := l })
  /-- `reset` is asserted (R250) -/
  | resets (rest : List Stimulus) (h : s.inputs = .reset true :: rest)
      (ht : t = ({ s with inputs := rest } : State).assertReset)

/-- All a step can do when it answers a next state. -/
theorem step_cases {s t : State} (h : step s = .next t) : Served s t := by
  unfold step serve at h
  split at h
  · cases h
    exact .idle ‹_› rfl
  · rename_i r w rest hi
    unfold State.present at h
    split at h
    · cases h
    · rename_i hl
      have hl : s.resetLevel = false := by simpa using hl
      split at h
      · rename_i hr
        exact .waits r w rest hi hl (Option.isSome_iff_ne_none.1 hr) h
      · rename_i hr
        obtain ⟨i, hd, ha, ht, hm⟩ := State.issue_cases h
        have hr : s.running r = none := by simpa using hr
        exact .takes r w rest i hi hl hr hd ha (hm.imp id And.right) ht
  · exact .advances _ _ ‹_› h
  · rename_i hi
    cases h
    exact .input _ _ s.sideIn s.pinsValid s.resetLevel (by simp [hi]) (by simp [hi]) (.inr rfl)
      (.inr rfl) rfl
  · rename_i hi
    unfold State.presentSide at h
    split at h
    · cases h
    · cases h
      exact .input _ s.link _ s.pinsValid s.resetLevel (by simp [hi]) (by simp [hi]) (.inr rfl)
        (.inl ‹_›) rfl
  · rename_i hi
    unfold State.setPins at h
    split at h
    · cases h
      exact .input _ s.link s.sideIn _ s.resetLevel (by simp [hi]) (by simp [hi]) (.inl ‹_›)
        (.inr rfl) rfl
    · cases h
  · cases h
    exact .resets _ ‹_› rfl
  · rename_i hi
    cases h
    exact .input _ s.link s.sideIn s.pinsValid _ (by simp [hi]) (by simp [hi]) (.inr rfl)
      (.inr rfl) rfl

end Sys2Proof.Machine
end

