-- ==== Sys2Proof/Laws/Tick.lean ====
section
/-! SUPPORT. What the two phases of a tick can do, said once each (R152 to R170), and what the copy
and the drain do to indices and storage. -/

namespace Sys2Proof.Machine

/-- `MAXP` is `MTU - 7` and fits the one-byte `length` field (R82, D17). -/
theorem Params.maxPayload_bounds {par : Params} (h : par.Legal) :
    par.maxPayload + 7 = par.mtu ∧ 1 ≤ par.maxPayload ∧ par.maxPayload ≤ 255 := by
  obtain ⟨-, -, h1, h2, -⟩ := h
  simp only [Params.maxPayload, Config.headerSize]
  omega

/-- The ACK of a packet is always made (R133), with the fields of R159. -/
theorem ackPacket_eq (par : Params) (p : Packet) : ackPacket par p = some (ackFor par p) := by
  simp [ackPacket, encodePacket, ackFor, Packet.sealed, Packet.sum, checksum, Packet.length]

@[simp] theorem ackFor_payload (par : Params) (p : Packet) : (ackFor par p).payload = [] := rfl

theorem length_dataFor_payload {s : State} {n : Nat} (hn : n ≤ s.tx.occupied s.par.capacity) :
    (dataFor s n).payload.length = n := by
  simpa [dataFor] using hn

/-- The data packet of the oldest bytes is always made (R133), with the fields of R167; it does not
depend on what is left in the ring. -/
theorem dataPacket_eq {s t : State} {n : Nat} (hl : s.par.Legal) (hn : n ≤ s.par.maxPayload)
    (ho : n ≤ s.tx.occupied s.par.capacity) (hp : t.par = s.par) (hq : t.seq = s.seq) :
    t.dataPacket ((s.tx.contents s.par.capacity).take n) n = some (dataFor s n) := by
  have hb := Params.maxPayload_bounds hl
  have hlen : ((s.tx.contents s.par.capacity).take n).length = n := by simpa using ho
  simp only [State.dataPacket, encodePacket, hp, hq, if_neg (show ¬ n > s.par.maxPayload by omega)]
  simp [dataFor, Packet.sealed, Packet.sum, checksum, Packet.length, txFlags, List.take_take,
    Nat.min_eq_left ho, Nat.mod_eq_of_lt (show n < 256 by omega)]

theorem sendPacket_eq (s : State) {q : Packet} (h : q.payload.length < 256) :
    s.sendPacket q
      = s.call (.send (serialize s.par.wireOrder q) (7 + q.payload.length)) := by
  simp [State.sendPacket, Packet.length_toNat h]

theorem observeAck_cases (s : State) (p : Packet) :
    (p.flags &&& s.par.flags.ack ≠ 0 ∧ s.observeAck p = s.emit (.ackObserved p.sequenceNumber)) ∨
      (p.flags &&& s.par.flags.ack = 0 ∧ s.observeAck p = s) := by
  unfold State.observeAck hasAck flagSet
  by_cases h : p.flags &&& s.par.flags.ack = 0
  · exact .inr ⟨h, by simp [h]⟩
  · exact .inl ⟨h, if_pos (bne_iff_ne.2 h)⟩

theorem answersWithAck_iff (par : Params) (p : Packet) :
    answersWithAck par p = true ↔ par.ackEchoOnAck = true ∨ p.flags &&& par.flags.ack = 0 := by
  simp [answersWithAck, hasAck, flagSet]

/-- Where the stores of a copy that fits go, and where `head` is after it (R111, R156). -/
theorem RingBuffer.storeAll_frame {c : Nat} {bs : List Byte} {r r' : RingBuffer} (h : r.Ok c)
    (hn : bs.length ≤ r.freeSlots c) (hs : r.storeAll c bs = some r') :
    r'.head = (r.head + bs.length) % c ∧
      ∀ a, (∀ k < bs.length, a ≠ (r.head + k) % c) → Memory.read r'.buf a = Memory.read r.buf a := by
  induction bs generalizing r with
  | nil =>
    cases hs
    exact ⟨(Nat.mod_eq_of_lt h.1).symm, fun _ _ => rfl⟩
  | cons b bs ih =>
    simp only [List.length_cons] at hn ⊢
    have hf : r.full c = false := by
      rw [Bool.eq_false_iff, ne_eq, RingBuffer.full_iff_freeSlots h.1 h.2.1]
      omega
    have ho := RingBuffer.occupied_stored h hf b
    have hok := RingBuffer.stored_ok h b
    have e1 := r.occupied_add_freeSlots h.1
    have e2 := (r.stored c b).occupied_add_freeSlots hok.1
    rcases RingBuffer.store_cases h b with ⟨hf', -⟩ | ⟨-, hs'⟩
    · simp [hf] at hf'
    · simp only [RingBuffer.storeAll, hs'] at hs
      obtain ⟨h1, h2⟩ := ih hok (by omega) hs
      refine ⟨?_, fun a ha => ?_⟩
      · rw [h1]
        simp only [RingBuffer.stored, Nat.mod_add_mod]
        congr 1
        omega
      · rw [h2 a fun k hk => ?_]
        · have h0 := ha 0 (by omega)
          rw [Nat.add_zero, Nat.mod_eq_of_lt h.1] at h0
          rw [RingBuffer.stored, Memory.read_write h.2.2.1, if_neg h0]
        · have h0 := ha (k + 1) (by omega)
          simp only [RingBuffer.stored, Nat.mod_add_mod]
          rwa [show r.head + 1 + k = r.head + (k + 1) by omega]

/-- Where `tail` is after a drain (R113, R166). -/
theorem RingBuffer.drain_tail {c n : Nat} {r r' : RingBuffer} {bs : List Byte} (h : r.Ok c)
    (hn : n ≤ r.occupied c) (hd : r.drain c n = some (bs, r')) : r'.tail = (r.tail + n) % c := by
  induction n generalizing r bs with
  | zero =>
    cases hd
    exact (Nat.mod_eq_of_lt h.2.1).symm
  | succ n ih =>
    have he : r.empty = false := by
      rw [Bool.eq_false_iff, ne_eq, r.empty_iff h.1 h.2.1]
      omega
    rcases RingBuffer.readByte_cases h with ⟨he', -⟩ | ⟨-, hr⟩
    · simp [he] at he'
    · have ho := RingBuffer.occupied_consumed h he
      simp only [RingBuffer.drain, hr] at hd
      cases hq : RingBuffer.drain c n (r.consumed c) with
      | none => simp [hq] at hd
      | some q =>
        obtain ⟨qs, q⟩ := q
        simp only [hq, Option.some.injEq, Prod.mk.injEq] at hd
        obtain ⟨-, rfl⟩ := hd
        rw [ih (RingBuffer.consumed_ok h) (by omega) hq]
        simp only [RingBuffer.consumed, Nat.mod_add_mod]
        congr 1
        omega

/-- The payload bytes a tick from `s` adds to `RX` (R156). -/
def receivedBytes (s : State) : List Byte :=
  match receivedPacket s with
  | none => []
  | some p => p.payload.take (s.freeSlots .rx)

/-- What the receive phase adds to the trace (R152 to R160). -/
def receiveEvents (s : State) : List Event :=
  [.link .available] ++ (if s.link.available then [.link .recv] else [])
    ++ (match receivedPacket s with
      | none => []
      | some p =>
        (if p.flags &&& s.par.flags.ack ≠ 0 then [.ackObserved p.sequenceNumber] else [])
        ++ (if s.par.ackEchoOnAck = true ∨ p.flags &&& s.par.flags.ack = 0
            then [.link (.send (serialize s.par.wireOrder (ackFor s.par p)) 7)] else []))

/-- What the transmit phase adds to the trace (R163 to R169). -/
def transmitEvents (s : State) : List Event :=
  [.link .currentlyTransmitting]
    ++ (if sentCount s = 0 then []
        else [.link (.send (serialize s.par.wireOrder (dataFor s (sentCount s)))
          (7 + sentCount s))])

/-- The count of payload bytes a tick copies is that of the bytes it copies. -/
theorem length_receivedBytes (s : State) : (receivedBytes s).length = copiedCount s := by
  unfold receivedBytes copiedCount
  cases receivedPacket s <;> simp [Nat.min_comm]

theorem length_receivedBytes_le (s : State) : (receivedBytes s).length ≤ s.freeSlots .rx := by
  unfold receivedBytes
  cases receivedPacket s <;> simp

/-- The payload of a received packet fits the `length` field. -/
theorem receivedPacket_payload {s : State} {p : Packet} (h : receivedPacket s = some p) :
    p.payload.length ≤ s.par.maxPayload := by
  unfold receivedPacket at h
  split at h
  · obtain ⟨f, -, hf⟩ := Option.bind_eq_some_iff.1 h
    exact payload_of_parse (acceptFrame_eq_some.1 hf).1
  · simp at h

/-- Steps 4 to 8 on a valid packet: its bytes go to `RX` as far as they fit, and the events of R155
and R160 join the trace. -/
theorem acceptPacket_cases {s : State} {p : Packet} (hl : s.par.Legal)
    (hr : s.rx.Ok s.par.capacity) (hp : p.payload.length ≤ s.par.maxPayload) :
    ∃ r, s.rx.storeAll s.par.capacity (p.payload.take (s.freeSlots .rx)) = some r ∧
      s.acceptPacket p = some { s with
        rx := r
        trace := s.trace
          ++ ((if p.flags &&& s.par.flags.ack ≠ 0 then [.ackObserved p.sequenceNumber] else [])
            ++ (if s.par.ackEchoOnAck = true ∨ p.flags &&& s.par.flags.ack = 0
                then [.link (.send (serialize s.par.wireOrder (ackFor s.par p)) 7)] else [])) } := by
  obtain ⟨r, hs, -⟩ := RingBuffer.storeAll_cases (bs := p.payload.take (s.freeSlots .rx)) hr
  refine ⟨r, hs, ?_⟩
  have hb := Params.maxPayload_bounds hl
  have hc : s.copiedBytes p = p.payload.take (s.freeSlots .rx) := by
    rw [State.copiedBytes, Packet.length_toNat (by omega), List.take_eq_take_iff]
    omega
  have ha : ∀ t : State, t.echoAck p = if answersWithAck t.par p
      then t.call (.send (serialize t.par.wireOrder (ackFor t.par p)) 7) else t := by
    intro t
    simp only [State.echoAck, ackPacket_eq]
    rw [sendPacket_eq _ (by simp)]
    rfl
  simp only [State.acceptPacket, State.storeAll, hc]
  rcases observeAck_cases s p with ⟨h, ho⟩ | ⟨h, ho⟩ <;> rw [ho]
  · simp only [State.ring_rx, State.emit_rx, State.emit_par, hs, Option.map_some, ha]
    by_cases he : answersWithAck s.par p = true
    · have := (answersWithAck_iff _ _).1 he
      simp only [if_pos h, if_pos this, State.setRing, State.emit, State.call]
      simp [he]
    · have := mt (answersWithAck_iff _ _).2 he
      simp only [if_pos h, if_neg this, State.setRing, State.emit, State.call]
      simp [he]
  · simp only [State.ring_rx, hs, Option.map_some, ha]
    have he : answersWithAck s.par p = true := (answersWithAck_iff _ _).2 (.inr h)
    simp only [State.setRing, State.emit, State.call]
    simp [he, h]

/-- All the receive phase can do (R152 to R162). -/
theorem receivePhase_cases {s : State} (hl : s.par.Legal) (hr : s.rx.Ok s.par.capacity) :
    ∃ r, s.rx.storeAll s.par.capacity (receivedBytes s) = some r ∧
      s.receivePhase = some { s with rx := r, trace := s.trace ++ receiveEvents s } := by
  unfold State.receivePhase receivedBytes receiveEvents
  cases ha : s.link.available with
  | false =>
    have hn : receivedPacket s = none := by simp [receivedPacket, ha]
    exact ⟨s.rx, by rw [hn]; rfl, by simp [hn, State.call, State.emit]⟩
  | true =>
    cases hv : s.link.recv with
    | none =>
      have hn : receivedPacket s = none := by simp [receivedPacket, hv]
      exact ⟨s.rx, by rw [hn]; rfl, by simp [hn, State.call, State.emit]⟩
    | some f =>
      cases hf : acceptFrame s.par f with
      | none =>
        have hn : receivedPacket s = none := by simp [receivedPacket, hv, hf]
        exact ⟨s.rx, by rw [hn]; rfl, by simp [hn, hf, State.call, State.emit]⟩
      | some p =>
        have hp : receivedPacket s = some p := by simp [receivedPacket, ha, hv, hf]
        obtain ⟨r, h1, h2⟩ := acceptPacket_cases (s := (s.call .available).call .recv) hl hr
          (receivedPacket_payload hp)
        refine ⟨r, by rw [hp]; exact h1, ?_⟩
        simp only [hf, if_true, h2, hp, Option.some.injEq]
        simp [State.call, State.emit]

theorem sentCount_le_occupied (s : State) : sentCount s ≤ s.tx.occupied s.par.capacity := by
  unfold sentCount
  split
  · exact Nat.zero_le _
  · exact Nat.min_le_left _ _

theorem sentCount_le_maxPayload (s : State) : sentCount s ≤ s.par.maxPayload := by
  unfold sentCount
  split
  · exact Nat.zero_le _
  · exact Nat.min_le_right _ _

/-- All the transmit phase can do (R163 to R170). -/
theorem transmitPhase_cases {s : State} (hl : s.par.Legal) (ht : s.tx.Ok s.par.capacity) :
    ∃ r, s.tx.drain s.par.capacity (sentCount s)
        = some ((s.tx.contents s.par.capacity).take (sentCount s), r) ∧
      s.transmitPhase = some { s with
        tx := r
        seq := if sentCount s = 0 then s.seq else s.seq + 1
        trace := s.trace ++ transmitEvents s } := by
  obtain ⟨r, hd, -⟩ := RingBuffer.drain_cases ht (sentCount_le_occupied s)
  refine ⟨r, hd, ?_⟩
  unfold State.transmitPhase transmitEvents
  cases hb : s.link.currentlyTransmitting with
  | true =>
    have h0 : sentCount s = 0 := by simp [sentCount, hb]
    rw [h0] at hd
    cases hd
    simp [h0, State.call, State.emit]
  | false =>
    have hn : s.transmitCount = sentCount s := by simp [State.transmitCount, sentCount, hb]
    simp only [hn]
    by_cases h0 : sentCount s = 0
    · rw [h0] at hd
      cases hd
      simp [h0, State.call, State.emit]
    · have hm := Params.maxPayload_bounds hl
      have hle := sentCount_le_maxPayload s
      have hp := length_dataFor_payload (sentCount_le_occupied s)
      simp only [h0, if_false, State.call_tx, hd, Option.map_some, State.sendData]
      rw [dataPacket_eq (s := s) (t := (s.call .currentlyTransmitting).setRing .tx r) hl hle
        (sentCount_le_occupied s) rfl rfl]
      simp only [sendPacket_eq _ (show (dataFor s (sentCount s)).payload.length < 256 by omega), hp]
      simp [State.call, State.emit, State.advanceSeq, State.setRing]

end Sys2Proof.Machine
end

