-- ==== Sys2Proof/Tests/Slice0.lean ====
section
/-! SUPPORT. Tests: reserved words (T-G7), command words written out from R92, one step of each
operation against 95_test_vectors.md (the vector is named with each), and, for every obligation that
has hypotheses, a concrete state and operands that meet them all. -/

namespace Sys2Proof.Tests

open Sys2Proof Sys2Proof.Machine

/-! ## Reserved words: one for each check of `wellFormedWord` (R95, T-G7) -/

theorem test_wf_refuses_unit : wellFormedWord 0x6000 = false ∧ wellFormedWord 0xFFFF = false := by
  decide

theorem test_wf_refuses_op : wellFormedWord 0x3600 = false ∧ wellFormedWord 0x4100 = false ∧
    wellFormedWord 0x5500 = false ∧ wellFormedWord 0x0500 = false ∧ wellFormedWord 0x2500 = false := by
  decide

theorem test_wf_refuses_operand : wellFormedWord 0x3101 = false ∧ wellFormedWord 0x1280 = false := by
  decide

theorem test_wf_refuses_setter_high_bits :
    wellFormedWord 0x5104 = false ∧ wellFormedWord 0x5280 = false := by decide

theorem test_wf_refuses_mode_code : wellFormedWord 0x5003 = false := by decide

theorem test_wf_accepts : wellFormedWord 0x5002 = true ∧ wellFormedWord 0x5103 = true ∧
    wellFormedWord 0x10FF = true := by decide

theorem test_decode_reserved_names : decode 0x6000 = .reserved .unit ∧
    decode 0x3600 = .reserved .op ∧ decode 0x3101 = .reserved .operand ∧
    decode 0x5104 = .reserved .operand ∧ decode 0x5003 = .reserved .modeCode := by decide

/-! ## Decoding: a word of every constructor, written bit by bit from R92 -/

theorem test_decode_ring_rx : decode 0b0000_0000_10101010 = .ok (.rbStore .rx 0xAA) ∧
    decode 0b0000_0001_00000000 = .ok (.rbReadByte .rx) ∧
    decode 0b0000_0010_00000000 = .ok (.rbPeek .rx) ∧
    decode 0b0000_0011_00000000 = .ok (.rbOccupied .rx) ∧
    decode 0b0000_0100_00000000 = .ok (.rbFreeSlots .rx) := by decide

theorem test_decode_ring_tx : decode 0b0001_0000_00000001 = .ok (.rbStore .tx 0x01) ∧
    decode 0b0001_0001_00000000 = .ok (.rbReadByte .tx) ∧
    decode 0b0001_0010_00000000 = .ok (.rbPeek .tx) ∧
    decode 0b0001_0011_00000000 = .ok (.rbOccupied .tx) ∧
    decode 0b0001_0100_00000000 = .ok (.rbFreeSlots .tx) := by decide

theorem test_decode_codec : decode 0b0010_0000_00000000 = .ok .pcChecksum ∧
    decode 0b0010_0001_00000000 = .ok .pcEncode ∧ decode 0b0010_0010_00000000 = .ok .pcSerialize ∧
    decode 0b0010_0011_00000000 = .ok .pcParse ∧
    decode 0b0010_0100_00000000 = .ok .pcValidate := by decide

theorem test_decode_stream : decode 0b0011_0000_00000000 = .ok .available ∧
    decode 0b0011_0001_00000000 = .ok .read ∧ decode 0b0011_0010_00000000 = .ok .peek ∧
    decode 0b0011_0011_01000001 = .ok (.write 0x41) ∧
    decode 0b0011_0100_00000000 = .ok .availableForWrite ∧
    decode 0b0011_0101_00000000 = .ok .flush := by decide

theorem test_decode_servicing : decode 0b0100_0000_00000000 = .ok .tick ∧
    decode 0b0101_0000_00000001 = .ok (.setMode .active) ∧
    decode 0b0101_0001_00000010 = .ok (.setBiteRate .fast) ∧
    decode 0b0101_0010_00000011 = .ok (.setPower .max) ∧
    decode 0b0101_0011_00000010 = .ok (.setChannel .ch3) ∧
    decode 0b0101_0100_00000000 = .ok .init := by decide

theorem test_encode_words : encode (.rbStore .tx 0xAA) = 0x10AA ∧ encode .flush = 0x3500 ∧
    encode (.setChannel .ch4) = 0x5303 ∧ encode (.setMode .scan) = 0x5002 := by decide

/-! ## Small states -/

/-- The state an outcome answers, if any. -/
def after : Result → Option State
  | .next s => some s
  | .fault _ => none
  | .refused _ => none

/-- The refusal an outcome is, if it is one. -/
def refusalOf : Result → Option Refusal
  | .next _ => none
  | .fault _ => none
  | .refused why => some why

/-- The default parameters with `C = 4` (T-R4). -/
def par4 : Params := { Config.defaults with capacity := 4 }

/-- The state after reset with `C = 4`. -/
def base : State := { State.reset with par := par4 }

/-- `C = 4` under `CONTEXTS = dual`. -/
def dual : State := base.withContexts .dual

/-- The components alone (R48), under `CONTEXTS = dual`. -/
def alone : State := { dual with par := { dual.par with assembly := .components } }

/-- `base` with these two buffers. -/
def withRings (rx tx : RingBuffer) : State := { base with rx := rx, tx := tx }

/-- Three bytes, full at `C = 4`: row 3 of T-R4. -/
def fullRing : RingBuffer := { head := 3, tail := 0, buf := [(0, 1), (1, 2), (2, 3)] }

/-- Two bytes across the wrap: row 7 of T-R4. -/
def wrappedRing : RingBuffer := { head := 0, tail := 2, buf := [(0, 1), (1, 2), (2, 3), (3, 5)] }

/-- An empty ring away from slot 0: row 14 of T-R4. -/
def drainedRing : RingBuffer := { head := 1, tail := 1, buf := [(0, 6), (1, 2), (2, 3), (3, 5)] }

/-- `TX` holds the one byte 0x41. -/
def oneRing : RingBuffer := { head := 1, tail := 0, buf := [(0, 0x41)] }

/-- A LinkDriver with this frame waiting. -/
def linkWith (f : List Byte) : LinkAnswers :=
  { linkAtReset with available := true, recv := some f }

/-- The ACK frame of T-K5. -/
def ackFrame : List Byte := [0x00, 0x00, 0x00, 0x00, 0x01, 0x01, 0x00]

/-- The frame of T-K11. -/
def dataFrame : List Byte := [0x01, 0x00, 0x01, 0x00, 0x11, 0x21, 0x34, 0x00]

/-- The packet of the first row of T-C6. -/
def packetA : Packet :=
  { sequenceNumber := 0, streamId := 0, flags := 0x11, payload := [0x41], checksum := 0x53 }

/-- `base` with these bytes on the side port. -/
def side (bs : List Byte) : State := { base with sideIn := bs }

/-! ## One step of each operation -/

/-- T-R4 row 8: a store across the wrap. -/
theorem test_rbStore : ((after (exec (.rbStore .rx 0x06) (withRings wrappedRing oneRing))).map
    fun t => t.rx) = some { head := 1, tail := 2, buf := [(0, 6), (1, 2), (2, 3), (3, 5)] } := by
  decide

/-- T-R4 row 4: a full buffer drops the byte. -/
theorem test_rbStore_full : ((after (exec (.rbStore .tx 0x04) (withRings oneRing fullRing))).map
    fun t => (t.tx, t.rsp)) = some (fullRing, 0x0000) := by decide

/-- T-R4 row 12: the byte at the last slot; `tail` wraps. -/
theorem test_rbReadByte : ((after (exec (.rbReadByte .tx)
    (withRings oneRing { wrappedRing with head := 1, tail := 3 }))).map
    fun t => (t.tx.tail, t.rsp)) = some (0, 0x0005) := by decide

/-- T-R4 row 14, T-R6: `Empty`. -/
theorem test_rbReadByte_empty : ((after (exec (.rbReadByte .rx) (withRings drainedRing oneRing))).map
    fun t => (t.rx, t.rsp)) = some (drainedRing, 0x0100) := by decide

/-- T-R4 row 10. -/
theorem test_rbPeek : ((after (exec (.rbPeek .rx) (withRings wrappedRing oneRing))).map
    fun t => (t.rx.tail, t.rsp)) = some (2, 0x0003) := by decide

/-- T-R7, at `C = 128`: occupancy across the wrap. -/
theorem test_rbOccupied : ((after (exec (.rbOccupied .rx)
    { State.reset with rx := { head := 2, tail := 126, buf := [] } })).map fun t => t.rsp)
    = some 4 := by decide

/-- T-R7. -/
theorem test_rbFreeSlots : ((after (exec (.rbFreeSlots .rx)
    { State.reset with rx := { head := 2, tail := 126, buf := [] } })).map fun t => t.rsp)
    = some 123 := by decide

/-- T-C2: the sequence number adds as a value, not as bytes. -/
theorem test_pcChecksum : ((after (exec .pcChecksum
    (side [0x00, 0x01, 0x00, 0x00, 0x00, 0x00, 0x00]))).map fun t => t.rsp) = some 0x0100 := by decide

/-- T-C3: the sum wraps. -/
theorem test_pcChecksum_wraps : ((after (exec .pcChecksum
    (side [0xFF, 0xFF, 0x00, 0x00, 0x01, 0x00, 0x00]))).map fun t => t.rsp) = some 0x0000 := by decide

/-- T-C6, first row: `encode` then the frame on the side port. -/
theorem test_pcEncode : ((after (exec .pcEncode
    (side [0x00, 0x00, 0x01, 0x00, 0x11, 0x41, 0x00, 0x00]))).map fun t => (t.rsp, t.sideOut))
    = some (0x0001, [0x00, 0x00, 0x01, 0x00, 0x11, 0x41, 0x53, 0x00]) := by decide

/-- T-C6, fifth row: the checksum is written as it stands, here another one (R134). -/
theorem test_pcSerialize : ((after (exec .pcSerialize
    (side [0x02, 0x00, 0x03, 0x03, 0xA5, 0x01, 0x02, 0x03, 0xB4, 0x00]))).map
    fun t => (t.rsp, t.sideOut))
    = some (10, [0x02, 0x00, 0x03, 0x03, 0xA5, 0x01, 0x02, 0x03, 0xB4, 0x00]) := by decide

/-- T-C6, fourth row. -/
theorem test_pcParse : ((after (exec .pcParse
    (side [0x34, 0x12, 0x00, 0x07, 0x01, 0x3C, 0x12]))).map fun t => (t.rsp, t.sideOut))
    = some (0x0001, [0x34, 0x12, 0x00, 0x07, 0x01, 0x3C, 0x12]) := by decide

/-- T-C9 (a), (c), (d): too short, one byte too many, one too few. -/
theorem test_pcParse_malformed :
    ([[0x00, 0x00, 0x00, 0x00, 0x01, 0x01],
      [0x00, 0x00, 0x01, 0x00, 0x11, 0x41, 0x53, 0x00, 0x00],
      [0x00, 0x00, 0x02, 0x00, 0x11, 0x41, 0x53, 0x00]].map fun f =>
        (after (exec .pcParse (side f))).map fun t => (t.rsp, t.sideOut))
      = [some (0, []), some (0, []), some (0, [])] := by decide

/-- T-C6, last row, and T-C7: bit 0 of byte 5 inverted. -/
theorem test_pcValidate :
    ([[0x00, 0x00, 0x02, 0x00, 0x11, 0x48, 0x69, 0xC4, 0x00],
      [0x00, 0x00, 0x02, 0x00, 0x11, 0x49, 0x69, 0xC4, 0x00]].map fun f =>
        (after (exec .pcValidate (side f))).map fun t => t.rsp) = [some 1, some 0] := by decide

/-- T-R4 rows 3 and 7: `occupied` is 3, then 2. -/
theorem test_available : ([fullRing, wrappedRing].map fun r =>
    (after (exec .available (withRings r oneRing))).map fun t => t.rsp) = [some 3, some 2] := by decide

/-- T-A3. -/
theorem test_read : ((after (exec .read
    (withRings { head := 2, tail := 0, buf := [(0, 0x48), (1, 0x69)] } oneRing))).map
    fun t => (t.rx.tail, t.rsp)) = some (1, 0x0048) := by decide

/-- T-A3: `peek` moves nothing. -/
theorem test_peek : ((after (exec .peek
    (withRings { head := 2, tail := 1, buf := [(0, 0x48), (1, 0x69)] } oneRing))).map
    fun t => (t.rx.tail, t.rsp)) = some (1, 0x0069) := by decide

/-- P1 step 2: `TX 1/0`, `TX.buf[0] = 41`. -/
theorem test_write : ((after (exec (.write 0x41) base)).map fun t => (t.tx, t.rx, t.rsp))
    = some (oneRing, base.rx, 0x0001) := by decide

/-- T-A2: the response is 1 on a full buffer. -/
theorem test_write_full : ((after (exec (.write 0x99) (withRings oneRing fullRing))).map
    fun t => (t.tx, t.rsp)) = some (fullRing, 0x0001) := by decide

/-- P1 step 3, at `C = 128`. -/
theorem test_availableForWrite : ((after (exec .availableForWrite
    { State.reset with tx := oneRing })).map fun t => t.rsp) = some 0x007E := by decide

/-- T-A4 at `C = 4`: `flush` across the wrap. -/
theorem test_flush : ((after (exec .flush (withRings wrappedRing oneRing))).map
    fun t => (t.rx, t.tx, t.rsp)) = some ({ wrappedRing with tail := 0 }, oneRing, 0) := by decide

/-- T-K5: an inbound ACK is observed and echoed. -/
theorem test_tick_ack : ((after (exec .tick { base with link := linkWith ackFrame })).map
    fun t => (t.trace, t.rx))
    = some ([.link .available, .link .recv, .ackObserved 0, .link (.send ackFrame 7),
        .link .currentlyTransmitting], base.rx) := by decide

/-- T-K9 with one byte queued: both phases in one tick. -/
theorem test_tick_both : ((after (exec .tick
    { withRings base.rx oneRing with link := linkWith dataFrame })).map
    fun t => (t.trace.drop 3, t.rx, t.tx.tail, t.seq))
    = some ([.link (.send [0x01, 0x00, 0x00, 0x00, 0x01, 0x02, 0x00] 7),
        .link .currentlyTransmitting,
        .link (.send [0x00, 0x00, 0x01, 0x00, 0x11, 0x41, 0x53, 0x00] 8)],
      { head := 1, tail := 0, buf := [(0, 0x21)] }, 1, 1) := by decide

/-- T-G1: no call. -/
theorem test_setMode : ((after (exec (.setMode .active) base)).map fun t => (t.cfg, t.trace))
    = some (⟨.active, .slow, .low, .ch1⟩, []) := by decide

/-- T-G3, first setter. -/
theorem test_setBiteRate : ((after (exec (.setBiteRate .fast) base)).map fun t => (t.cfg, t.trace))
    = some (⟨.idle, .fast, .low, .ch1⟩, [.link (.setDataRateAndPower .fast .low)]) := by decide

/-- T-G2, first setter. -/
theorem test_setPower : ((after (exec (.setPower .max) base)).map fun t => (t.cfg, t.trace))
    = some (⟨.idle, .slow, .max, .ch1⟩, [.link (.setDataRateAndPower .slow .max)]) := by decide

/-- T-G4, T-G5: all four channels, the one already held among them. -/
theorem test_setChannel : ([.ch1, .ch2, .ch3, .ch4].map fun c =>
    (after (exec (.setChannel c) base)).map fun t => t.trace)
    = [some [.link (.setChannel 10)], some [.link (.setChannel 20)], some [.link (.setChannel 30)],
      some [.link (.setChannel 40)]] := by decide

/-- T-G6 (a) and (b). -/
theorem test_init_fails :
    ((after (exec .init { base with pinsValid := false })).map fun t => (t.rsp, t.trace))
      = some (0, []) ∧
    ((after (exec .init base)).map fun t => (t.rsp, t.trace)) = some (0, [.link .init]) := by decide

/-- T-G6 (d): after `SET_CHANNEL 2`. -/
theorem test_init : ((after (exec .init { base with
      cfg := ⟨.idle, .slow, .low, .ch3⟩, link := { linkAtReset with init := true } })).map
    fun t => (t.rsp, t.cfg, t.trace))
    = some (1, ⟨.idle, .slow, .low, .ch1⟩, [.link .init, .link (.setDataRateAndPower .slow .low),
      .link (.setChannel 10)]) := by decide

/-- `CFG` packed as R30 places its fields: channel 3, power Max, rate Fast, mode Scan. -/
theorem test_cfg_word : Cfg.word ⟨.scan, .fast, .max, .ch3⟩ = 0b10_11_10_10 := by decide

/-- P5 step 5: one atomic step of a drain under `dual`. -/
theorem test_dual_drain : ((after (State.advance
    { dual with tx := { head := 3, tail := 0, buf := [(0, 0x41), (1, 0x42), (2, 0x43)] }
                svc := some (.tickDrain 2 []) } .servicing)).map fun t => (t.tx.tail, t.svc))
    = some (1, some (.tickDrain 1 [0x41])) := by decide

/-! ## The port -/

/-- Does the first step after reset run the word: the state `exec` gives on the state without it. -/
def runsFirst (w : Nat) (i : Instr) : Bool :=
  let s := { State.reset with par := { State.reset.par with assembly := homeAssembly i } }
  after (step (State.reset.withFetchWord 16 w)) == after (exec i s) && (after (exec i s)).isSome

theorem test_first_step_runs : runsFirst 0x0007 (.rbStore .rx 0x07) = true ∧
    runsFirst 0x3341 (.write 0x41) = true ∧ runsFirst 0x4000 .tick = true ∧
    runsFirst 0x3500 .flush = true ∧ runsFirst 0x5400 .init = true := by decide

/-- R42, R48: bytes on the side port come in where the codec is modelled alone, and nowhere else. -/
theorem test_side_port : refusalOf (step { base with inputs := [.side [1]] }) = some .notReachable ∧
    ((after (step { alone with inputs := [.side [1]] })).map fun t => t.sideIn) = some [1] := by
  decide

/-- R43, R209: `pins_valid` is set while `reset` is asserted (R253 step 2), and not while the block
runs. -/
theorem test_pins_valid : refusalOf (step { base with inputs := [.pins false] }) = some .strapHeld ∧
    ((after (step { base with resetLevel := true, inputs := [.pins false] })).map
      fun t => t.pinsValid) = some false := by decide

/-- R10, R11: `USABLE = 127` and `IDXW = 7` at the defaults; `IDXW` at the smallest `C`, at one more
than a power of two, and at the largest. -/
theorem test_parameters : Config.defaults.usable = 127 ∧ Config.defaults.indexWidth = 7 ∧
    ([2, 4, 5, 65536].map Config.indexWidth) = [1, 2, 3, 16] := by decide

/-- R266: a tick stores between the last read of a `flush` and its return, so `RX` is not empty at the
return. -/
theorem test_flush_return :
    ((after (advanceTimes .application 1 { dual with rx := drainedRing, app := some .flushRead })).bind
      fun s => (after (s.advance .servicing)).bind
        fun t => (after (t.advance .application)).map fun u => (s.app, t.rx.head, u.rx, u.app))
      = some (some .flushReturn, 1, drainedRing, none) ∧
    ((after (advanceTimes .application 1 { dual with
        rx := drainedRing, app := some .flushRead, svc := some (.tickCopy packetA [0x41]) })).bind
      fun s => (after (s.advance .servicing)).bind
        fun t => (after (t.advance .application)).map
          fun u => (s.rx.contents 4, u.rx.contents 4, u.app, u.rsp))
      = some ([], [0x41], none, 0x0000) := by decide

/-! ## Witnesses: each obligation's hypotheses met together -/

theorem ok_full : fullRing.Ok 4 := by decide
theorem ok_wrapped : wrappedRing.Ok 4 := by decide
theorem ok_drained : drainedRing.Ok 4 := by decide
theorem ok_one : oneRing.Ok 4 := by decide
theorem ok_reset : ringAfterReset.Ok 4 := by decide
theorem legal_par4 : par4.Legal := by decide

theorem witness_encodeInvertsDecode : decode 0x5303 = .ok (.setChannel .ch4) := by decide

/-- R21, R22: the invariant holds of a state that is not the reset state. -/
theorem inv_full : (withRings fullRing wrappedRing).Inv :=
  ⟨by decide, by decide, by decide, fun _ => ⟨rfl, rfl⟩, .inl rfl, fun _ h => nomatch h⟩

theorem witness_stepRunsTheDecodedOperation_single :
    let s := { base with inputs := [.command .servicing 0x3341] }
    s.inputs = .command .servicing 0x3341 :: [] ∧ s.resetLevel = false ∧
      s.running .servicing = none ∧ decode 0x3341 = .ok (.write 0x41) ∧
      reachable s.par.assembly (.write 0x41) = true ∧ s.par.contexts = .single := by decide

theorem witness_stepRunsTheDecodedOperation_dual :
    let s := { dual with inputs := [.command .application 0x3341] }
    s.inputs = .command .application 0x3341 :: [] ∧ s.resetLevel = false ∧
      s.running .application = none ∧ decode 0x3341 = .ok (.write 0x41) ∧
      reachable s.par.assembly (.write 0x41) = true ∧
      mayIssue .application (.write 0x41) = true := by decide

/-- A RingBuffer alone: the producer of `RX` issues `RB_STORE`. -/
theorem witness_stepRunsTheDecodedOperation_components :
    let s := { alone with inputs := [.command .servicing 0x0007] }
    s.inputs = .command .servicing 0x0007 :: [] ∧ s.resetLevel = false ∧
      s.running .servicing = none ∧ decode 0x0007 = .ok (.rbStore .rx 0x07) ∧
      reachable s.par.assembly (.rbStore .rx 0x07) = true ∧
      mayIssue .servicing (.rbStore .rx 0x07) = true := by decide

theorem witness_presentedWordRunsNext : decodeTableWord 16 0x5303 = some (.setChannel .ch4) ∧
    decodeTableWord 16 0x5003 = none := by decide

theorem witness_reservedWordIsRefused :
    let s := { base with inputs := [.command .application 0x5003] }
    s.inputs = .command .application 0x5003 :: [] ∧ s.resetLevel = false ∧
      s.running .application = none ∧ wellFormedWord 0x5003 = false := by decide

/-- The classes of R95 on the words of T-G7, and where two classes meet: the lowest unit and the
lowest `op` of each unit that R92 does not list, and codes beside `SET_MODE 3`. -/
theorem witness_reservedClass :
    ([0x6000, 0xFFFF].map reservedClass = [.unit, .unit]) ∧
    ([0x0500, 0x1500, 0x2500, 0x3600, 0x4100, 0x5500].map reservedClass
      = [.op, .op, .op, .op, .op, .op]) ∧
    ([0x3101, 0x5104, 0x5007, 0x5283].map reservedClass
      = [.operand, .operand, .operand, .operand]) ∧
    reservedClass 0x5003 = .modeCode ∧
    ([0x6000, 0xFFFF, 0x0500, 0x1500, 0x2500, 0x3600, 0x4100, 0x5500, 0x3101, 0x5104, 0x5007, 0x5283,
      0x5003].all fun w => !wellFormedWord w) = true := by decide

theorem witness_portRefuses_reset :
    let s := { base with resetLevel := true, inputs := [.command .application 0x3000] }
    s.inputs = .command .application 0x3000 :: [] ∧ s.resetLevel = true := by decide

theorem witness_portRefuses_notReachable :
    let s := { base with inputs := [.command .servicing 0x0007] }
    s.inputs = .command .servicing 0x0007 :: [] ∧ s.resetLevel = false ∧
      s.running .servicing = none ∧ decode 0x0007 = .ok (.rbStore .rx 0x07) ∧
      reachable s.par.assembly (.rbStore .rx 0x07) = false := by decide

theorem witness_portRefuses_role :
    let s := { dual with inputs := [.command .application 0x4000] }
    s.inputs = .command .application 0x4000 :: [] ∧ s.resetLevel = false ∧
      s.running .application = none ∧ decode 0x4000 = .ok .tick ∧
      reachable s.par.assembly .tick = true ∧ s.par.contexts = .dual ∧
      mayIssue .application .tick = false := by decide

/-- Components alone under `dual`: the producer of `TX` may not read from it (R110, R235). -/
theorem witness_portRefuses_role_components :
    let s := { alone with inputs := [.command .application 0x1100] }
    s.inputs = .command .application 0x1100 :: [] ∧ s.resetLevel = false ∧
      s.running .application = none ∧ decode 0x1100 = .ok (.rbReadByte .tx) ∧
      reachable s.par.assembly (.rbReadByte .tx) = true ∧ s.par.contexts = .dual ∧
      mayIssue .application (.rbReadByte .tx) = false := by decide

/-- R270: each side of a buffer is answered the query meant for the other (T-R4 row 3: full at `C = 4`,
3 bytes, no free slot). -/
theorem test_query_of_the_other_side :
    ([{ alone with tx := fullRing, inputs := [.command .application 0x1300] },
      { alone with tx := fullRing, inputs := [.command .servicing 0x1400] },
      { alone with rx := fullRing, inputs := [.command .servicing 0x0300] },
      { alone with rx := fullRing, inputs := [.command .application 0x0400] }].map
      fun s => (after (step s)).map fun t => t.rsp) = [some 3, some 0, some 3, some 0] := by decide

theorem witness_resetRestores :
    let s := { withRings fullRing oneRing with seq := 7, inputs := [.reset true] }
    s.inputs = .reset true :: [] := rfl

theorem witness_legal_smallest : ({ Config.defaults with capacity := 2, mtu := 8 } : Params).Legal := by
  decide

theorem witness_legal_largest :
    ({ Config.defaults with capacity := 65536, mtu := 262 } : Params).Legal := by decide

/-- `StoreWritesAtHeadOrDrops`, `WriteStoresInTxAndAnswersOne`: full, and not full across the wrap. -/
theorem witness_store :
    let s := withRings fullRing { wrappedRing with head := 3, tail := 1 }
    (s.ring .rx).Ok s.par.capacity ∧
      ((s.ring .rx).head + 1) % s.par.capacity = (s.ring .rx).tail ∧
      (s.ring .tx).Ok s.par.capacity ∧
      ¬ ((s.ring .tx).head + 1) % s.par.capacity = (s.ring .tx).tail := by decide

/-- `ReadByteTakesTheByteAtTail`, `PeekChangesNothing`: empty, and not empty. -/
theorem witness_read :
    let s := withRings drainedRing wrappedRing
    (s.ring .rx).Ok s.par.capacity ∧ (s.ring .rx).head = (s.ring .rx).tail ∧
      (s.ring .tx).Ok s.par.capacity ∧ ¬ (s.ring .tx).head = (s.ring .tx).tail := by decide

/-- `StoreIsAcceptedExactlyWhenThereIsRoom`: no room, and room for one. -/
theorem witness_room :
    let s := withRings fullRing wrappedRing
    (s.ring .rx).Ok s.par.capacity ∧ s.freeSlots .rx = 0 ∧
      (s.ring .tx).Ok s.par.capacity ∧ s.freeSlots .tx = 1 := by decide

/-- `OccupiedAndFreeSlotsAddUp`, `RingBufferRefinesBoundedQueue`: the run of T-R4 from row 3. -/
theorem witness_calls : fullRing.Ok 4 ∧
    ((ringAnswers 4 [.store 4, .readByte, .readByte, .store 5, .peek] fullRing).map
      fun q => (q.1, q.2.contents 4)) = some ([some 1, some 2, some 3], [3, 5]) := by decide

theorem witness_filling :
    let s := withRings oneRing drainedRing
    s.tx.Ok s.par.capacity ∧ s.tx.head = s.tx.tail ∧
      ([1, 2, 3, 4] : List Byte).length = s.par.capacity := by decide

theorem witness_writeN :
    (withRings oneRing wrappedRing).tx.Ok (withRings oneRing wrappedRing).par.capacity := by decide

/-- The codec operations: a packet on the side port, with nothing beyond it. -/
theorem witness_sidePacket : packetA.payload.length < 256 ∧
    (side (serialize par4.wireOrder packetA)).sideIn
      = serialize (side (serialize par4.wireOrder packetA)).par.wireOrder packetA := by decide

/-- `EncodeOperationFramesOrFails` at `MAXP` (with a byte beyond `len`). -/
theorem witness_encode_longest :
    let s := side (wireBytes .little 0 ++ [25, 0, 0] ++ List.replicate 25 0 ++ [9])
    s.sideIn = wireBytes s.par.wireOrder 0 ++ [BitVec.ofNat 8 25, 0, 0] ++ List.replicate 25 0 ++ [9] ∧
      25 = s.par.maxPayload := by decide

/-- `EncodeOperationFramesOrFails` above `MAXP`. -/
theorem witness_encode_tooLong :
    let s := side (wireBytes .little 0 ++ [26, 0, 0] ++ List.replicate 26 0 ++ [])
    s.sideIn = wireBytes s.par.wireOrder 0 ++ [BitVec.ofNat 8 26, 0, 0] ++ List.replicate 26 0 ++ [] ∧
      s.par.maxPayload < 26 := by decide

/-- `CodecOperationsTouchNoState`: one of the five, on an empty side port. -/
theorem witness_codec :
    Instr.pcParse ∈ [Instr.pcChecksum, .pcEncode, .pcSerialize, .pcParse, .pcValidate] ∧
    (after (exec .pcParse base)).isSome = true := by decide

theorem witness_parse : ((side dataFrame).sideIn.getD 2 0).toNat = 1 := by decide

/-- A byte string of this length field and this many bytes. -/
def lengthFrame (n size : Nat) : List Byte := [0, 0, BitVec.ofNat 8 n] ++ List.replicate (size - 3) 0

/-- `ParseOperationTestsTheLength` (R88, R135) at `length` `MAXP` and `MAXP + 1`, and with one byte too
few, none too many and one too many under each length policy. -/
theorem witness_parse_boundaries :
    ([lengthFrame 25 32, lengthFrame 26 33, lengthFrame 1 7, lengthFrame 1 8, lengthFrame 1 9].map
      fun f => (after (exec .pcParse (side f))).map fun t => (t.rsp, t.sideOut))
    = [some (1, lengthFrame 25 32), some (0, []), some (0, []), some (1, lengthFrame 1 8),
      some (0, [])] ∧
    ([lengthFrame 25 33, lengthFrame 26 33, lengthFrame 1 7, lengthFrame 1 8, lengthFrame 1 9].map
      fun f => (after (exec .pcParse { side f with
        par := { par4 with frameLenPolicy := .atLeast } })).map fun t => (t.rsp, t.sideOut))
    = [some (1, lengthFrame 25 32), some (0, []), some (0, []), some (1, lengthFrame 1 8),
      some (1, lengthFrame 1 8)] := by decide

theorem witness_roundTrip : par4.Legal ∧
    (List.replicate 25 0 : List Byte).length ≤ par4.maxPayload := by decide

/-- `SingleBitFlipIsRejected` and `ChecksumFieldFlipIsRejected`: the first and last byte of each
range. -/
theorem witness_flip : par4.Legal ∧ par4.frameLenPolicy = .exact ∧
    packetA.payload.length ≤ par4.maxPayload ∧ packetA.checksum = packetA.sum ∧
    0 < 5 + packetA.payload.length ∧ 5 < 5 + packetA.payload.length ∧
    5 + packetA.payload.length ≤ 6 ∧ 7 < 7 + packetA.payload.length ∧ 7 < 8 := by decide

theorem witness_reorder :
    let p : Packet := ⟨5, 0, 0x11, [0x01, 0x02], 0x001B⟩
    List.Perm [0x02, 0x01] p.payload ∧ validate p = true := by
  exact ⟨List.Perm.swap _ _ _, by decide⟩

/-- The tick obligations: a data packet waits and a byte is queued. -/
theorem witness_tick :
    let s := { withRings wrappedRing oneRing with link := linkWith dataFrame }
    s.par.Legal ∧ s.rx.Ok s.par.capacity ∧ s.tx.Ok s.par.capacity ∧ s.par.contexts = .single ∧
      receivedPacket s ≠ none ∧ copiedCount s = 1 ∧ sentCount s = 1 := by decide

/-- `TickFrame`, and the statements of every operation that answers a next state. -/
theorem witness_tick_next :
    (after (exec .tick { withRings wrappedRing oneRing with link := linkWith dataFrame })).isSome
      = true := by decide

theorem witness_tickReadsNoConfiguration : (Activity.tickDrain 1 []).ofTick = true ∧
    (microStep { dual with tx := oneRing } (.tickDrain 1 [])).isSome = true := by decide

theorem witness_firstPacket : linkAtReset.available = false ∧
    linkAtReset.currentlyTransmitting = false := by decide

theorem witness_inboundAck :
    let s := { withRings oneRing drainedRing with link := linkWith ackFrame }
    s.par.Legal ∧ s.rx.Ok s.par.capacity ∧ s.tx.Ok s.par.capacity ∧ s.par.contexts = .single ∧
      ackFrame = wireBytes s.par.wireOrder 0 ++ [0, 0, s.par.flags.ack]
        ++ wireBytes s.par.wireOrder (BitVec.ofNat 16
          ((0 : Half).toNat + (0 : Byte).toNat + s.par.flags.ack.toNat)) ∧
      s.link.available = true ∧ s.link.recv = some ackFrame ∧ s.tx.head = s.tx.tail := by decide

/-- `StreamContractAfterReset`: from a state with bytes in both buffers. -/
theorem witness_afterReset : (withRings fullRing oneRing).par.Legal ∧
    ((after (exec .available (withRings fullRing oneRing).afterReset)).map fun t => t.rsp)
      = some 0 := by decide

/-- `DrainedBytesReachThePeer`: a sender that hears nothing, and one that receives in that tick. -/
theorem witness_drainedBytes_receiving :
    ((after (exec .tick { withRings drainedRing wrappedRing with link := linkWith ackFrame })).map
      fun t => t.tx.contents 4) = some [] := by decide

theorem witness_drainedBytes :
    let a := withRings drainedRing wrappedRing
    let b := withRings oneRing drainedRing
    a.par = b.par ∧ a.par.Legal ∧ a.par.contexts = .single ∧ a.rx.Ok a.par.capacity ∧
      a.tx.Ok a.par.capacity ∧ b.rx.Ok b.par.capacity ∧ b.tx.Ok b.par.capacity ∧
      a.link.available = false ∧ a.link.currentlyTransmitting = false ∧
      2 = min (a.occupied .tx) a.par.maxPayload ∧ 0 < 2 ∧ 2 ≤ b.freeSlots .rx := by decide

theorem witness_flush : (withRings wrappedRing oneRing).rx.Ok par4.capacity ∧
    (withRings wrappedRing oneRing).par.contexts = .single ∧
    (microStep { dual with rx := wrappedRing } .flushRead).isSome = true := by decide

theorem witness_streamOperations : isStreamOperation .flush = true ∧
    (after (exec .flush (withRings fullRing oneRing))).isSome = true := by decide

theorem witness_single : base.par.contexts = .single ∧ dual.par.contexts = .dual := by decide

/-- `OnlyFourTransceiverChannels`: a step that selects a channel. -/
theorem witness_channel :
    ((after (step { base with inputs := [.command .servicing 0x5303] })).map fun t =>
      decide (Event.link (.setChannel 40) ∈ t.trace)) = some true := by decide

/-- `StepKeepsTheInvariant`, `NoOperationFaults`, `SentFramesStayWithinTheMtu`: a good state, an
operation in progress, and a step. -/
def midDrain : State :=
  { dual with tx := wrappedRing, svc := some (.tickDrain 2 []), app := some .flushRead
              inputs := [.advance .servicing] }

theorem witness_inv : midDrain.Inv ∧ midDrain.SentFramesOk ∧
    (after (step midDrain)).isSome = true := by
  refine ⟨⟨by decide, by decide, by decide, fun h => (nomatch h), .inr (.inl rfl), fun a h => ?_⟩,
    fun _ _ h => (nomatch h), by decide⟩
  cases h
  exact ⟨by decide, by decide, by decide⟩

/-- `OperationsLeaveTheInputsAlone`: a step of the integrated block with `reset` released. -/
theorem witness_inputsAlone :
    let s := { base with inputs := [.command .servicing 0x4000] }
    s.resetLevel = false ∧ s.par.assembly = .integrated ∧ (after (step s)).isSome = true := by decide

theorem witness_seq : ((after (exec .tick { base with tx := oneRing, seq := 0xFFFF })).map
    fun t => t.seq) = some 0 := by decide

/-- `OnlyTheTickAdvancesSeq`: a step of each of its three cases changes `SEQ`: a reset, a tick that
wraps it under `single`, and its own atomic step under `dual`. -/
theorem witness_seq_steps :
    ((after (step { base with seq := 7, inputs := [.reset true] })).map fun t => t.seq) = some 0 ∧
    ((after (step { base with
      tx := oneRing, seq := 0xFFFF, inputs := [.command .servicing 0x4000] })).map
        fun t => t.seq) = some 0 ∧
    ((after (step { dual with
      seq := 7, svc := some (.tickSeq packetA), inputs := [.advance .servicing] })).map
        fun t => t.seq) = some 8 := by decide

theorem witness_seq_inv : ({ base with seq := 7, inputs := [.reset true] } : State).Inv ∧
    ({ dual with seq := 7, svc := some (.tickSeq packetA), inputs := [.advance .servicing] } :
      State).Inv := by
  refine ⟨⟨by decide, by decide, by decide, fun _ => ⟨rfl, rfl⟩, .inl rfl, fun _ h => nomatch h⟩,
    ⟨by decide, by decide, by decide, fun h => (nomatch h), .inl rfl, fun a h => ?_⟩⟩
  cases h
  show 1 ≤ 25
  decide

theorem witness_cfg : ((after (exec (.setMode .scan) base)).map fun t => decide (t.cfg ≠ base.cfg))
    = some true := by decide

/-- `dual` with the servicing context at this step. -/
def servicingAt (a : Activity) : State := { dual with svc := some a, inputs := [.advance .servicing] }

/-- `OnlyConfigurationWritesCfg`: a step of each of its six cases changes `CFG`. -/
theorem witness_cfg_steps :
    let active : Cfg := ⟨.active, .slow, .low, .ch1⟩
    ((after (step { base with cfg := active, inputs := [.reset true] })).map fun t => t.cfg)
      = some cfgDefaults ∧
    ((after (step { dual with inputs := [.command .servicing 0x5001] })).map fun t => t.cfg)
      = some active ∧
    ((after (step (servicingAt (.cfgBiteRate .fast)))).map fun t => t.cfg)
      = some ⟨.idle, .fast, .low, .ch1⟩ ∧
    ((after (step (servicingAt (.cfgPower .max)))).map fun t => t.cfg)
      = some ⟨.idle, .slow, .max, .ch1⟩ ∧
    ((after (step (servicingAt (.cfgChannel .ch3)))).map fun t => t.cfg)
      = some ⟨.idle, .slow, .low, .ch3⟩ ∧
    ((after (step { servicingAt .initDefaults with cfg := active })).map fun t => t.cfg)
      = some cfgDefaults := by decide

theorem witness_cfg_inv : (servicingAt (.cfgPower .max)).Inv :=
  ⟨by decide, by decide, by decide, fun h => (nomatch h), .inl rfl, fun a h => by cases h; trivial⟩

/-- `NoOperationFaults`: each of its refusals is met. -/
theorem witness_refusals :
    ([{ base with resetLevel := true, inputs := [.command .servicing 0x4000] },
      { base with inputs := [.command .servicing 0x6000] },
      { base with inputs := [.command .servicing 0x2400] },
      { dual with inputs := [.command .application 0x4000] },
      { base with inputs := [.side []] },
      { base with inputs := [.pins true] }].map fun s => refusalOf (step s))
    = [some .resetAsserted, some (.reserved .unit), some .notReachable, some .roleViolation,
      some .notReachable, some .strapHeld] := by decide

theorem witness_absorbed : Condition.txFull ∈ conditionsOf (.write 1) (withRings oneRing fullRing) ∧
    Condition.noData ∈ conditionsOf (.rbReadByte .tx) (withRings oneRing drainedRing) ∧
    Condition.noData ∈ conditionsOf .read (withRings drainedRing oneRing) ∧
    Condition.tooLong ∈ conditionsOf .pcEncode
      (side ([0, 0, 26, 0, 0] ++ List.replicate 26 0 ++ [0, 0])) ∧
    Condition.configPins ∈ conditionsOf .init { base with pinsValid := false } ∧
    Condition.configLink ∈ conditionsOf .init base := by decide

/-- A valid packet of three bytes, more than `wrappedRing` has room for. -/
def packet3 : Packet :=
  { sequenceNumber := 0, streamId := 0, flags := 0, payload := [1, 2, 3], checksum := 9 }

/-- `AbsorbedConditionsChangeNothing`: every label is met by an atomic step under `dual` (R227). -/
theorem witness_microConditions :
    microConditions dual .tickRecv = [.recvFailed] ∧
    microConditions dual (.tickParse [1]) = [.malformed] ∧
    microConditions dual (.tickValidate packetA) = [] ∧
    microConditions dual (.tickValidate { packetA with checksum := 0 }) = [.checksum] ∧
    microConditions { dual with rx := wrappedRing } (.tickFreeSlots packet3) = [.rxTrunc] ∧
    microConditions { dual with rx := drainedRing } (.tickFreeSlots packet3) = [] ∧
    microConditions dual (.tickAckSend ackFrame) = [.sendDeclined] ∧
    microConditions dual (.tickSend ackFrame) = [.sendDeclined] ∧
    microConditions dual .flushRead = [.noData] ∧
    microConditions { dual with pinsValid := false } .initLink = [.configPins] ∧
    microConditions dual .initLink = [.configLink] := by decide

/-- The labels of a step: a `flush` under `dual` meets `E_NO_DATA` at the read that finds `RX` empty and
not as it is issued; under `single` it does in its one step; a refused command meets nothing. -/
theorem test_stepConditions :
    ([{ dual with rx := wrappedRing, inputs := [.command .application 0x3500] },
      { dual with rx := wrappedRing, app := some .flushRead, inputs := [.advance .application] },
      { dual with rx := drainedRing, app := some .flushRead, inputs := [.advance .application] },
      { base with inputs := [.command .application 0x3500] },
      { base with tx := fullRing, inputs := [.command .application 0x3301] },
      { base with tx := fullRing, resetLevel := true, inputs := [.command .application 0x3301] }].map
      stepConditions) = [[], [], [.noData], [.noData], [.txFull], []] := by decide

/-- The labels a context's steps meet until its operation returns, in at most `k` of them. -/
def conditionsUntilReturn (r : Role) : Nat → State → List Condition
  | 0, _ => []
  | k + 1, s =>
    s.advanceConditions r ++
      match after (s.advance r) with
      | some t => if (t.running r).isNone then [] else conditionsUntilReturn r k t
      | none => []

/-- A tick that nothing interrupts meets under `dual`, step by step, what it meets as one atomic step: a
copy cut short, then a declined ACK and a declined data packet (R229: independent). -/
theorem test_tickConditions :
    let s := { withRings wrappedRing oneRing with
      link := linkWith (serialize par4.wireOrder packet3) }
    conditionsOf .tick s = [.rxTrunc, .sendDeclined, .sendDeclined] ∧
    conditionsUntilReturn .servicing 20
      { s.withContexts .dual with svc := some .tickAvailable } = conditionsOf .tick s := by decide

theorem witness_composite : compositeOf .tick = some (.servicing, .tickAvailable) ∧
    compositeOf .flush = some (.application, .flushRead) ∧ dual.par.contexts = .dual ∧
    dual.running .servicing = none := by decide

theorem inv_dual (rx tx : RingBuffer) (h1 : rx.Ok 4) (h2 : tx.Ok 4) :
    ({ dual with rx := rx, tx := tx } : State).Inv :=
  ⟨legal_par4, h1, h2, fun _ => ⟨rfl, rfl⟩, .inl rfl, fun _ h => nomatch h⟩

/-- `UninterruptedProgramEqualsAtomicStep`: a `flush` with two bytes to discard. -/
theorem witness_uninterrupted :
    ({ dual with rx := wrappedRing, tx := fullRing } : State).Inv ∧
    ((after (advanceTimes .application 4
        { dual with rx := wrappedRing, tx := fullRing, app := some .flushRead })).map
      fun t => (t.rx.tail, t.app)) = some (0, none) :=
  ⟨inv_dual _ _ ok_wrapped ok_full, by decide⟩

theorem witness_applicationStep : midDrain.Inv ∧
    (after (step { midDrain with inputs := [.advance .application] })).isSome = true ∧
    (after (step { dual with inputs := [.command .application 0x3341] })).isSome = true :=
  ⟨witness_inv.1, by decide, by decide⟩

theorem witness_servicingStep : midDrain.Inv ∧ (after (step midDrain)).isSome = true ∧
    (after (step { dual with inputs := [.command .servicing 0x4000] })).isSome = true :=
  ⟨witness_inv.1, by decide, by decide⟩

/-- `CopyAndDrainNeverFallShort`: the last byte that fits, and the last byte to drain. -/
theorem witness_copy : ({ dual with rx := wrappedRing, svc := some (.tickCopy packetA [0x41]) } :
    State).Inv := by
  refine ⟨by decide, by decide, by decide, fun h => (nomatch h), .inl rfl, fun a h => ?_⟩
  cases h
  show 1 ≤ State.freeSlots { dual with rx := wrappedRing, svc := some (.tickCopy packetA [0x41]) } .rx
  decide

theorem witness_drain : ({ dual with tx := oneRing, svc := some (.tickDrain 1 [0x40]) } :
    State).Inv := by
  refine ⟨by decide, by decide, by decide, fun h => (nomatch h), .inl rfl, fun a h => ?_⟩
  cases h
  exact ⟨by decide, by decide, by decide⟩

end Sys2Proof.Tests
end

/-! PROOFS of the encoding statements (R91 to R97). `encode` and `decode` are inverse to each other, the
well-formed words are the image of `encode`, and any two rows differ in a bit of `unit` or `op`. -/

namespace Sys2Proof

/-! ## The codes of the enumerations (R93, R97) -/

theorem modeOfCode_eq_some_iff {c : BitVec 2} {m : Mode} : modeOfCode c = some m ↔ modeCode m = c := by
  revert c
  cases m <;> decide

/-- Code 3 is the only code without a mode (R95). -/
theorem modeOfCode_eq_none_iff {c : BitVec 2} : modeOfCode c = none ↔ c = 3 := by
  revert c
  decide

@[simp] theorem biteRateCode_biteRateOfCode (c : BitVec 2) : biteRateCode (biteRateOfCode c) = c := by
  revert c
  decide

@[simp] theorem biteRateOfCode_biteRateCode (r : BiteRate) : biteRateOfCode (biteRateCode r) = r := by
  cases r <;> rfl

@[simp] theorem powerCode_powerOfCode (c : BitVec 2) : powerCode (powerOfCode c) = c := by
  revert c
  decide

@[simp] theorem powerOfCode_powerCode (p : Power) : powerOfCode (powerCode p) = p := by
  cases p <;> rfl

@[simp] theorem channelCode_channelOfCode (c : BitVec 2) : channelCode (channelOfCode c) = c := by
  revert c
  decide

@[simp] theorem channelOfCode_channelCode (c : Channel) : channelOfCode (channelCode c) = c := by
  cases c <;> rfl

/-! ## The operand of a setter: a code in `d[1:0]` and zeros above it (R93) -/

/-- The command word of a setter of the configuration unit with code `c` (R92, R93). -/
def setterWord (op : BitVec 4) (c : BitVec 2) : Half := commandWord 5 op (c.setWidth 8)

@[simp] theorem unitField_setterWord (o : BitVec 4) (c : BitVec 2) : unitField (setterWord o c) = 5 :=
  unitField_commandWord ..

@[simp] theorem opField_setterWord (o : BitVec 4) (c : BitVec 2) : opField (setterWord o c) = o :=
  opField_commandWord ..

@[simp] theorem codeField_setterWord (o : BitVec 4) (c : BitVec 2) : codeField (setterWord o c) = c := by
  apply BitVec.eq_of_toNat_eq
  have := c.isLt
  simp only [codeField, setterWord, BitVec.extractLsb'_toNat, toNat_commandWord, BitVec.toNat_setWidth,
    Nat.shiftRight_zero]
  omega

theorem toNat_highOperand (w : Half) : (w.extractLsb' 2 6).toNat = w.toNat / 4 % 64 := by
  simp only [BitVec.extractLsb'_toNat, Nat.shiftRight_eq_div_pow]

/-- `d[7:2]` is 0 exactly when `d` is the code and nothing else. -/
theorem highOperand_eq_zero_iff (w : Half) :
    w.extractLsb' 2 6 = 0 ↔ operandField w = (codeField w).setWidth 8 := by
  have hcode : (codeField w).toNat = w.toNat % 4 := by simp [codeField]
  rw [BitVec.toNat_eq, BitVec.toNat_eq, toNat_highOperand, toNat_operandField, BitVec.toNat_setWidth, hcode]
  change _ = 0 ↔ _
  omega

/-! ## What the checks of the decoder accept (R95) -/

theorem decodeNoOperand_eq_ok_iff {w : Half} {i j : Instr} :
    decodeNoOperand w i = .ok j ↔ operandField w = 0 ∧ i = j := by
  unfold decodeNoOperand
  split
  next hd => simp [hd]
  next hd => exact iff_of_false (fun h => nomatch h) fun h => hd h.1

theorem decodeSetter_eq_ok_iff {w : Half} {d : Decoded} {i : Instr} :
    decodeSetter w d = .ok i ↔ operandField w = (codeField w).setWidth 8 ∧ d = .ok i := by
  rw [← highOperand_eq_zero_iff]
  unfold decodeSetter
  split
  next hd => simp [hd]
  next hd => exact iff_of_false (fun h => nomatch h) fun h => hd h.1

theorem decodeSetMode_eq_ok_iff {w : Half} {i : Instr} :
    decodeSetMode w = .ok i ↔ ∃ m, i = .setMode m ∧ modeCode m = codeField w := by
  simp only [decodeSetMode, ← modeOfCode_eq_some_iff]
  cases modeOfCode (codeField w) with
  | none => simp
  | some m => simp [eq_comm]

@[simp] theorem decodeNoOperand_commandWord (u o : BitVec 4) (i : Instr) :
    decodeNoOperand (commandWord u o 0#8) i = .ok i :=
  decodeNoOperand_eq_ok_iff.2 ⟨operandField_commandWord .., rfl⟩

@[simp] theorem decodeSetter_setterWord (o : BitVec 4) (c : BitVec 2) (d : Decoded) :
    decodeSetter (setterWord o c) d = d := by
  have hd : (setterWord o c).extractLsb' 2 6 = 0 := by
    rw [highOperand_eq_zero_iff, codeField_setterWord]
    exact operandField_commandWord ..
  exact if_pos hd

@[simp] theorem decodeSetMode_setterWord (o : BitVec 4) (m : Mode) :
    decodeSetMode (setterWord o (modeCode m)) = .ok (.setMode m) :=
  decodeSetMode_eq_ok_iff.2 ⟨m, rfl, (codeField_setterWord ..).symm⟩

/-! ## Decoding by unit (R92) -/

@[simp] theorem decode_ringWord (b : Buf) (o : BitVec 4) (d : Byte) :
    decode (commandWord (ringUnit b) o d) = decodeRing b (commandWord (ringUnit b) o d) := by
  cases b <;> simp [decode, ringUnit]

@[simp] theorem decode_codecWord (o : BitVec 4) (d : Byte) :
    decode (commandWord 2#4 o d) = decodeCodec (commandWord 2#4 o d) := by
  simp [decode]

@[simp] theorem decode_streamWord (o : BitVec 4) (d : Byte) :
    decode (commandWord 3#4 o d) = decodeStream (commandWord 3#4 o d) := by
  simp [decode]

@[simp] theorem decode_tickWord (o : BitVec 4) (d : Byte) :
    decode (commandWord 4#4 o d) = decodeTick (commandWord 4#4 o d) := by
  simp [decode]

@[simp] theorem decode_configWord (o : BitVec 4) (d : Byte) :
    decode (commandWord 5#4 o d) = decodeConfig (commandWord 5#4 o d) := by
  simp [decode]

@[simp] theorem decode_setterWord (o : BitVec 4) (c : BitVec 2) :
    decode (setterWord o c) = decodeConfig (setterWord o c) :=
  decode_configWord ..

/-- The setters' command words by their name. -/
theorem encode_setMode (m : Mode) : encode (.setMode m) = setterWord 0 (modeCode m) := rfl

theorem encode_setBiteRate (r : BiteRate) : encode (.setBiteRate r) = setterWord 1 (biteRateCode r) := rfl

theorem encode_setPower (p : Power) : encode (.setPower p) = setterWord 2 (powerCode p) := rfl

theorem encode_setChannel (c : Channel) : encode (.setChannel c) = setterWord 3 (channelCode c) := rfl

/-- Settles O1, by cases on the operation: its unit selects the decoder of the unit, whose operand check
the encoder's operand passes. -/
theorem decodeInvertsEncode : Obligations.DecodeInvertsEncode := by
  intro i
  cases i with
  | rbStore | rbReadByte | rbPeek | rbOccupied | rbFreeSlots => simp [encode, decodeRing]
  | pcChecksum | pcEncode | pcSerialize | pcParse | pcValidate => simp [encode, decodeCodec]
  | available | read | peek | write | availableForWrite | flush => simp [encode, decodeStream]
  | tick => simp [encode, decodeTick]
  | setMode m => simp [encode_setMode, decodeConfig]
  | setBiteRate r => simp [encode_setBiteRate, decodeConfig]
  | setPower p => simp [encode_setPower, decodeConfig]
  | setChannel c => simp [encode_setChannel, decodeConfig]
  | init => simp [encode, decodeConfig]

/-! ## A word that decodes is the command word of what it decodes to -/

section Inversion

variable {w : Half} {i j : Instr} {u o : BitVec 4}

/-- Words with the same three fields are equal (R91). -/
theorem word_eq_iff_fields {v : Half} : w = v ↔
    unitField w = unitField v ∧ opField w = opField v ∧ operandField w = operandField v := by
  refine ⟨fun h => h ▸ ⟨rfl, rfl, rfl⟩, fun ⟨hu, ho, hd⟩ => ?_⟩
  rw [← commandWord_fields w, hu, ho, hd, commandWord_fields]

theorem commandWord_of_fields {d : Byte} (hu : unitField w = u) (ho : (opField w).toNat = o.toNat)
    (hd : operandField w = d) : commandWord u o d = w := by
  rw [← hu, ← BitVec.eq_of_toNat_eq ho, ← hd, commandWord_fields]

theorem encode_of_decodeNoOperand (hj : encode j = commandWord u o 0) (hu : unitField w = u)
    (ho : (opField w).toNat = o.toNat) (h : decodeNoOperand w j = .ok i) : encode i = w := by
  obtain ⟨hd, rfl⟩ := decodeNoOperand_eq_ok_iff.1 h
  rw [hj, commandWord_of_fields hu ho hd]

theorem encode_of_decodeSetter {d : Decoded} (hd : d = .ok i → encode i = setterWord o (codeField w))
    (hu : unitField w = 5) (ho : (opField w).toNat = o.toNat) (h : decodeSetter w d = .ok i) :
    encode i = w := by
  obtain ⟨hcode, hi⟩ := decodeSetter_eq_ok_iff.1 h
  rw [hd hi]
  exact commandWord_of_fields hu ho hcode

theorem encode_of_decodeSetMode (h : decodeSetMode w = .ok i) :
    encode i = setterWord 0 (codeField w) := by
  obtain ⟨m, rfl, hm⟩ := decodeSetMode_eq_ok_iff.1 h
  rw [encode_setMode, hm]

theorem encode_of_decodeRing {b : Buf} (hu : unitField w = ringUnit b) (h : decodeRing b w = .ok i) :
    encode i = w := by
  unfold decodeRing at h
  split at h
  next ho =>
    cases h
    exact commandWord_of_fields hu ho rfl
  next ho => exact encode_of_decodeNoOperand (o := 1) rfl hu ho h
  next ho => exact encode_of_decodeNoOperand (o := 2) rfl hu ho h
  next ho => exact encode_of_decodeNoOperand (o := 3) rfl hu ho h
  next ho => exact encode_of_decodeNoOperand (o := 4) rfl hu ho h
  next => cases h

theorem encode_of_decodeCodec (hu : unitField w = 2) (h : decodeCodec w = .ok i) : encode i = w := by
  unfold decodeCodec at h
  split at h
  next ho => exact encode_of_decodeNoOperand (o := 0) rfl hu ho h
  next ho => exact encode_of_decodeNoOperand (o := 1) rfl hu ho h
  next ho => exact encode_of_decodeNoOperand (o := 2) rfl hu ho h
  next ho => exact encode_of_decodeNoOperand (o := 3) rfl hu ho h
  next ho => exact encode_of_decodeNoOperand (o := 4) rfl hu ho h
  next => cases h

theorem encode_of_decodeStream (hu : unitField w = 3) (h : decodeStream w = .ok i) : encode i = w := by
  unfold decodeStream at h
  split at h
  next ho => exact encode_of_decodeNoOperand (o := 0) rfl hu ho h
  next ho => exact encode_of_decodeNoOperand (o := 1) rfl hu ho h
  next ho => exact encode_of_decodeNoOperand (o := 2) rfl hu ho h
  next ho =>
    cases h
    exact commandWord_of_fields hu ho rfl
  next ho => exact encode_of_decodeNoOperand (o := 4) rfl hu ho h
  next ho => exact encode_of_decodeNoOperand (o := 5) rfl hu ho h
  next => cases h

theorem encode_of_decodeTick (hu : unitField w = 4) (h : decodeTick w = .ok i) : encode i = w := by
  unfold decodeTick at h
  split at h
  next ho => exact encode_of_decodeNoOperand (o := 0) rfl hu ho h
  next => cases h

theorem encode_of_decodeConfig (hu : unitField w = 5) (h : decodeConfig w = .ok i) : encode i = w := by
  unfold decodeConfig at h
  split at h
  next ho => exact encode_of_decodeSetter (o := 0) encode_of_decodeSetMode hu ho h
  next ho =>
    refine encode_of_decodeSetter (o := 1) (fun hi => ?_) hu ho h
    cases hi
    rw [encode_setBiteRate, biteRateCode_biteRateOfCode]
  next ho =>
    refine encode_of_decodeSetter (o := 2) (fun hi => ?_) hu ho h
    cases hi
    rw [encode_setPower, powerCode_powerOfCode]
  next ho =>
    refine encode_of_decodeSetter (o := 3) (fun hi => ?_) hu ho h
    cases hi
    rw [encode_setChannel, channelCode_channelOfCode]
  next ho => exact encode_of_decodeNoOperand (o := 4) rfl hu ho h
  next => cases h

end Inversion

/-- Settles O2, by the unit that decoded the word. -/
theorem encodeInvertsDecode : Obligations.EncodeInvertsDecode := by
  intro w i h
  unfold decode at h
  split at h
  next hu => exact encode_of_decodeRing (b := .rx) (BitVec.eq_of_toNat_eq hu) h
  next hu => exact encode_of_decodeRing (b := .tx) (BitVec.eq_of_toNat_eq hu) h
  next hu => exact encode_of_decodeCodec (BitVec.eq_of_toNat_eq hu) h
  next hu => exact encode_of_decodeStream (BitVec.eq_of_toNat_eq hu) h
  next hu => exact encode_of_decodeTick (BitVec.eq_of_toNat_eq hu) h
  next hu => exact encode_of_decodeConfig (BitVec.eq_of_toNat_eq hu) h
  next => cases h

/-- A word decodes to the operation whose command word it is, and to no other. -/
theorem decode_eq_ok_iff {w : Half} {i : Instr} : decode w = .ok i ↔ encode i = w :=
  ⟨encodeInvertsDecode w i, fun h => h ▸ decodeInvertsEncode i⟩

/-! ## The rows of the opcode map and the words of each (R92, R95) -/

theorem wellFormedWord_encode (i : Instr) : wellFormedWord (encode i) = true := by
  cases i with
  | rbStore b d => exact Laws.WordIsWellFormed.rbStore b d
  | rbReadByte b => exact Laws.WordIsWellFormed.rbReadByte b
  | rbPeek b => exact Laws.WordIsWellFormed.rbPeek b
  | rbOccupied b => exact Laws.WordIsWellFormed.rbOccupied b
  | rbFreeSlots b => exact Laws.WordIsWellFormed.rbFreeSlots b
  | pcChecksum => exact Laws.WordIsWellFormed.pcChecksum
  | pcEncode => exact Laws.WordIsWellFormed.pcEncode
  | pcSerialize => exact Laws.WordIsWellFormed.pcSerialize
  | pcParse => exact Laws.WordIsWellFormed.pcParse
  | pcValidate => exact Laws.WordIsWellFormed.pcValidate
  | available => exact Laws.WordIsWellFormed.available
  | read => exact Laws.WordIsWellFormed.read
  | peek => exact Laws.WordIsWellFormed.peek
  | write d => exact Laws.WordIsWellFormed.write d
  | availableForWrite => exact Laws.WordIsWellFormed.availableForWrite
  | flush => exact Laws.WordIsWellFormed.flush
  | tick => exact Laws.WordIsWellFormed.tick
  | setMode m => exact Laws.WordIsWellFormed.setMode m
  | setBiteRate r => exact Laws.WordIsWellFormed.setBiteRate r
  | setPower p => exact Laws.WordIsWellFormed.setPower p
  | setChannel c => exact Laws.WordIsWellFormed.setChannel c
  | init => exact Laws.WordIsWellFormed.init

theorem wellFormedWord_iff {w : Half} : wellFormedWord w = true ↔
    (∃ r ∈ opcodeRows, r.admits w = true) ∧ w ∉ constrainedWords := by
  simp [wellFormedWord]

theorem TableRow.admits_iff {r : TableRow} {w : Half} : r.admits w = true ↔ w &&& r.mask = r.pattern := by
  simp [TableRow.admits]

theorem unitField_and (w m : Half) : unitField (w &&& m) = unitField w &&& unitField m :=
  BitVec.extractLsb'_and

theorem opField_and (w m : Half) : opField (w &&& m) = opField w &&& opField m :=
  BitVec.extractLsb'_and

theorem operandField_and (w m : Half) : operandField (w &&& m) = operandField w &&& operandField m :=
  BitVec.extractLsb'_and

/-- A row admits a word field by field. -/
theorem admits_iff_fields {name : String} {um om u o : BitVec 4} {dm d : Byte} {w : Half} :
    TableRow.admits ⟨name, commandWord um om dm, commandWord u o d⟩ w = true ↔
      unitField w &&& um = u ∧ opField w &&& om = o ∧ operandField w &&& dm = d := by
  rw [TableRow.admits_iff, word_eq_iff_fields]
  simp only [unitField_and, opField_and, operandField_and, unitField_commandWord, opField_commandWord,
    operandField_commandWord]

/-- Every word the row admits and no constraint reserves is the command word of an operation. -/
def TableRow.EncodedBy (r : TableRow) : Prop :=
  ∀ w, w ∉ constrainedWords → r.admits w = true → ∃ i, encode i = w

section RowShapes

variable {name : String} {pattern : Half} {u o : BitVec 4}

/-- With the buffer select bit masked out, unit 0 stands for the units of both buffers (R92). -/
theorem exists_ringUnit_of_and_eq_zero {u : BitVec 4} (h : u &&& 0xE = 0) : ∃ b, ringUnit b = u := by
  have hu : u = 0 ∨ u = 1 := by
    revert u
    decide
  obtain rfl | rfl := hu
  · exact ⟨.rx, rfl⟩
  · exact ⟨.tx, rfl⟩

theorem exists_code_of_and_eq_zero {d : Byte} (h : d &&& 0xFC = 0) : ∃ c : BitVec 2, c.setWidth 8 = d := by
  refine ⟨d.setWidth 2, ?_⟩
  revert d
  decide

theorem and_fullField (x : BitVec 4) : x &&& 0xF = x := BitVec.and_allOnes

theorem and_fullOperand (d : Byte) : d &&& 0xFF = d := BitVec.and_allOnes

/-- A row whose mask is full: one word, no operand. -/
theorem encodedBy_exactRow {i : Instr} (hi : encode i = pattern) :
    TableRow.EncodedBy ⟨name, 0xFFFF, pattern⟩ := by
  intro w _ h
  have hw : w &&& 0xFFFF = pattern := TableRow.admits_iff.1 h
  exact ⟨i, by rw [hi, ← hw]; exact BitVec.and_allOnes⟩

/-- A row of a RingBuffer operation without an operand. -/
theorem encodedBy_ringRow {f : Buf → Instr} (hf : ∀ b, encode (f b) = commandWord (ringUnit b) o 0) :
    TableRow.EncodedBy ⟨name, commandWord 0xE 0xF 0xFF, commandWord 0 o 0⟩ := by
  intro w _ h
  obtain ⟨hu, rfl, hd⟩ := admits_iff_fields.1 h
  obtain ⟨b, hb⟩ := exists_ringUnit_of_and_eq_zero hu
  rw [and_fullOperand] at hd
  exact ⟨f b, by rw [hf, hb, and_fullField, ← hd, commandWord_fields]⟩

/-- A row of a RingBuffer operation with an operand byte. -/
theorem encodedBy_ringByteRow {f : Buf → Byte → Instr}
    (hf : ∀ b d, encode (f b d) = commandWord (ringUnit b) o d) :
    TableRow.EncodedBy ⟨name, commandWord 0xE 0xF 0, commandWord 0 o 0⟩ := by
  intro w _ h
  obtain ⟨hu, rfl, -⟩ := admits_iff_fields.1 h
  obtain ⟨b, hb⟩ := exists_ringUnit_of_and_eq_zero hu
  exact ⟨f b (operandField w), by rw [hf, hb, and_fullField, commandWord_fields]⟩

/-- A row of another unit with an operand byte. -/
theorem encodedBy_byteRow {f : Byte → Instr} (hf : ∀ d, encode (f d) = commandWord u o d) :
    TableRow.EncodedBy ⟨name, commandWord 0xF 0xF 0, commandWord u o 0⟩ := by
  intro w _ h
  obtain ⟨rfl, rfl, -⟩ := admits_iff_fields.1 h
  exact ⟨f (operandField w), by rw [hf, and_fullField, and_fullField, commandWord_fields]⟩

/-- A row of a setter: the words with a code, of which a constraint may reserve some. -/
theorem encodedBy_setterRow
    (hf : ∀ c, setterWord o c ∉ constrainedWords → ∃ i, encode i = setterWord o c) :
    TableRow.EncodedBy ⟨name, commandWord 0xF 0xF 0xFC, commandWord 5 o 0⟩ := by
  intro w hw h
  obtain ⟨hu, ho, hd⟩ := admits_iff_fields.1 h
  rw [and_fullField] at hu ho
  obtain ⟨c, hc⟩ := exists_code_of_and_eq_zero hd
  have hword : setterWord o c = w := commandWord_of_fields hu (congrArg _ ho) hc.symm
  exact hword ▸ hf c (hword ▸ hw)

end RowShapes

/-- The mode code without a mode is the code of the reserved word (R95). -/
theorem exists_encode_eq_setModeWord {c : BitVec 2} (h : setterWord 0 c ∉ constrainedWords) :
    ∃ i, encode i = setterWord 0 c := by
  cases hm : modeOfCode c with
  | none =>
    have hc : c = 3 := modeOfCode_eq_none_iff.1 hm
    subst hc
    exact absurd (by decide) h
  | some m => exact ⟨.setMode m, by rw [encode_setMode, modeOfCode_eq_some_iff.1 hm]⟩

theorem encodedBy_ringRows : ∀ r ∈ ringRows, r.EncodedBy := by
  simp only [ringRows, List.forall_mem_cons]
  exact ⟨encodedBy_ringByteRow (o := 0) (f := .rbStore) fun _ _ => rfl,
    encodedBy_ringRow (o := 1) (f := .rbReadByte) fun _ => rfl,
    encodedBy_ringRow (o := 2) (f := .rbPeek) fun _ => rfl,
    encodedBy_ringRow (o := 3) (f := .rbOccupied) fun _ => rfl,
    encodedBy_ringRow (o := 4) (f := .rbFreeSlots) fun _ => rfl, List.forall_mem_nil _⟩

theorem encodedBy_codecRows : ∀ r ∈ codecRows, r.EncodedBy := by
  simp only [codecRows, List.forall_mem_cons]
  exact ⟨encodedBy_exactRow (i := .pcChecksum) rfl, encodedBy_exactRow (i := .pcEncode) rfl,
    encodedBy_exactRow (i := .pcSerialize) rfl, encodedBy_exactRow (i := .pcParse) rfl,
    encodedBy_exactRow (i := .pcValidate) rfl, List.forall_mem_nil _⟩

theorem encodedBy_streamRows : ∀ r ∈ streamRows, r.EncodedBy := by
  simp only [streamRows, List.forall_mem_cons]
  exact ⟨encodedBy_exactRow (i := .available) rfl, encodedBy_exactRow (i := .read) rfl,
    encodedBy_exactRow (i := .peek) rfl, encodedBy_byteRow (u := 3) (o := 3) (f := .write) fun _ => rfl,
    encodedBy_exactRow (i := .availableForWrite) rfl, encodedBy_exactRow (i := .flush) rfl,
    List.forall_mem_nil _⟩

theorem encodedBy_servicingRows : ∀ r ∈ servicingRows, r.EncodedBy := by
  simp only [servicingRows, List.forall_mem_cons]
  exact ⟨encodedBy_exactRow (i := .tick) rfl,
    encodedBy_setterRow (o := 0) fun _ => exists_encode_eq_setModeWord,
    encodedBy_setterRow (o := 1) fun c _ => ⟨.setBiteRate (biteRateOfCode c),
      by rw [encode_setBiteRate, biteRateCode_biteRateOfCode]⟩,
    encodedBy_setterRow (o := 2) fun c _ => ⟨.setPower (powerOfCode c),
      by rw [encode_setPower, powerCode_powerOfCode]⟩,
    encodedBy_setterRow (o := 3) fun c _ => ⟨.setChannel (channelOfCode c),
      by rw [encode_setChannel, channelCode_channelOfCode]⟩,
    encodedBy_exactRow (i := .init) rfl, List.forall_mem_nil _⟩

theorem encodedBy_opcodeRows : ∀ r ∈ opcodeRows, r.EncodedBy := by
  simp only [opcodeRows, List.forall_mem_append]
  exact ⟨⟨⟨encodedBy_ringRows, encodedBy_codecRows⟩, encodedBy_streamRows⟩, encodedBy_servicingRows⟩

/-- The well-formed words are the command words of the operations. -/
theorem wellFormedWord_iff_exists_encode {w : Half} :
    wellFormedWord w = true ↔ ∃ i, encode i = w := by
  constructor
  · intro h
    obtain ⟨⟨r, hr, hadmits⟩, hfree⟩ := wellFormedWord_iff.1 h
    exact encodedBy_opcodeRows r hr w hfree hadmits
  · rintro ⟨i, rfl⟩
    exact wellFormedWord_encode i

/-- Settles O3: both sides say that the word is some operation's command word. -/
theorem decodeAcceptsExactlyTheOpcodeMap : Obligations.DecodeAcceptsExactlyTheOpcodeMap := by
  intro w
  rw [wellFormedWord_iff_exists_encode]
  exact exists_congr fun _ => decode_eq_ok_iff

/-! ## No word is of two rows (R96) -/

/-- Two rows differ in a bit of `unit` or `op` that both masks test. -/
def TableRow.Distinguished (r r' : TableRow) : Prop :=
  (r.pattern &&& r'.mask) &&& 0xFF00 ≠ (r'.pattern &&& r.mask) &&& 0xFF00

/-- The reason R96 gives: no two rows share both `unit` and `op`. -/
theorem opcodeRows_pairwise_distinguished : opcodeRows.Pairwise TableRow.Distinguished := by
  unfold TableRow.Distinguished
  decide

theorem not_admits_both {r r' : TableRow} {w : Half} (hne : r.Distinguished r')
    (h : r.admits w = true) (h' : r'.admits w = true) : False := by
  have hmasks : (w &&& r.mask) &&& r'.mask = (w &&& r'.mask) &&& r.mask := by
    rw [BitVec.and_assoc, BitVec.and_comm r.mask, BitVec.and_assoc]
  apply hne
  rw [← TableRow.admits_iff.1 h, ← TableRow.admits_iff.1 h', hmasks]

theorem length_le_one_of_pairwise {α : Type} {R : α → α → Prop} {l : List α} (hl : l.Pairwise R)
    (hR : ∀ a ∈ l, ∀ b ∈ l, ¬ R a b) : l.length ≤ 1 := by
  match l with
  | [] => exact Nat.zero_le 1
  | [_] => exact Nat.le_refl 1
  | a :: b :: rest =>
    have hab : R a b := List.rel_of_pairwise_cons hl List.mem_cons_self
    exact absurd hab (hR a (by simp) b (by simp))

/-- Settles O4: two rows of the same word are not distinguished, and any two rows are. -/
theorem wordSelectsAtMostOneOperation : Obligations.WordSelectsAtMostOneOperation := by
  refine ⟨by decide, fun w => ?_⟩
  refine length_le_one_of_pairwise (opcodeRows_pairwise_distinguished.filter _) fun r hr r' hr' hne => ?_
  exact not_admits_both hne (List.mem_filter.1 hr).2 (List.mem_filter.1 hr').2

end Sys2Proof

/-! PROOFS of the RingBuffer statements (R111 to R118). `RingBuffer.Ok` is the invariant: every call
completes and keeps it, so a sequence of calls does, and occupancy is arithmetic on an `Ok` buffer. -/

namespace Sys2Proof.Machine

section Calls

variable {c : Nat} {r : RingBuffer}

/-- A `store` completes and keeps a buffer a buffer, full or not (R111, R112). -/
theorem RingBuffer.store_completes (h : r.Ok c) (b : Byte) :
    ∃ r', r.store c b = some r' ∧ r'.Ok c := by
  rcases RingBuffer.store_cases h b with ⟨-, hs⟩ | ⟨-, hs⟩
  · exact ⟨r, hs, h⟩
  · exact ⟨r.stored c b, hs, RingBuffer.stored_ok h b⟩

/-- A `readByte` completes and keeps a buffer a buffer, empty or not (R113). -/
theorem RingBuffer.readByte_completes (h : r.Ok c) :
    ∃ v r', r.readByte c = some (v, r') ∧ r'.Ok c := by
  rcases RingBuffer.readByte_cases h with ⟨-, hr⟩ | ⟨-, hr⟩
  · exact ⟨none, r, hr, h⟩
  · exact ⟨some (Memory.read r.buf r.tail), r.consumed c, hr, RingBuffer.consumed_ok h⟩

/-- A `peek` completes, empty or not (R115). -/
theorem RingBuffer.peek_completes (h : r.Ok c) : ∃ v, r.peek c = some v := by
  rcases RingBuffer.peek_cases h with ⟨-, hp⟩ | ⟨-, hp⟩
  · exact ⟨none, hp⟩
  · exact ⟨some (Memory.read r.buf r.tail), hp⟩

/-- Every sequence of calls runs to its end and keeps a buffer a buffer. -/
theorem ringAnswers_completes (calls : List RingCall) (h : r.Ok c) :
    ∃ answers r', ringAnswers c calls r = some (answers, r') ∧ r'.Ok c := by
  induction calls generalizing r with
  | nil => exact ⟨[], r, rfl, h⟩
  | cons call calls ih =>
    cases call with
    | store b =>
      obtain ⟨r₁, hs, h₁⟩ := RingBuffer.store_completes h b
      obtain ⟨answers, r', hrun, h'⟩ := ih h₁
      exact ⟨answers, r', by simp only [ringAnswers, hs, hrun], h'⟩
    | readByte =>
      obtain ⟨v, r₁, hr, h₁⟩ := RingBuffer.readByte_completes h
      obtain ⟨answers, r', hrun, h'⟩ := ih h₁
      exact ⟨v :: answers, r', by simp only [ringAnswers, hr, hrun, Option.map_some], h'⟩
    | peek =>
      obtain ⟨v, hp⟩ := RingBuffer.peek_completes h
      obtain ⟨answers, r', hrun, h'⟩ := ih h
      exact ⟨v :: answers, r', by simp only [ringAnswers, hp, hrun, Option.map_some], h'⟩

end Calls

end Sys2Proof.Machine

namespace Sys2Proof

open Sys2Proof.Machine

/-- Settles O18: the run ends in an `Ok` buffer, whose occupied and free slots share the `C - 1` usable
ones. -/
theorem occupiedAndFreeSlotsAddUp : Obligations.OccupiedAndFreeSlotsAddUp := by
  intro c r calls h
  obtain ⟨answers, r', hrun, hhead, -⟩ := ringAnswers_completes calls h
  have hsum : r'.occupied c + r'.freeSlots c = c - 1 := r'.occupied_add_freeSlots hhead
  exact ⟨answers, r', hrun, hsum, Nat.le.intro hsum⟩

end Sys2Proof

/-! PROOFS of the PacketCodec statements about the round trip and the single-bit flips (R138 to R140).
The checksum is a sum over the frame in which every byte before the checksum field has a weight, 256 for
the high byte of `sequenceNumber` and 1 otherwise. An inverted bit changes one term of it, by more than 0
and less than 65536. -/

namespace Sys2Proof.Machine

/-! ## Inverting one bit -/

/-- Inverting a bit that is 0 adds its value. -/
theorem toNat_xor_twoPow_of_clear {b : Byte} {j : Nat} (hj : j < 8) (h : b.getLsbD j = false) :
    (b ^^^ BitVec.twoPow 8 j).toNat = b.toNat + 2 ^ j := by
  have hdisjoint : b &&& BitVec.twoPow 8 j = 0 := by simp [BitVec.and_twoPow, h]
  have hxor : b ^^^ BitVec.twoPow 8 j = b ||| BitVec.twoPow 8 j := by
    rw [BitVec.getLsbD_eq_getElem hj] at h
    ext i hi
    by_cases hij : i = j
    · subst hij
      simp [h]
    · simp [hij]
  rw [hxor, ← BitVec.add_eq_or_of_and_eq_zero _ _ hdisjoint,
    BitVec.toNat_add_of_and_eq_zero hdisjoint, BitVec.toNat_twoPow,
    Nat.mod_eq_of_lt (Nat.pow_lt_pow_right (by omega) hj)]

/-- Inverting a bit of a byte adds or subtracts its value. -/
theorem toNat_xor_twoPow_cases (b : Byte) {j : Nat} (hj : j < 8) :
    (b ^^^ BitVec.twoPow 8 j).toNat = b.toNat + 2 ^ j ∨
      (b ^^^ BitVec.twoPow 8 j).toNat + 2 ^ j = b.toNat := by
  cases h : b.getLsbD j with
  | false => exact .inl (toNat_xor_twoPow_of_clear hj h)
  | true =>
    have hclear : (b ^^^ BitVec.twoPow 8 j).getLsbD j = false := by simp [h, hj]
    have hback := toNat_xor_twoPow_of_clear hj hclear
    rw [BitVec.xor_assoc, BitVec.xor_self, BitVec.xor_zero] at hback
    exact .inr hback.symm

/-- The bytes `byte'` are the bytes `byte` with bit `j` of byte `k` inverted. -/
structure FlipsBit (byte byte' : Nat → Byte) (k j : Nat) : Prop where
  bit_lt : j < 8
  flipped : byte' k = byte k ^^^ BitVec.twoPow 8 j
  rest : ∀ i, i ≠ k → byte' i = byte i

/-- `flipBit` inverts the bit of the frame, and no other (R139). -/
theorem flipsBit_flipBit {f : List Byte} {k j : Nat} (hk : k < f.length) (hj : j < 8) :
    FlipsBit (fun i => f.getD i 0) (fun i => (flipBit f k j).getD i 0) k j where
  bit_lt := hj
  flipped := by simp [flipBit, List.getD_eq_getElem?_getD, hk]
  rest i hi := by simp [flipBit, List.getD_eq_getElem?_getD, List.getElem?_set_ne hi.symm]

@[simp] theorem length_flipBit (f : List Byte) (k j : Nat) : (flipBit f k j).length = f.length := by
  simp [flipBit]

theorem FlipsBit.ne {byte byte' : Nat → Byte} {k j : Nat} (h : FlipsBit byte byte' k j) :
    byte' k ≠ byte k := by
  intro heq
  have hcases := toNat_xor_twoPow_cases (byte k) h.bit_lt
  have hpos := Nat.two_pow_pos j
  rw [← h.flipped, heq] at hcases
  omega

/-! ## The checksum as a weighted sum over the bytes of the frame (R81, R131) -/

/-- What the byte at offset `k` counts in the checksum: the high byte of `sequenceNumber` counts 256. -/
def checksumWeight : WireOrder → Nat → Nat
  | .little, k => if k = 1 then 256 else 1
  | .big, k => if k = 0 then 256 else 1

theorem checksumWeight_bounds (o : WireOrder) (k : Nat) :
    1 ≤ checksumWeight o k ∧ checksumWeight o k ≤ 256 := by
  cases o <;> simp only [checksumWeight] <;> split <;> omega

theorem checksumWeight_of_two_le (o : WireOrder) {k : Nat} (hk : 2 ≤ k) : checksumWeight o k = 1 := by
  cases o <;> exact if_neg (by omega)

/-- The first `n` bytes, each with its weight. -/
def weightedBytes (o : WireOrder) (byte : Nat → Byte) (n : Nat) : Nat :=
  ∑ k ∈ Finset.range n, checksumWeight o k * (byte k).toNat

theorem toNat_append_bytes (a b : Byte) : (a ++ b : Half).toNat = 256 * a.toNat + b.toNat := by
  rw [BitVec.toNat_append, Nat.shiftLeft_eq, Nat.mul_comm, ← Nat.two_pow_add_eq_or_of_lt b.isLt]

/-- The `sequenceNumber` field counts its two bytes with their weights. -/
theorem toNat_ofWireBytes (o : WireOrder) (a b : Byte) :
    (ofWireBytes o a b).toNat = checksumWeight o 0 * a.toNat + checksumWeight o 1 * b.toNat := by
  cases o with
  | little => simp [ofWireBytes, checksumWeight, toNat_append_bytes, Nat.add_comm]
  | big => simp [ofWireBytes, checksumWeight, toNat_append_bytes]

theorem weightedBytes_header (o : WireOrder) (byte : Nat → Byte) :
    weightedBytes o byte 5 = (ofWireBytes o (byte 0) (byte 1)).toNat + (byte 2).toNat
      + (byte 3).toNat + (byte 4).toNat := by
  simp [weightedBytes, Finset.sum_range_succ, toNat_ofWireBytes, checksumWeight_of_two_le]

/-- The payload bytes count as they are. -/
theorem weightedBytes_payload (o : WireOrder) (byte : Nat → Byte) (n : Nat) :
    weightedBytes o byte (5 + n)
      = weightedBytes o byte 5 + ((bytesFrom byte 5 n).map BitVec.toNat).sum := by
  induction n with
  | zero => rfl
  | succ n ih =>
    have hlast : checksumWeight o (5 + n) = 1 := checksumWeight_of_two_le o (by omega)
    rw [← Nat.add_assoc, weightedBytes, Finset.sum_range_succ, ← weightedBytes, ih, hlast]
    simp [bytesFrom, List.range_succ, Nat.add_assoc]

/-- The checksum of the packet in a frame is the weighted sum of the bytes before the checksum field. -/
theorem sum_packetAt (o : WireOrder) (byte : Nat → Byte) :
    (packetAt o byte).sum = BitVec.ofNat 16 (weightedBytes o byte (5 + (byte 2).toNat)) := by
  have hlength : (packetAt o byte).length = byte 2 := by simp [Packet.length]
  rw [weightedBytes_payload, weightedBytes_header, Packet.sum, hlength]
  rfl

theorem weightedBytes_eq_add_erase (o : WireOrder) (byte : Nat → Byte) {n k : Nat} (hk : k < n) :
    weightedBytes o byte n = checksumWeight o k * (byte k).toNat
      + ∑ i ∈ (Finset.range n).erase k, checksumWeight o i * (byte i).toNat :=
  (Finset.add_sum_erase _ _ (Finset.mem_range.2 hk)).symm

/-! ## What an inverted bit does to the packet of a frame -/

section Flip

variable {o : WireOrder} {byte byte' : Nat → Byte} {k j : Nat}

/-- An inverted bit among the first `n` bytes changes their weighted sum modulo 65536: the change, up or
down, is the byte's weight times `2 ^ j`, at most `256 * 2 ^ 7` (R139). -/
theorem FlipsBit.weightedBytes_ne (h : FlipsBit byte byte' k j) {n : Nat} (hk : k < n) :
    BitVec.ofNat 16 (weightedBytes o byte' n) ≠ BitVec.ofNat 16 (weightedBytes o byte n) := by
  have hothers : ∑ i ∈ (Finset.range n).erase k, checksumWeight o i * (byte' i).toNat
      = ∑ i ∈ (Finset.range n).erase k, checksumWeight o i * (byte i).toNat :=
    Finset.sum_congr rfl fun i hi => by rw [h.rest i (Finset.ne_of_mem_erase hi)]
  obtain ⟨hw1, hw256⟩ := checksumWeight_bounds o k
  have hpos : 1 ≤ checksumWeight o k * 2 ^ j := Nat.mul_pos hw1 (Nat.two_pow_pos j)
  have hle : checksumWeight o k * 2 ^ j ≤ 256 * 2 ^ 7 :=
    Nat.mul_le_mul hw256 (Nat.pow_le_pow_right (by omega) (Nat.le_of_lt_succ h.bit_lt))
  rw [weightedBytes_eq_add_erase o byte' hk, weightedBytes_eq_add_erase o byte hk, hothers, h.flipped]
  intro heq
  have hmod := congrArg BitVec.toNat heq
  simp only [BitVec.toNat_ofNat] at hmod
  rcases toNat_xor_twoPow_cases (byte k) h.bit_lt with hup | hdown
  · rw [hup, Nat.mul_add] at hmod
    omega
  · rw [← hdown, Nat.mul_add] at hmod
    omega

/-- A bit before the checksum field and outside the `length` byte: the checksum carried stays and the sum
changes (R139). -/
theorem FlipsBit.sum_ne_checksum (h : FlipsBit byte byte' k j)
    (hvalid : (packetAt o byte).checksum = (packetAt o byte).sum) (hk2 : k ≠ 2)
    (hk : k < 5 + (byte 2).toNat) : (packetAt o byte').sum ≠ (packetAt o byte').checksum := by
  have hlength : byte' 2 = byte 2 := h.rest 2 hk2.symm
  have hcarried : (packetAt o byte').checksum = (packetAt o byte).checksum := by
    simp only [packetAt, hlength, h.rest (5 + (byte 2).toNat) (by omega),
      h.rest (6 + (byte 2).toNat) (by omega)]
  rw [hcarried, hvalid, sum_packetAt, sum_packetAt, hlength]
  exact h.weightedBytes_ne hk

/-- A bit of the checksum field: the sum stays and the checksum carried changes (R140). -/
theorem FlipsBit.sum_ne_checksum_of_checksumField (h : FlipsBit byte byte' k j)
    (hvalid : (packetAt o byte).checksum = (packetAt o byte).sum)
    (hk : 5 + (byte 2).toNat ≤ k) (hk' : k < 7 + (byte 2).toNat) :
    (packetAt o byte').sum ≠ (packetAt o byte').checksum := by
  have hlength : byte' 2 = byte 2 := h.rest 2 (by omega)
  have hsum : (packetAt o byte').sum = (packetAt o byte).sum := by
    rw [sum_packetAt, sum_packetAt, hlength]
    congr 1
    exact Finset.sum_congr rfl fun i hi => by rw [h.rest i (by have := Finset.mem_range.1 hi; omega)]
  intro heq
  have hfield := congrArg (wireBytes o) (heq.symm.trans (hsum.trans hvalid.symm))
  simp only [packetAt, wireBytes_ofWireBytes, hlength, List.cons.injEq, and_true] at hfield
  obtain ⟨hfirst, hsecond⟩ := hfield
  obtain rfl | rfl : k = 5 + (byte 2).toNat ∨ k = 6 + (byte 2).toNat := by omega
  · exact h.ne hfirst
  · exact h.ne hsecond

end Flip

/-! ## Parsing a frame (R134 to R136) -/

/-- A frame of the length its `length` field says parses, under either policy (R85, R135). -/
theorem parse_of_length {par : Params} {f : List Byte} (hm : (f.getD 2 0).toNat ≤ par.maxPayload)
    (hf : f.length = 7 + (f.getD 2 0).toNat) :
    parse par f = some (packetAt par.wireOrder fun k => f.getD k 0) := by
  have hpolicy : frameLengthOk par.frameLenPolicy f.length (f.getD 2 0).toNat = true := by
    cases par.frameLenPolicy <;> simp [frameLengthOk, hf]
  rcases parse_cases par f with ⟨hshort | hlong | hmismatch, -⟩ | ⟨-, -, -, hparse⟩
  · omega
  · omega
  · exact absurd hpolicy (Bool.eq_false_iff.1 hmismatch)
  · exact hparse

/-- Under `exact` a frame that parses has the length its `length` field says (R85). -/
theorem length_of_parse_exact {par : Params} {f : List Byte} {q : Packet}
    (he : par.frameLenPolicy = .exact) (h : parse par f = some q) :
    f.length = 7 + (f.getD 2 0).toNat ∧ q = packetAt par.wireOrder fun k => f.getD k 0 := by
  rcases parse_cases par f with ⟨-, hnone⟩ | ⟨-, -, hlen, hsome⟩
  · simp [hnone] at h
  · rw [he] at hlen
    exact ⟨by simpa [frameLengthOk] using hlen, Option.some.inj (h.symm.trans hsome)⟩

theorem validate_iff {p : Packet} : validate p = true ↔ p.sum = p.checksum := by
  simp [validate]

section Frame

variable {par : Params} {p : Packet}

/-- A payload that `encode` admits fits the one-byte `length` field. -/
theorem payload_length_lt (hl : par.Legal) (hp : p.payload.length ≤ par.maxPayload) :
    p.payload.length < 256 := by
  obtain ⟨-, -, hmax⟩ := Params.maxPayload_bounds hl
  omega

theorem toNat_lengthByte_serialize (o : WireOrder) (hp : p.payload.length < 256) :
    ((serialize o p).getD 2 0).toNat = p.payload.length := by
  rw [getD_serialize_length, Packet.length_toNat hp]

theorem packetAt_serialize (o : WireOrder) (hp : p.payload.length < 256) :
    packetAt o (fun k => (serialize o p).getD k 0) = p :=
  packetAt_of_frame hp fun _ _ => rfl

/-- A packet's frame parses back to the packet, whatever its checksum (R134, R135). -/
theorem parse_serialize (hl : par.Legal) (hp : p.payload.length ≤ par.maxPayload) :
    parse par (serialize par.wireOrder p) = some p := by
  have h256 := payload_length_lt hl hp
  have hlength := toNat_lengthByte_serialize par.wireOrder h256
  rw [parse_of_length (by omega) (by rw [length_serialize, hlength]), packetAt_serialize _ h256]

/-- Under `exact` no frame with a bit inverted before the checksum field is accepted: in the `length` byte
the frame's length no longer fits, elsewhere the sum no longer does (R139). -/
theorem acceptFrame_flipBit {k j : Nat} (hl : par.Legal) (he : par.frameLenPolicy = .exact)
    (hp : p.payload.length ≤ par.maxPayload) (hvalid : p.checksum = p.sum)
    (hk : k < 5 + p.payload.length) (hj : j < 8) :
    acceptFrame par (flipBit (serialize par.wireOrder p) k j) = none := by
  have h256 := payload_length_lt hl hp
  have hbyte := toNat_lengthByte_serialize par.wireOrder h256
  have hpacket := packetAt_serialize par.wireOrder h256
  have hflips : FlipsBit _ _ k j := flipsBit_flipBit (f := serialize par.wireOrder p)
    (by rw [length_serialize]; omega) hj
  rw [Option.eq_none_iff_forall_ne_some]
  intro q haccept
  obtain ⟨hparse, hq⟩ := acceptFrame_eq_some.1 haccept
  obtain ⟨hfits, rfl⟩ := length_of_parse_exact he hparse
  rw [length_flipBit, length_serialize] at hfits
  have hk2 : k ≠ 2 := by
    rintro rfl
    exact hflips.ne (BitVec.eq_of_toNat_eq (by omega))
  exact hflips.sum_ne_checksum (by rwa [hpacket]) hk2 (by rwa [hbyte]) (validate_iff.1 hq)

/-- A frame with a bit inverted in the checksum field parses, and its packet does not validate (R140). -/
theorem parse_flipBit_checksumField {k j : Nat} (hl : par.Legal)
    (hp : p.payload.length ≤ par.maxPayload) (hvalid : p.checksum = p.sum)
    (hk : 5 + p.payload.length ≤ k) (hk' : k < 7 + p.payload.length) (hj : j < 8) :
    ∃ q, parse par (flipBit (serialize par.wireOrder p) k j) = some q ∧ validate q = false := by
  have h256 := payload_length_lt hl hp
  have hbyte := toNat_lengthByte_serialize par.wireOrder h256
  have hpacket := packetAt_serialize par.wireOrder h256
  have hflips : FlipsBit _ _ k j := flipsBit_flipBit (f := serialize par.wireOrder p)
    (by rwa [length_serialize]) hj
  have hbyte' : ((flipBit (serialize par.wireOrder p) k j).getD 2 0).toNat = p.payload.length := by
    rw [← hbyte]
    exact congrArg BitVec.toNat (hflips.rest 2 (by omega))
  refine ⟨_, parse_of_length (by omega) (by rw [length_flipBit, length_serialize, hbyte']), ?_⟩
  rw [Bool.eq_false_iff, Ne, validate_iff]
  exact hflips.sum_ne_checksum_of_checksumField (by rwa [hpacket]) (by rwa [hbyte]) (by rwa [hbyte])

end Frame

end Sys2Proof.Machine

namespace Sys2Proof

open Sys2Proof.Machine

/-- Settles O28: `encode` answers a packet with its own sum as checksum, whose frame parses back to it. -/
theorem encodeSerializeParseRoundTrip : Obligations.EncodeSerializeParseRoundTrip := by
  intro par payload seq sid fl hl hp
  rcases encodePacket_cases par payload payload.length seq sid fl with
    ⟨htoolong, -⟩ | ⟨-, p, hencode, hseq, hsid, hfl, hpayload, hchecksum⟩
  · omega
  · rw [List.take_length] at hpayload
    have hparse : parse par (serialize par.wireOrder p) = some p :=
      parse_serialize hl (by rwa [hpayload])
    exact ⟨p, hencode, hseq, hsid, hfl, hpayload, hparse, validate_iff.2 hchecksum.symm⟩

/-- Settles O29: under `exact` by `acceptFrame_flipBit`; under `at_least` by running the frame of R139,
which parses with no payload before the flip and with the payload `80 FE` after it. -/
theorem singleBitFlipIsRejected : Obligations.SingleBitFlipIsRejected := by
  constructor
  · intro par p k j hl he hp hvalid hk hj
    exact acceptFrame_flipBit hl he hp hvalid hk hj
  · rintro f rfl
    have hbefore : acceptFrame { Config.defaults with frameLenPolicy := .atLeast }
        ([0x7F, 0xFE, 0x00, 0x00, 0x01, 0x80, 0xFE] ++ List.replicate 25 0)
        = some ⟨0xFE7F, 0, 0x01, [], 0xFE80⟩ := by decide
    have hafter : acceptFrame { Config.defaults with frameLenPolicy := .atLeast }
        (flipBit ([0x7F, 0xFE, 0x00, 0x00, 0x01, 0x80, 0xFE] ++ List.replicate 25 0) 2 1)
        = some ⟨0xFE7F, 0, 0x01, [0x80, 0xFE], 0⟩ := by decide
    simp only [hbefore, hafter, ne_eq, reduceCtorEq, not_false_eq_true, and_self]

/-- Settles O30: the packet the flipped frame parses to keeps its sum and loses its checksum. -/
theorem checksumFieldFlipIsRejected : Obligations.ChecksumFieldFlipIsRejected := by
  intro par p k j hl hp hvalid hk hk' hj
  exact parse_flipBit_checksumField hl hp hvalid hk hk' hj

end Sys2Proof

/-! PROOFS of the statements about what a tick does to the link and the trace (R151 to R178). A tick is its
receive phase and then its transmit phase, and neither reads `CFG`. -/

namespace Sys2Proof.Machine

/-! ## A whole tick under `single` (R171) -/

/-- All an atomic tick can do: it completes, the bytes it receives go to `RX`, the bytes it sends leave
`TX`, `SEQ` counts the data packet, and the trace grows by the events of the two phases (R171). -/
theorem exec_tick_cases {s : State} (hl : s.par.Legal) (hrx : s.rx.Ok s.par.capacity)
    (htx : s.tx.Ok s.par.capacity) (hc : s.par.contexts = .single) :
    ∃ rx tx, s.rx.storeAll s.par.capacity (receivedBytes s) = some rx ∧
      s.tx.drain s.par.capacity (sentCount s)
        = some ((s.tx.contents s.par.capacity).take (sentCount s), tx) ∧
      exec .tick s = .next { s with
        rx := rx
        tx := tx
        seq := if sentCount s = 0 then s.seq else s.seq + 1
        trace := s.trace ++ receiveEvents s ++ transmitEvents s
        rsp := rspNothing } := by
  obtain ⟨rx, hstore, hreceive⟩ := receivePhase_cases hl hrx
  obtain ⟨tx, hdrain, htransmit⟩ := transmitPhase_cases
    (s := { s with rx := rx, trace := s.trace ++ receiveEvents s }) hl htx
  refine ⟨rx, tx, hstore, hdrain, ?_⟩
  show s.composite .servicing .tickAvailable s.tickAtomic = _
  rw [State.composite_single hc, slotOutcome_eq_next, State.tickAtomic, hreceive, Option.bind_some,
    htransmit]
  rfl

theorem receivedPacket_of_not_available {s : State} (h : s.link.available = false) :
    receivedPacket s = none := by
  simp [receivedPacket, h]

theorem receiveEvents_of_not_available {s : State} (h : s.link.available = false) :
    receiveEvents s = [.link .available] := by
  simp [receiveEvents, receivedPacket_of_not_available h, h]

theorem receivedPacket_of_recv {s : State} {f : List Byte} (ha : s.link.available = true)
    (hf : s.link.recv = some f) : receivedPacket s = acceptFrame s.par f := by
  simp [receivedPacket, ha, hf]

theorem sentCount_of_empty {s : State} (htx : s.tx.Ok s.par.capacity) (h : s.tx.head = s.tx.tail) :
    sentCount s = 0 := by
  have hempty : s.tx.occupied s.par.capacity = 0 :=
    (RingBuffer.empty_iff htx.1 htx.2.1).1 (by simp [RingBuffer.empty, h])
  exact Nat.le_zero.1 (hempty ▸ sentCount_le_occupied s)

theorem transmitEvents_of_sentCount_zero {s : State} (h : sentCount s = 0) :
    transmitEvents s = [.link .currentlyTransmitting] := by
  simp [transmitEvents, h]

theorem transmitEvents_of_sentCount_pos {s : State} (h : sentCount s ≠ 0) :
    transmitEvents s = [.link .currentlyTransmitting,
      .link (.send (serialize s.par.wireOrder (dataFor s (sentCount s))) (7 + sentCount s))] := by
  simp [transmitEvents, h]

/-! ## The ACK packet (R159) -/

/-- The ACK flag of legal parameters is one bit, so not 0 (R86). -/
theorem ack_ne_zero {par : Params} (h : par.Legal) : par.flags.ack ≠ 0 := by
  obtain ⟨-, -, -, -, -, hbit⟩ := h
  intro h0
  exact absurd (hbit par.flags.ack (by simp [FlagMasks.all])) (by rw [h0]; decide)

theorem serialize_ackFor (par : Params) (o : WireOrder) (p : Packet) :
    serialize o (ackFor par p) = wireBytes o p.sequenceNumber ++ [0, p.streamId, par.flags.ack]
      ++ wireBytes o (BitVec.ofNat 16
        (p.sequenceNumber.toNat + p.streamId.toNat + par.flags.ack.toNat)) := by
  simp [ackFor, serialize, Packet.length]

theorem sum_ackFor (par : Params) (p : Packet) : (ackFor par p).sum = (ackFor par p).checksum := by
  simp [ackFor, Packet.sum, checksum, Packet.length]

/-- An ACK packet's frame is accepted as that packet (R154). -/
theorem acceptFrame_ackFor {par : Params} (hl : par.Legal) (p : Packet) :
    acceptFrame par (serialize par.wireOrder (ackFor par p)) = some (ackFor par p) :=
  acceptFrame_eq_some.2 ⟨parse_serialize hl (by simp), validate_iff.2 (sum_ackFor par p)⟩

theorem ackFor_flags_and_ack_ne_zero {par : Params} (h : par.Legal) (p : Packet) :
    (ackFor par p).flags &&& par.flags.ack ≠ 0 := by
  rw [show (ackFor par p).flags = par.flags.ack from rfl, BitVec.and_self]
  exact ack_ne_zero h

@[simp] theorem ackFor_sequenceNumber (par : Params) (p : Packet) :
    (ackFor par p).sequenceNumber = p.sequenceNumber := rfl

/-- The ACK of an ACK packet is the same packet (R159, R178). -/
@[simp] theorem ackFor_ackFor (par : Params) (p : Packet) :
    ackFor par (ackFor par p) = ackFor par p := rfl

/-! ## The state with another `CFG` (R173) -/

/-- The same state with this value in `CFG`. -/
def State.withCfg (s : State) (c : Cfg) : State := { s with cfg := c }

section WithCfg

variable (s : State) (c : Cfg)

@[simp] theorem State.withCfg_par : (s.withCfg c).par = s.par := rfl
@[simp] theorem State.withCfg_link : (s.withCfg c).link = s.link := rfl
@[simp] theorem State.withCfg_tx : (s.withCfg c).tx = s.tx := rfl
@[simp] theorem State.withCfg_ring (b : Buf) : (s.withCfg c).ring b = s.ring b := by cases b <;> rfl

@[simp] theorem State.withCfg_emit (e : Event) :
    (s.withCfg c).emit e = (s.emit e).withCfg c := rfl

@[simp] theorem State.withCfg_call (l : LinkCall) :
    (s.withCfg c).call l = (s.call l).withCfg c := rfl

@[simp] theorem State.withCfg_respond (w : Half) :
    (s.withCfg c).respond w = (s.respond w).withCfg c := rfl

@[simp] theorem State.withCfg_setRing (b : Buf) (r : RingBuffer) :
    (s.withCfg c).setRing b r = (s.setRing b r).withCfg c := by cases b <;> rfl

theorem State.withCfg_comp_setRing (b : Buf) :
    (s.withCfg c).setRing b = (State.withCfg · c) ∘ s.setRing b :=
  funext (s.withCfg_setRing c b)

@[simp] theorem State.withCfg_setRunning (r : Role) (a : Option Activity) :
    (s.withCfg c).setRunning r a = (s.setRunning r a).withCfg c := by cases r <;> rfl

@[simp] theorem State.withCfg_copiedBytes (p : Packet) :
    (s.withCfg c).copiedBytes p = s.copiedBytes p := rfl

@[simp] theorem State.withCfg_transmitCount : (s.withCfg c).transmitCount = s.transmitCount := rfl

@[simp] theorem State.withCfg_observeAck (p : Packet) :
    (s.withCfg c).observeAck p = (s.observeAck p).withCfg c := by
  by_cases h : hasAck s.par.flags p = true <;> simp [State.observeAck, h]

@[simp] theorem State.withCfg_store (b : Buf) (v : Byte) :
    (s.withCfg c).store b v = (s.store b v).map (State.withCfg · c) := by
  simp [State.store, State.withCfg_comp_setRing]

@[simp] theorem State.withCfg_storeAll (b : Buf) (vs : List Byte) :
    (s.withCfg c).storeAll b vs = (s.storeAll b vs).map (State.withCfg · c) := by
  simp [State.storeAll, State.withCfg_comp_setRing]

@[simp] theorem State.withCfg_readByte (b : Buf) :
    (s.withCfg c).readByte b = (s.readByte b).map fun q => (q.1, q.2.withCfg c) := by
  simp [State.readByte, Function.comp_def]

@[simp] theorem State.withCfg_echoAck (p : Packet) :
    (s.withCfg c).echoAck p = (s.echoAck p).withCfg c := by
  by_cases h : answersWithAck s.par p = true
  · simp only [State.echoAck, State.withCfg_par, h, if_true, ackPacket_eq]
    rfl
  · simp [State.echoAck, h]

@[simp] theorem State.withCfg_sendData (scratch : List Byte) (n : Nat) :
    (s.withCfg c).sendData scratch n = (s.sendData scratch n).withCfg c := by
  have hpacket : (s.withCfg c).dataPacket scratch n = s.dataPacket scratch n := rfl
  unfold State.sendData
  rw [hpacket]
  cases s.dataPacket scratch n <;> rfl

@[simp] theorem State.withCfg_acceptPacket (p : Packet) :
    (s.withCfg c).acceptPacket p = (s.acceptPacket p).map (State.withCfg · c) := by
  simp [State.acceptPacket, Function.comp_def]

/-- The receive phase reads no configuration field (R173). -/
theorem State.withCfg_receivePhase :
    (s.withCfg c).receivePhase = s.receivePhase.map (State.withCfg · c) := by
  cases ha : s.link.available with
  | false => simp [State.receivePhase, ha]
  | true =>
    cases hv : s.link.recv with
    | none => simp [State.receivePhase, ha, hv]
    | some f => cases hf : acceptFrame s.par f <;> simp [State.receivePhase, ha, hv, hf]

/-- The transmit phase reads no configuration field (R173). -/
theorem State.withCfg_transmitPhase :
    (s.withCfg c).transmitPhase = s.transmitPhase.map (State.withCfg · c) := by
  cases hb : s.link.currentlyTransmitting with
  | true => simp [State.transmitPhase, hb]
  | false =>
    by_cases hn : s.transmitCount = 0
    · simp [State.transmitPhase, hb, hn]
    · simp [State.transmitPhase, hb, hn, Function.comp_def]

/-- An atomic tick reads no configuration field (R171, R173). -/
theorem State.withCfg_tickAtomic :
    (s.withCfg c).tickAtomic = s.tickAtomic.map (State.withCfg · c) := by
  unfold State.tickAtomic
  rw [State.withCfg_receivePhase]
  cases s.receivePhase with
  | none => rfl
  | some t => simp [State.withCfg_transmitPhase, Function.comp_def]

/-- `TICK` reads no configuration field, atomic or begun as a program of steps (R61, R173). -/
theorem exec_tick_withCfg {s t : State} (h : exec .tick s = .next t) :
    exec .tick (s.withCfg c) = .next (t.withCfg c) := by
  show (s.withCfg c).composite .servicing .tickAvailable (s.withCfg c).tickAtomic = _
  rcases State.composite_cases h with ⟨hc, hatomic⟩ | ⟨hc, rfl⟩
  · rw [State.composite_single (s := s.withCfg c) hc, slotOutcome_eq_next,
      State.withCfg_tickAtomic, hatomic, Option.map_some]
  · rw [State.composite_dual (s := s.withCfg c) hc, State.withCfg_setRunning]

/-- No atomic step of a tick reads a configuration field (R61, R173). -/
theorem microStep_withCfg {a : Activity} (h : a.ofTick = true) :
    microStep (s.withCfg c) a = (microStep s a).map fun q => (q.1.withCfg c, q.2) := by
  cases a with
  | tickValidate p =>
    by_cases hv : validate p = true <;> simp [microStep, hv]
  | tickCopy p rest =>
    cases rest with
    | nil => rfl
    | cons b bs =>
      simp only [microStep, State.withCfg_store, Option.map_map]
      rfl
  | tickDrain n scratch =>
    simp only [microStep, State.withCfg_readByte, Option.map_map]
    rfl
  | flushRead | flushReturn | cfgBiteRate | cfgPower | cfgChannel | rfCall | channelCall
  | initLink | initDefaults | initRf | initChannel => cases h
  | _ => rfl

end WithCfg

/-! ## The first packet (R177) -/

/-- The block after reset and one `WRITE 0x41`, at a LinkDriver that answers `a`. -/
def firstByteWritten (a : LinkAnswers) : State :=
  { State.reset with tx := { head := 1, tail := 0, buf := [(0, 0x41)] }, rsp := 1, link := a }

theorem exec_write_reset :
    exec (.write 0x41) State.reset = .next (firstByteWritten State.reset.link) := rfl

theorem firstByteWritten_tx_ok (a : LinkAnswers) :
    (firstByteWritten a).tx.Ok (firstByteWritten a).par.capacity := by
  show RingBuffer.Ok 128 { head := 1, tail := 0, buf := [(0, 0x41)] }
  decide

theorem sentCount_firstByteWritten {a : LinkAnswers} (h : a.currentlyTransmitting = false) :
    sentCount (firstByteWritten a) = 1 := by
  have hlink : (firstByteWritten a).link.currentlyTransmitting = false := h
  rw [sentCount, hlink, if_neg Bool.false_ne_true]
  show min ((firstByteWritten State.reset.link).occupied .tx) Config.defaults.maxPayload = 1
  decide

/-- The frame of the first packet: `SEQ` 0, one byte, stream 0, ACK and PRIORITY, checksum 0x0053. -/
theorem serialize_dataFor_firstByteWritten (a : LinkAnswers) :
    serialize (firstByteWritten a).par.wireOrder (dataFor (firstByteWritten a) 1)
      = [0x00, 0x00, 0x01, 0x00, 0x11, 0x41, 0x53, 0x00] := by
  show serialize .little (dataFor (firstByteWritten State.reset.link) 1) = _
  decide

end Sys2Proof.Machine

namespace Sys2Proof

open Sys2Proof.Machine

/-- Settles O32: the events of the receive phase, then those of the transmit phase. -/
theorem tickCallsTheLinkInOrder : Obligations.TickCallsTheLinkInOrder := by
  intro s hl hrx htx hc
  obtain ⟨rx, tx, -, -, htick⟩ := exec_tick_cases hl hrx htx hc
  refine ⟨_, htick, ?_⟩
  cases hp : receivedPacket s with
  | none => simp [receiveEvents, transmitEvents, hp]
  | some p => simp [receiveEvents, transmitEvents, hp]

/-- Settles O35: `withCfg` commutes with the atomic tick and with each of its steps under `dual`. -/
theorem tickReadsNoConfiguration : Obligations.TickReadsNoConfiguration :=
  ⟨fun _ _ c h => exec_tick_withCfg c h, fun s _ c h => microStep_withCfg s c h⟩

/-- Settles O37: the frame is that of the ACK packet the block itself would send, so it is accepted, and
the answer to it is the same frame. -/
theorem inboundAckScenario : Obligations.InboundAckScenario := by
  intro s seq sid f hl hrx htx hc hf ha hrecv hempty
  obtain ⟨p, rfl, rfl⟩ : ∃ p : Packet, p.sequenceNumber = seq ∧ p.streamId = sid :=
    ⟨⟨seq, sid, 0, [], 0⟩, rfl, rfl⟩
  rw [← serialize_ackFor] at hf
  have hreceived : receivedPacket s = some (ackFor s.par p) := by
    rw [receivedPacket_of_recv ha hrecv, hf, acceptFrame_ackFor hl]
  obtain ⟨rx, tx, hstore, -, htick⟩ := exec_tick_cases hl hrx htx hc
  refine ⟨_, htick, ?_, ?_⟩
  · have hnothing : receivedBytes s = [] := by simp [receivedBytes, hreceived]
    rw [hnothing] at hstore
    exact (Option.some.inj hstore).symm
  · have hobserved := ackFor_flags_and_ack_ne_zero hl p
    rw [transmitEvents_of_sentCount_zero (sentCount_of_empty htx hempty), hf]
    simp only [receiveEvents, hreceived, ha, hobserved, ackFor_ackFor, ackFor_sequenceNumber, if_true,
      ne_eq, not_false_eq_true, or_false]
    simp

/-- Settles O36: the tick of `firstByteWritten` receives nothing and sends its one byte. -/
theorem firstPacketScenario : Obligations.FirstPacketScenario := by
  refine ⟨_, exec_write_reset, by decide, fun a ha hb => ?_⟩
  obtain ⟨rx, tx, -, -, htick⟩ := exec_tick_cases (s := firstByteWritten a)
    (by decide : Config.defaults.Legal) (by decide : ringAfterReset.Ok 128)
    (firstByteWritten_tx_ok a) rfl
  have hsent := sentCount_firstByteWritten hb
  refine ⟨_, htick, ?_⟩
  rw [receiveEvents_of_not_available ha, transmitEvents_of_sentCount_pos (by omega), hsent,
    serialize_dataFor_firstByteWritten]
  rfl

end Sys2Proof

/-! PROOFS of the configuration statements (R205, R206). The transceiver channels a run has selected are read
off its trace; each operation and each atomic step adds at most one to them, and it is one of the map's. -/

namespace Sys2Proof.Machine

/-! ## The transceiver channels selected so far (R205) -/

/-- The transceiver channel an event selects, if it is a `Link.setChannel` call. -/
def Event.selection : Event → Option Nat
  | .link (.setChannel n) => some n
  | _ => none

/-- The transceiver channels selected so far, oldest first. -/
def State.selections (s : State) : List Nat := s.trace.filterMap Event.selection

theorem Event.selection_eq_some_iff {e : Event} {n : Nat} :
    e.selection = some n ↔ e = .link (.setChannel n) := by
  cases e with
  | ackObserved seq => simp [Event.selection]
  | link c => cases c <;> simp [Event.selection]

theorem State.mem_selections_iff {s : State} {n : Nat} :
    n ∈ s.selections ↔ Event.link (.setChannel n) ∈ s.trace := by
  simp [State.selections, Event.selection_eq_some_iff]

theorem State.selections_of_trace {s t : State} (h : t.trace = s.trace) : t.selections = s.selections :=
  congrArg (List.filterMap Event.selection) h

section Selections

variable (s : State)

theorem State.selections_emit (e : Event) :
    (s.emit e).selections = s.selections ++ e.selection.toList := by
  cases h : e.selection <;> simp [State.selections, h]

@[simp] theorem State.selections_ackObserved (seq : Half) :
    (s.emit (.ackObserved seq)).selections = s.selections := by
  simp [State.selections_emit, Event.selection]

theorem State.selections_call_of_none {c : LinkCall} (h : (Event.link c).selection = none) :
    (s.call c).selections = s.selections := by
  simp [State.call, State.selections_emit, h]

@[simp] theorem State.selections_init : (s.call .init).selections = s.selections :=
  s.selections_call_of_none rfl
@[simp] theorem State.selections_available : (s.call .available).selections = s.selections :=
  s.selections_call_of_none rfl
@[simp] theorem State.selections_recv : (s.call .recv).selections = s.selections :=
  s.selections_call_of_none rfl
@[simp] theorem State.selections_send (bs : List Byte) (n : Nat) :
    (s.call (.send bs n)).selections = s.selections := s.selections_call_of_none rfl
@[simp] theorem State.selections_currentlyTransmitting :
    (s.call .currentlyTransmitting).selections = s.selections := s.selections_call_of_none rfl
@[simp] theorem State.selections_setDataRateAndPower (r : BiteRate) (p : Power) :
    (s.call (.setDataRateAndPower r p)).selections = s.selections := s.selections_call_of_none rfl

@[simp] theorem State.selections_setChannel (n : Nat) :
    (s.call (.setChannel n)).selections = s.selections ++ [n] := s.selections_emit _

@[simp] theorem State.selections_applyRf : s.applyRf.selections = s.selections :=
  s.selections_setDataRateAndPower _ _

@[simp] theorem State.selections_applyChannel :
    s.applyChannel.selections = s.selections ++ [transceiverChannel s.cfg.channel] :=
  s.selections_setChannel _

@[simp] theorem State.selections_sendPacket (q : Packet) : (s.sendPacket q).selections = s.selections :=
  s.selections_send _ _

@[simp] theorem State.selections_respond (w : Half) : (s.respond w).selections = s.selections := rfl
@[simp] theorem State.selections_setCfgBiteRate (r : BiteRate) :
    (s.setCfgBiteRate r).selections = s.selections := rfl
@[simp] theorem State.selections_setCfgPower (p : Power) :
    (s.setCfgPower p).selections = s.selections := rfl
@[simp] theorem State.selections_setCfgChannel (c : Channel) :
    (s.setCfgChannel c).selections = s.selections := rfl
@[simp] theorem State.selections_setCfgDefaults : s.setCfgDefaults.selections = s.selections := rfl
@[simp] theorem State.selections_advanceSeq : s.advanceSeq.selections = s.selections := rfl

@[simp] theorem State.selections_setRing (b : Buf) (r : RingBuffer) :
    (s.setRing b r).selections = s.selections := State.selections_of_trace (s.setRing_trace b r)

@[simp] theorem State.selections_setRunning (r : Role) (a : Option Activity) :
    (s.setRunning r a).selections = s.selections := State.selections_of_trace (s.setRunning_trace r a)

@[simp] theorem State.selections_resume (r : Role) (x : After) :
    (s.resume r x).selections = s.selections := by
  cases x <;> simp [State.resume]

end Selections

theorem store_selections {s t : State} {b : Buf} {v : Byte} (h : s.store b v = some t) :
    t.selections = s.selections := by
  rw [store_frame h, State.selections_setRing]

theorem readByte_selections {s : State} {b : Buf} {q : Option Byte × State} (h : s.readByte b = some q) :
    q.2.selections = s.selections := by
  rw [readByte_frame h, State.selections_setRing]

theorem storeAll_selections {s t : State} {b : Buf} {vs : List Byte} (h : s.storeAll b vs = some t) :
    t.selections = s.selections := by
  obtain ⟨r, -, rfl⟩ := Option.map_eq_some_iff.1 h
  exact s.selections_setRing b r

theorem flushAtomic_selections {s t : State} (h : s.flushAtomic = some t) :
    t.selections = s.selections := by
  obtain ⟨r, -, rfl⟩ := Option.map_eq_some_iff.1 h
  rw [State.selections_respond, State.selections_setRing]

/-! ## A tick selects no channel (R151 to R171) -/

@[simp] theorem State.selections_observeAck (s : State) (p : Packet) :
    (s.observeAck p).selections = s.selections := by
  rcases observeAck_cases s p with ⟨-, h⟩ | ⟨-, h⟩ <;> simp [h]

@[simp] theorem State.selections_echoAck (s : State) (p : Packet) :
    (s.echoAck p).selections = s.selections := by
  by_cases h : answersWithAck s.par p = true <;> simp [State.echoAck, h, ackPacket_eq]

@[simp] theorem State.selections_sendData (s : State) (scratch : List Byte) (n : Nat) :
    (s.sendData scratch n).selections = s.selections := by
  cases h : s.dataPacket scratch n <;> simp [State.sendData, h]

theorem acceptPacket_selections {s t : State} {p : Packet} (h : s.acceptPacket p = some t) :
    t.selections = s.selections := by
  obtain ⟨u, hu, rfl⟩ := Option.map_eq_some_iff.1 h
  rw [State.selections_echoAck, storeAll_selections hu, State.selections_observeAck]

theorem receivePhase_selections {s t : State} (h : s.receivePhase = some t) :
    t.selections = s.selections := by
  have hcalls : ((s.call .available).call .recv).selections = s.selections := by simp
  unfold State.receivePhase at h
  split at h
  · split at h
    · cases h
      exact hcalls
    · split at h
      · cases h
        exact hcalls
      · rw [acceptPacket_selections h, hcalls]
  · cases h
    exact s.selections_available

theorem transmitPhase_selections {s t : State} (h : s.transmitPhase = some t) :
    t.selections = s.selections := by
  unfold State.transmitPhase at h
  split at h
  · cases h
    simp
  · split at h
    · cases h
      simp
    · obtain ⟨q, -, rfl⟩ := Option.map_eq_some_iff.1 h
      simp

theorem tickAtomic_selections {s t : State} (h : s.tickAtomic = some t) :
    t.selections = s.selections := by
  obtain ⟨v, hv, rfl⟩ := Option.map_eq_some_iff.1 h
  obtain ⟨u, hu, hv⟩ := Option.bind_eq_some_iff.1 hv
  rw [State.selections_respond, transmitPhase_selections hv, receivePhase_selections hu]

/-! ## What a step selects (R205) -/

/-- From `s` to `t` no transceiver channel is selected, or one, which a logical channel maps to. -/
def State.SelectsInMap (s t : State) : Prop :=
  t.selections = s.selections ∨ ∃ c, t.selections = s.selections ++ [transceiverChannel c]

theorem initAtomic_selectsInMap (s : State) : s.SelectsInMap s.initAtomic := by
  unfold State.initAtomic
  split
  · cases s.link.init with
    | true => exact .inr ⟨.ch1, by simp [State.initDefaults, transceiverChannel]⟩
    | false => exact .inl (by simp)
  · exact .inl rfl

/-- A composite operation selects what its atomic step does, and beginning it selects nothing (R61). -/
theorem State.composite_selectsInMap {s t : State} {r : Role} {a : Activity} {o : Option State}
    (h : s.composite r a o = .next t) (ho : ∀ u, o = some u → s.SelectsInMap u) : s.SelectsInMap t := by
  rcases State.composite_cases h with ⟨-, hatomic⟩ | ⟨-, rfl⟩
  · exact ho t hatomic
  · exact .inl (s.selections_setRunning r _)

theorem slotOutcome_store_selections {s t : State} {b : Buf} {v : Byte} {w : Half}
    (h : slotOutcome ((s.store b v).map fun u => u.respond w) = .next t) :
    t.selections = s.selections := by
  obtain ⟨u, hu, rfl⟩ := Option.map_eq_some_iff.1 (slotOutcome_eq_next.1 h)
  rw [State.selections_respond, store_selections hu]

theorem slotOutcome_readByte_selections {s t : State} {b : Buf}
    (h : slotOutcome ((s.readByte b).map fun q => q.2.respond (rspByte q.1)) = .next t) :
    t.selections = s.selections := by
  obtain ⟨q, hq, rfl⟩ := Option.map_eq_some_iff.1 (slotOutcome_eq_next.1 h)
  rw [State.selections_respond, readByte_selections hq]

theorem slotOutcome_peek_selections {s t : State} {b : Buf}
    (h : slotOutcome ((s.peek b).map fun v => s.respond (rspByte v)) = .next t) :
    t.selections = s.selections := by
  obtain ⟨v, -, rfl⟩ := Option.map_eq_some_iff.1 (slotOutcome_eq_next.1 h)
  rw [State.selections_respond]

/-- Of the operations, only `SET_CHANNEL` and `INIT` select a channel (R204, R205, R208). -/
theorem exec_selectsInMap {i : Instr} {s t : State} (h : exec i s = .next t) : s.SelectsInMap t := by
  cases i with
  | rbStore b d | write d => exact .inl (slotOutcome_store_selections h)
  | rbReadByte b | read => exact .inl (slotOutcome_readByte_selections h)
  | rbPeek b | peek => exact .inl (slotOutcome_peek_selections h)
  | flush => exact State.composite_selectsInMap h fun u hu => .inl (flushAtomic_selections hu)
  | tick => exact State.composite_selectsInMap h fun u hu => .inl (tickAtomic_selections hu)
  | setBiteRate r =>
    refine State.composite_selectsInMap h fun u hu => .inl ?_
    cases hu
    simp
  | setPower p =>
    refine State.composite_selectsInMap h fun u hu => .inl ?_
    cases hu
    simp
  | setChannel c =>
    refine State.composite_selectsInMap h fun u hu => .inr ⟨c, ?_⟩
    cases hu
    simp
  | init =>
    refine State.composite_selectsInMap h fun u hu => ?_
    cases hu
    exact initAtomic_selectsInMap s
  | rbOccupied | rbFreeSlots | pcChecksum | pcEncode | pcSerialize | pcParse | pcValidate | available
  | availableForWrite | setMode =>
    cases h
    exact .inl rfl

/-- Of the atomic steps under `dual`, only the `Link.setChannel` calls select a channel (R61, R205). -/
theorem microStep_selectsInMap {s t : State} {a : Activity} {x : After}
    (h : microStep s a = some (t, x)) : s.SelectsInMap t := by
  cases a with
  | channelCall =>
    cases h
    exact .inr ⟨_, s.selections_applyChannel⟩
  | initChannel =>
    cases h
    exact .inr ⟨.ch1, s.selections_setChannel 10⟩
  | tickValidate p =>
    simp only [microStep] at h
    split at h <;> cases h
    · exact .inl (s.selections_observeAck p)
    · exact .inl rfl
  | tickCopy p rest =>
    cases rest with
    | nil =>
      cases h
      exact .inl rfl
    | cons b bs =>
      obtain ⟨u, hu, hut⟩ := Option.map_eq_some_iff.1 h
      cases hut
      exact .inl (store_selections hu)
  | tickDrain | flushRead =>
    obtain ⟨q, hq, hqt⟩ := Option.map_eq_some_iff.1 h
    cases hqt
    exact .inl (readByte_selections hq)
  | initLink =>
    simp only [microStep] at h
    split at h <;> cases h
    · exact .inl s.selections_init
    · exact .inl rfl
  | _ =>
    cases h
    exact .inl (by simp)

theorem State.advance_selectsInMap {s t : State} {r : Role} (h : s.advance r = .next t) :
    s.SelectsInMap t := by
  rcases State.advance_cases h with ⟨-, rfl⟩ | ⟨a, u, x, -, hu, rfl⟩
  · exact .inl rfl
  · simpa [State.SelectsInMap] using microStep_selectsInMap hu

/-- A step selects at most one transceiver channel, and it is one of the map's (R205). -/
theorem step_selectsInMap {s t : State} (h : step s = .next t) : s.SelectsInMap t := by
  cases step_cases h with
  | idle _ ht =>
    subst ht
    exact .inl rfl
  | waits r w rest _ _ _ ht => exact State.advance_selectsInMap ht
  | takes r w rest i _ _ _ _ _ _ ht =>
    exact (exec_selectsInMap ht : ({ s with inputs := rest } : State).SelectsInMap t)
  | advances r rest _ ht =>
    exact (State.advance_selectsInMap ht : ({ s with inputs := rest } : State).SelectsInMap t)
  | input rest a bs p l _ _ _ _ ht =>
    subst ht
    exact .inl rfl
  | resets rest _ ht =>
    subst ht
    exact .inl rfl

theorem transceiverChannel_mem (c : Channel) : transceiverChannel c ∈ [10, 20, 30, 40] := by
  cases c <;> decide

/-! ## The rate and power setters, one after the other (R202, R203, R206) -/

theorem exec_setBiteRate_single {s : State} (hc : s.par.contexts = .single) (r : BiteRate) :
    exec (.setBiteRate r) s = .next ((s.setCfgBiteRate r).applyRf.respond rspNothing) :=
  State.composite_single hc ..

theorem exec_setPower_single {s : State} (hc : s.par.contexts = .single) (p : Power) :
    exec (.setPower p) s = .next ((s.setCfgPower p).applyRf.respond rspNothing) :=
  State.composite_single hc ..

theorem execAll_pair {i j : Instr} {s t u : State} (hi : exec i s = .next t) (hj : exec j t = .next u) :
    execAll [i, j] s = .next u := by
  simp [execAll, hi, hj]

/-- Power, then rate: the first call has the old rate, the second both new values (R206). -/
theorem execAll_setPower_setBiteRate {s : State} (hc : s.par.contexts = .single) (p : Power)
    (r : BiteRate) : ∃ t, execAll [.setPower p, .setBiteRate r] s = .next t ∧
      t.trace = s.trace ++
        [.link (.setDataRateAndPower s.cfg.biteRate p), .link (.setDataRateAndPower r p)] :=
  ⟨_, execAll_pair (exec_setPower_single hc p)
    (exec_setBiteRate_single (s := (s.setCfgPower p).applyRf.respond rspNothing) hc r), by simp⟩

/-- Rate, then power: the first call has the old power, the second both new values (R206). -/
theorem execAll_setBiteRate_setPower {s : State} (hc : s.par.contexts = .single) (r : BiteRate)
    (p : Power) : ∃ t, execAll [.setBiteRate r, .setPower p] s = .next t ∧
      t.trace = s.trace ++
        [.link (.setDataRateAndPower r s.cfg.power), .link (.setDataRateAndPower r p)] :=
  ⟨_, execAll_pair (exec_setBiteRate_single hc r)
    (exec_setPower_single (s := (s.setCfgBiteRate r).applyRf.respond rspNothing) hc p), by simp⟩

end Sys2Proof.Machine

namespace Sys2Proof

open Sys2Proof.Machine

/-- Settles O46: what a step adds to the selected channels is nothing or one channel of the map. -/
theorem onlyFourTransceiverChannels : Obligations.OnlyFourTransceiverChannels := by
  refine ⟨fun c => by cases c <;> rfl, fun s t n hstep hn => ?_⟩
  rw [← State.mem_selections_iff] at hn ⊢
  rcases step_selectsInMap hstep with hsame | ⟨c, hadded⟩
  · exact .inl (hsame ▸ hn)
  · rw [hadded, List.mem_append, List.mem_singleton] at hn
    refine hn.imp_right fun hc => ?_
    simpa [hc] using transceiverChannel_mem c

/-- Settles O45: the two orders of the setters, from the slow rate and the low power of reset. -/
theorem settersAreNotBatched : Obligations.SettersAreNotBatched :=
  ⟨execAll_setPower_setBiteRate rfl .max .fast, execAll_setBiteRate_setPower rfl .fast .max⟩

end Sys2Proof

/-! PROOFS of the statements about the whole machine and its two contexts (R21, R60 to R66, R72, R220 to
R239, R270). Every operation is one of seven shapes (`Executed`). A context produces into one buffer and
consumes from the other, so each of its steps is a move that leaves the other context what it owns
(`ApplicationMove`, `ServicingMove`), and the invariant is what such moves keep. -/

namespace Sys2Proof.Machine

/-! ## What production and consumption do to a buffer (R23, R62, R111, R113) -/

/-- What the producer of a buffer can do to it: `tail` stays and the occupied run does not shrink. -/
structure RingBuffer.Produced (c : Nat) (r r' : RingBuffer) : Prop where
  ok : r'.Ok c
  tail : r'.tail = r.tail
  occupied : r.occupied c ≤ r'.occupied c

/-- What the consumer of a buffer can do to it: `head` and the storage stay and the occupied run does not
grow. -/
structure RingBuffer.Drained (c : Nat) (r r' : RingBuffer) : Prop where
  ok : r'.Ok c
  head : r'.head = r.head
  buf : r'.buf = r.buf
  occupied : r'.occupied c ≤ r.occupied c

theorem RingBuffer.freeSlots_le_of_occupied_le {c : Nat} {r r' : RingBuffer}
    (h : r.occupied c ≤ r'.occupied c) : r'.freeSlots c ≤ r.freeSlots c :=
  Nat.sub_le_sub_left h _

section Production

variable {c : Nat} {r r' r'' : RingBuffer}

theorem RingBuffer.Produced.refl (h : r.Ok c) : r.Produced c r := ⟨h, rfl, Nat.le_refl _⟩

theorem RingBuffer.Drained.refl (h : r.Ok c) : r.Drained c r := ⟨h, rfl, rfl, Nat.le_refl _⟩

theorem RingBuffer.produced_of_store {b : Byte} (h : r.Ok c) (hs : r.store c b = some r') :
    r.Produced c r' := by
  rcases RingBuffer.store_cases h b with ⟨-, hs'⟩ | ⟨hf, hs'⟩ <;>
    obtain rfl := Option.some.inj (hs.symm.trans hs')
  · exact .refl h
  · exact ⟨RingBuffer.stored_ok h b, rfl, by rw [RingBuffer.occupied_stored h hf]; omega⟩

theorem RingBuffer.produced_of_storeAll {bs : List Byte} (h : r.Ok c)
    (hs : r.storeAll c bs = some r') : r.Produced c r' := by
  obtain ⟨r₁, hs', hok, htail, hcontents⟩ := RingBuffer.storeAll_cases (bs := bs) h
  obtain rfl := Option.some.inj (hs.symm.trans hs')
  have hlength := congrArg List.length hcontents
  simp only [List.length_append, RingBuffer.length_contents] at hlength
  exact ⟨hok, htail, by omega⟩

theorem RingBuffer.drained_of_readByte {v : Option Byte} (h : r.Ok c)
    (hr : r.readByte c = some (v, r')) : r.Drained c r' := by
  rcases RingBuffer.readByte_cases h with ⟨-, hr'⟩ | ⟨he, hr'⟩ <;>
    obtain ⟨-, rfl⟩ := Prod.mk.inj (Option.some.inj (hr.symm.trans hr'))
  · exact .refl h
  · have := RingBuffer.occupied_consumed h he
    exact ⟨RingBuffer.consumed_ok h, rfl, rfl, by omega⟩

theorem RingBuffer.drained_of_drain {n : Nat} {bs : List Byte} (h : r.Ok c) (hn : n ≤ r.occupied c)
    (hd : r.drain c n = some (bs, r')) : r.Drained c r' := by
  obtain ⟨r₁, hd', hok, hhead, hbuf, hcontents⟩ := RingBuffer.drain_cases h hn
  obtain ⟨-, rfl⟩ := Prod.mk.inj (Option.some.inj (hd.symm.trans hd'))
  have hlength := congrArg List.length hcontents
  simp only [List.length_drop, RingBuffer.length_contents] at hlength
  exact ⟨hok, hhead, hbuf, by omega⟩

theorem RingBuffer.drained_of_flush (h : r.Ok c) (hf : r.flush c c = some r') : r.Drained c r' := by
  rw [RingBuffer.flush_cases h (r.occupied_lt h.1), Option.some.injEq] at hf
  subst hf
  refine ⟨⟨h.1, h.1, h.2.2⟩, rfl, rfl, ?_⟩
  simp [RingBuffer.occupied]

end Production

/-! ## What `store`, `readByte`, `flush` and the phases of a tick leave of any buffer -/

section AnyBuffer

variable {c : Nat} {r r' : RingBuffer}

/-- All a `readByte` that completes did, on any buffer (R113). -/
theorem RingBuffer.readByte_eq_some {v : Option Byte} (h : r.readByte c = some (v, r')) :
    (r.empty = true ∧ v = none ∧ r' = r) ∨
      (r.empty = false ∧ v ≠ none ∧ r' = r.consumed c) := by
  unfold RingBuffer.readByte at h
  split at h
  next he =>
    cases h
    exact .inl ⟨he, rfl, rfl⟩
  next he =>
    obtain ⟨w, -, hw⟩ := Option.map_eq_some_iff.1 h
    cases hw
    exact .inr ⟨Bool.eq_false_iff.2 he, nofun, rfl⟩

theorem RingBuffer.readByte_keeps_buf {v : Option Byte} (h : r.readByte c = some (v, r')) :
    r'.buf = r.buf := by
  rcases RingBuffer.readByte_eq_some h with ⟨-, -, rfl⟩ | ⟨-, -, rfl⟩ <;> rfl

theorem RingBuffer.drain_keeps_buf {n : Nat} {bs : List Byte} (h : r.drain c n = some (bs, r')) :
    r'.buf = r.buf := by
  induction n generalizing r bs with
  | zero =>
    cases h
    rfl
  | succ n ih =>
    unfold RingBuffer.drain at h
    split at h
    · cases h
    · rename_i v r₁ hr
      split at h
      · cases h
      · rename_i vs r₂ hd
        cases h
        rw [ih hd, RingBuffer.readByte_keeps_buf hr]

theorem RingBuffer.flush_keeps_buf {fuel : Nat} (h : r.flush c fuel = some r') : r'.buf = r.buf := by
  induction fuel generalizing r with
  | zero => cases h
  | succ fuel ih =>
    unfold RingBuffer.flush at h
    split at h
    · cases h
    · rename_i r₁ hr
      cases h
      exact RingBuffer.readByte_keeps_buf hr
    · rename_i v r₁ hr
      rw [ih h, RingBuffer.readByte_keeps_buf hr]

end AnyBuffer

theorem echoAck_frame (s : State) (p : Packet) :
    s.echoAck p = { s with trace := (s.echoAck p).trace } := by
  unfold State.echoAck
  split
  · rw [ackPacket_eq]
    rfl
  · rfl

theorem sendData_frame (s : State) (scratch : List Byte) (n : Nat) :
    s.sendData scratch n
      = { s with seq := (s.sendData scratch n).seq, trace := (s.sendData scratch n).trace } ∧
    ((s.sendData scratch n).seq = s.seq ∨ (s.sendData scratch n).seq = s.seq + 1) := by
  unfold State.sendData
  split
  · exact ⟨rfl, .inl rfl⟩
  · exact ⟨rfl, .inr rfl⟩

theorem storeAll_frame {s t : State} {b : Buf} {vs : List Byte} (h : s.storeAll b vs = some t) :
    t = s.setRing b (t.ring b) := by
  obtain ⟨r, -, rfl⟩ := Option.map_eq_some_iff.1 h
  rw [State.setRing_ring]

/-- All a receive phase can change, in any state (R152 to R162). -/
theorem receivePhase_frame {s t : State} (h : s.receivePhase = some t) :
    t = { s with rx := t.rx, trace := t.trace } := by
  unfold State.receivePhase at h
  split at h
  · split at h
    · cases h
      rfl
    · split at h
      · cases h
        rfl
      · obtain ⟨u, hu, rfl⟩ := Option.map_eq_some_iff.1 h
        rw [echoAck_frame, storeAll_frame hu, observeAck_frame]
        rfl
  · cases h
    rfl

/-- All a transmit phase can change, in any state (R163 to R170). -/
theorem transmitPhase_frame {s t : State} (h : s.transmitPhase = some t) :
    t = { s with tx := t.tx, seq := t.seq, trace := t.trace } ∧ t.tx.buf = s.tx.buf ∧
      (t.seq = s.seq ∨ t.seq = s.seq + 1) := by
  unfold State.transmitPhase at h
  split at h
  · cases h
    exact ⟨rfl, rfl, .inl rfl⟩
  · split at h
    · cases h
      exact ⟨rfl, rfl, .inl rfl⟩
    · obtain ⟨⟨bs, r⟩, hq, rfl⟩ := Option.map_eq_some_iff.1 h
      obtain ⟨hframe, hseq⟩ :=
        sendData_frame ((s.call .currentlyTransmitting).setRing .tx r) bs s.transmitCount
      refine ⟨?_, ?_, hseq⟩
      · rw [hframe]
        rfl
      · rw [hframe]
        exact RingBuffer.drain_keeps_buf hq

/-- All an atomic tick can change, in any state (R171). -/
theorem tickAtomic_frame {s t : State} (h : s.tickAtomic = some t) :
    t = { s with rx := t.rx, tx := t.tx, seq := t.seq, trace := t.trace, rsp := t.rsp } ∧
      t.tx.buf = s.tx.buf ∧ (t.seq = s.seq ∨ t.seq = s.seq + 1) := by
  obtain ⟨v, hv, rfl⟩ := Option.map_eq_some_iff.1 h
  obtain ⟨u, hu, hv⟩ := Option.bind_eq_some_iff.1 hv
  obtain ⟨hv, hbuf, hseq⟩ := transmitPhase_frame hv
  have hu := receivePhase_frame hu
  have hutx : u.tx = s.tx := by rw [hu]
  have huseq : u.seq = s.seq := by rw [hu]
  refine ⟨?_, by simpa [hutx] using hbuf, by simpa [huseq] using hseq⟩
  rw [hv, hu]
  rfl

/-! ## The shapes of an operation (R40) -/

/-- No event of the list is a frame handed to the LinkDriver. -/
def SendsNothing (es : List Event) : Prop := ∀ g n, Event.link (.send g n) ∉ es

/-- All an operation can do when it answers a next state, in any state (R40, R61). -/
inductive Executed (s : State) : Instr → State → Prop
  /-- it only answers -/
  | answers (i : Instr) (w : Half) (bytes : List Byte) :
      Executed s i { s with rsp := w, sideOut := bytes }
  /-- it stores one byte -/
  | stores {i : Instr} {r : RingBuffer} (b : Buf) (d : Byte) (w : Half)
      (hi : i = .rbStore b d ∨ b = .tx ∧ i = .write d)
      (hs : (s.ring b).store s.par.capacity d = some r) :
      Executed s i ((s.setRing b r).respond w)
  /-- it reads one byte -/
  | reads {i : Instr} {v : Option Byte} {r : RingBuffer} (b : Buf) (w : Half)
      (hi : i = .rbReadByte b ∨ b = .rx ∧ i = .read)
      (hr : (s.ring b).readByte s.par.capacity = some (v, r)) :
      Executed s i ((s.setRing b r).respond w)
  /-- it is a whole `flush` -/
  | flushes {r : RingBuffer} (w : Half) (hc : s.par.contexts = .single)
      (hf : s.rx.flush s.par.capacity s.par.capacity = some r) :
      Executed s .flush ((s.setRing .rx r).respond w)
  /-- it is a whole `tick` -/
  | ticks {t : State} (hc : s.par.contexts = .single) (ht : s.tickAtomic = some t) :
      Executed s .tick t
  /-- it writes `CFG` and calls the LinkDriver -/
  | configures {i : Instr} (c : Cfg) (es : List Event) (w : Half) (hi : writesCfg i = true)
      (he : SendsNothing es) :
      Executed s i { s with cfg := c, trace := s.trace ++ es, rsp := w }
  /-- it begins a program of atomic steps -/
  | begins {i : Instr} {r : Role} {a : Activity} (hc : s.par.contexts = .dual)
      (hi : compositeOf i = some (r, a)) : Executed s i (s.setRunning r (some a))

/-- A composite operation begins, or is what its atomic step is (R61). -/
theorem Executed.of_composite {s t : State} {i : Instr} {r : Role} {a : Activity} {o : Option State}
    (hi : compositeOf i = some (r, a)) (h : s.composite r a o = .next t)
    (ho : s.par.contexts = .single → o = some t → Executed s i t) : Executed s i t := by
  rcases State.composite_cases h with ⟨hc, hatomic⟩ | ⟨hc, rfl⟩
  · exact ho hc hatomic
  · exact .begins hc hi

theorem Executed.of_store {s t : State} {i : Instr} {b : Buf} {d : Byte} {w : Half}
    (hi : i = .rbStore b d ∨ b = .tx ∧ i = .write d)
    (h : slotOutcome ((s.store b d).map fun u => u.respond w) = .next t) : Executed s i t := by
  obtain ⟨u, hu, rfl⟩ := Option.map_eq_some_iff.1 (slotOutcome_eq_next.1 h)
  obtain ⟨r, hr, rfl⟩ := Option.map_eq_some_iff.1 hu
  exact .stores b d w hi hr

theorem Executed.of_readByte {s t : State} {i : Instr} {b : Buf}
    (hi : i = .rbReadByte b ∨ b = .rx ∧ i = .read)
    (h : slotOutcome ((s.readByte b).map fun q => q.2.respond (rspByte q.1)) = .next t) :
    Executed s i t := by
  obtain ⟨q, hq, rfl⟩ := Option.map_eq_some_iff.1 (slotOutcome_eq_next.1 h)
  obtain ⟨⟨v, r⟩, hr, rfl⟩ := Option.map_eq_some_iff.1 hq
  exact .reads b _ hi hr

theorem Executed.of_peek {s t : State} {i : Instr} {b : Buf}
    (h : slotOutcome ((s.peek b).map fun v => s.respond (rspByte v)) = .next t) : Executed s i t := by
  obtain ⟨v, -, rfl⟩ := Option.map_eq_some_iff.1 (slotOutcome_eq_next.1 h)
  exact .answers i _ s.sideOut

/-- `init` with invalid pins answers 0 and makes no call (R208). -/
theorem initAtomic_of_pins_invalid {s : State} (hp : s.pinsValid = false) :
    s.initAtomic = { s with rsp := 0x0000 } := by
  rw [State.initAtomic, if_neg (Bool.eq_false_iff.1 hp)]
  rfl

/-- `init` whose driver fails answers 0 after that one call (R208). -/
theorem initAtomic_of_driver_fails {s : State} (hp : s.pinsValid = true) (hl : s.link.init = false) :
    s.initAtomic = { s with rsp := 0x0000, trace := s.trace ++ [.link .init] } := by
  rw [State.initAtomic, if_pos hp]
  exact if_neg (Bool.eq_false_iff.1 hl)

/-- `init` that succeeds applies the defaults with two calls and answers 1 (R208). -/
theorem initAtomic_of_success {s : State} (hp : s.pinsValid = true) (hl : s.link.init = true) :
    s.initAtomic = { s with
      rsp := 0x0001
      cfg := cfgDefaults
      trace := s.trace ++ [.link .init, .link (.setDataRateAndPower .slow .low),
        .link (.setChannel 10)] } := by
  simp [State.initAtomic, hp, hl, State.initDefaults, State.setCfgDefaults, State.call, State.emit,
    State.respond, rspBool]

theorem Executed.initAtomic (s : State) : Executed s .init s.initAtomic := by
  cases hp : s.pinsValid with
  | false =>
    rw [initAtomic_of_pins_invalid hp]
    exact .answers .init 0x0000 s.sideOut
  | true =>
    cases hl : s.link.init with
    | false =>
      rw [initAtomic_of_driver_fails hp hl]
      exact .configures s.cfg [.link .init] 0x0000 rfl (by simp [SendsNothing])
    | true =>
      rw [initAtomic_of_success hp hl]
      exact .configures cfgDefaults _ 0x0001 rfl (by simp [SendsNothing])

/-- Every operation that answers a next state is of one of the shapes. -/
theorem exec_cases {i : Instr} {s t : State} (h : exec i s = .next t) : Executed s i t := by
  cases i with
  | rbStore b d => exact .of_store (.inl rfl) h
  | write d => exact .of_store (.inr ⟨rfl, rfl⟩) h
  | rbReadByte b => exact .of_readByte (.inl rfl) h
  | read => exact .of_readByte (.inr ⟨rfl, rfl⟩) h
  | rbPeek b | peek => exact .of_peek h
  | flush =>
    refine .of_composite rfl h fun hc hu => ?_
    obtain ⟨r, hr, rfl⟩ := Option.map_eq_some_iff.1 hu
    exact .flushes _ hc hr
  | tick => exact .of_composite rfl h .ticks
  | setMode m =>
    cases h
    have := Executed.configures (s := s) (i := .setMode m) { s.cfg with mode := m } [] rspNothing rfl
      (by simp [SendsNothing])
    rwa [List.append_nil] at this
  | setBiteRate r =>
    refine .of_composite rfl h fun _ hu => ?_
    cases hu
    exact .configures { s.cfg with biteRate := r } [_] _ rfl (by simp [SendsNothing])
  | setPower p =>
    refine .of_composite rfl h fun _ hu => ?_
    cases hu
    exact .configures { s.cfg with power := p } [_] _ rfl (by simp [SendsNothing])
  | setChannel c =>
    refine .of_composite rfl h fun _ hu => ?_
    cases hu
    exact .configures { s.cfg with channel := c } [_] _ rfl (by simp [SendsNothing])
  | init =>
    refine .of_composite rfl h fun _ hu => ?_
    cases hu
    exact .initAtomic s
  | rbOccupied | rbFreeSlots | pcChecksum | pcValidate | available | availableForWrite =>
    cases h
    exact .answers _ _ s.sideOut
  | pcEncode | pcSerialize | pcParse =>
    cases h
    exact .answers _ _ _

/-! ## The moves of a context (R27, R62, R233, R234) -/

/-- What a step of the application can do: it consumes from `RX` and produces into `TX`. -/
structure State.ApplicationMove (s t : State) : Prop where
  par : t.par = s.par
  rx : s.rx.Drained s.par.capacity t.rx
  tx : s.tx.Produced s.par.capacity t.tx
  seq : t.seq = s.seq
  cfg : t.cfg = s.cfg
  trace : t.trace = s.trace
  svc : t.svc = s.svc

/-- What a step of the servicing context can do: it produces into `RX` and consumes from `TX`. -/
structure State.ServicingMove (s t : State) : Prop where
  par : t.par = s.par
  rx : s.rx.Produced s.par.capacity t.rx
  tx : s.tx.Drained s.par.capacity t.tx
  app : t.app = s.app

/-- What a step of this context can do. -/
def State.Move (s : State) : Role → State → Prop
  | .application, t => s.ApplicationMove t
  | .servicing, t => s.ServicingMove t

/-- What this context may be in the middle of (R72, R233, R234). -/
def Activity.OkFor (s : State) : Role → Activity → Prop
  | .application, a => a = .flushRead ∨ a = .flushReturn
  | .servicing, a => a.Ok s

/-- What may follow an atomic step of this context. -/
def After.OkFor (s : State) (r : Role) : After → Prop
  | .more a => a.OkFor s r
  | .done _ => True

section Moves

variable {s t : State} {r : Role}

/-- A step that leaves the buffers and what the other context owns is a move of either context. -/
theorem State.Move.of_same (hrx : s.rx.Ok s.par.capacity) (htx : s.tx.Ok s.par.capacity)
    (hp : t.par = s.par) (hr : t.rx = s.rx) (ht : t.tx = s.tx)
    (hother : r = .application → t.seq = s.seq ∧ t.cfg = s.cfg ∧ t.trace = s.trace ∧ t.svc = s.svc)
    (happ : r = .servicing → t.app = s.app) : s.Move r t := by
  cases r with
  | application =>
    obtain ⟨hseq, hcfg, htrace, hsvc⟩ := hother rfl
    exact ⟨hp, hr.symm ▸ .refl hrx, ht.symm ▸ .refl htx, hseq, hcfg, htrace, hsvc⟩
  | servicing => exact ⟨hp, hr.symm ▸ .refl hrx, ht.symm ▸ .refl htx, happ rfl⟩

theorem State.ServicingMove.of_same (hrx : s.rx.Ok s.par.capacity) (htx : s.tx.Ok s.par.capacity)
    (hp : t.par = s.par) (hr : t.rx = s.rx) (ht : t.tx = s.tx) (happ : t.app = s.app) :
    s.ServicingMove t :=
  State.Move.of_same (r := .servicing) hrx htx hp hr ht nofun fun _ => happ

theorem State.Move.par (h : s.Move r t) : t.par = s.par := by
  cases r with
  | application => exact ApplicationMove.par h
  | servicing => exact ServicingMove.par h

theorem State.Move.rx_ok (h : s.Move r t) : t.rx.Ok s.par.capacity := by
  cases r with
  | application => exact (ApplicationMove.rx h).ok
  | servicing => exact (ServicingMove.rx h).ok

theorem State.Move.tx_ok (h : s.Move r t) : t.tx.Ok s.par.capacity := by
  cases r with
  | application => exact (ApplicationMove.tx h).ok
  | servicing => exact (ServicingMove.tx h).ok

/-- Production into a buffer is a move of its producer, and consumption from it one of its consumer
(R27). -/
theorem State.Move.of_produced {b : Buf} {q : RingBuffer} (w : Half) (hrx : s.rx.Ok s.par.capacity)
    (htx : s.tx.Ok s.par.capacity) (h : (s.ring b).Produced s.par.capacity q) :
    s.Move (producer b) ((s.setRing b q).respond w) := by
  cases b with
  | rx => exact ⟨rfl, h, .refl htx, rfl⟩
  | tx => exact ⟨rfl, .refl hrx, h, rfl, rfl, rfl, rfl⟩

theorem State.Move.of_drained {b : Buf} {q : RingBuffer} (w : Half) (hrx : s.rx.Ok s.par.capacity)
    (htx : s.tx.Ok s.par.capacity) (h : (s.ring b).Drained s.par.capacity q) :
    s.Move (consumer b) ((s.setRing b q).respond w) := by
  cases b with
  | rx => exact ⟨rfl, h, .refl htx, rfl, rfl, rfl, rfl⟩
  | tx => exact ⟨rfl, .refl hrx, h, rfl⟩

end Moves

/-! ## The other context's answers stay bounds (R66, R270) -/

section Bounds

variable {s t : State}

theorem State.occupied_congr {b : Buf} (hp : t.par = s.par) :
    t.occupied b = (t.ring b).occupied s.par.capacity := by
  rw [State.occupied, hp]

theorem State.freeSlots_congr {b : Buf} (hp : t.par = s.par) :
    t.freeSlots b = (t.ring b).freeSlots s.par.capacity := by
  rw [State.freeSlots, hp]

theorem State.ApplicationMove.bounds (h : s.ApplicationMove t) :
    s.occupied .tx ≤ t.occupied .tx ∧ s.freeSlots .rx ≤ t.freeSlots .rx ∧
      t.freeSlots .tx ≤ s.freeSlots .tx ∧ t.occupied .rx ≤ s.occupied .rx := by
  simp only [State.occupied_congr h.par, State.freeSlots_congr h.par]
  exact ⟨h.tx.occupied, RingBuffer.freeSlots_le_of_occupied_le h.rx.occupied,
    RingBuffer.freeSlots_le_of_occupied_le h.tx.occupied, h.rx.occupied⟩

theorem State.ServicingMove.bounds (h : s.ServicingMove t) :
    s.occupied .rx ≤ t.occupied .rx ∧ s.freeSlots .tx ≤ t.freeSlots .tx ∧
      t.freeSlots .rx ≤ s.freeSlots .rx ∧ t.occupied .tx ≤ s.occupied .tx := by
  simp only [State.occupied_congr h.par, State.freeSlots_congr h.par]
  exact ⟨h.rx.occupied, RingBuffer.freeSlots_le_of_occupied_le h.tx.occupied,
    RingBuffer.freeSlots_le_of_occupied_le h.rx.occupied, h.tx.occupied⟩

/-- What an operation in progress relies on is a lower bound that the other context never undercuts
(R66, R72). -/
theorem Activity.Ok.mono {a : Activity} (h : a.Ok s) (hp : t.par = s.par)
    (hfree : s.freeSlots .rx ≤ t.freeSlots .rx) (hocc : s.occupied .tx ≤ t.occupied .tx) : a.Ok t := by
  cases a with
  | tickCopy p rest => exact Nat.le_trans h hfree
  | tickDrain n scratch =>
    obtain ⟨hn, hn', hmax⟩ := h
    exact ⟨hn, Nat.le_trans hn' hocc, hp ▸ hmax⟩
  | tickAckSend g | tickSend g => exact (hp ▸ h : FrameOk t.par g)
  | tickAckSerialize q | tickSeq q | tickSerialize q =>
    exact (hp ▸ h : q.payload.length ≤ t.par.maxPayload)
  | tickEncode scratch => exact (hp ▸ h : 0 < scratch.length ∧ scratch.length ≤ t.par.maxPayload)
  | _ => exact h

end Bounds

/-! ## The moves of an operation (R45, R235) -/

theorem mayIssue_homePort (i : Instr) : mayIssue (homePort i) i = true := by
  cases i <;> simp [mayIssue, homePort]

section Issue

variable {i : Instr} {r : Role} {b : Buf} {d : Byte}

theorem eq_producer_of_mayIssue (hi : i = .rbStore b d ∨ b = .tx ∧ i = .write d)
    (hm : mayIssue r i = true) : r = producer b := by
  rcases hi with rfl | ⟨rfl, rfl⟩ <;> simpa [mayIssue, producer] using hm

theorem eq_consumer_of_mayIssue (hi : i = .rbReadByte b ∨ b = .rx ∧ i = .read)
    (hm : mayIssue r i = true) : r = consumer b := by
  rcases hi with rfl | ⟨rfl, rfl⟩ <;> simpa [mayIssue, consumer] using hm

theorem eq_servicing_of_writesCfg (hi : writesCfg i = true) (hm : mayIssue r i = true) :
    r = .servicing := by
  cases i <;> simp_all [writesCfg, mayIssue]

theorem eq_of_compositeOf {r' : Role} {a : Activity} (hi : compositeOf i = some (r', a))
    (hm : mayIssue r i = true) : r' = r := by
  cases i <;> simp_all [compositeOf, mayIssue]

/-- Every program begins at a step that relies on nothing (R61, R72). -/
theorem okFor_of_compositeOf {a : Activity} (s : State) (hi : compositeOf i = some (r, a)) :
    a.OkFor s r := by
  cases i <;> simp only [compositeOf, Option.some.injEq, Prod.mk.injEq, reduceCtorEq] at hi <;>
    obtain ⟨rfl, rfl⟩ := hi
  case flush => exact .inl rfl
  all_goals trivial

end Issue

/-- An operation that its context may issue is a move of the context (R40, R62). -/
theorem exec_move {i : Instr} {s t : State} {r : Role} (hl : s.par.Legal)
    (hrx : s.rx.Ok s.par.capacity) (htx : s.tx.Ok s.par.capacity) (hm : mayIssue r i = true)
    (h : exec i s = .next t) : s.Move r t := by
  cases exec_cases h with
  | answers i w bytes => exact .of_same hrx htx rfl rfl rfl (fun _ => ⟨rfl, rfl, rfl, rfl⟩) fun _ => rfl
  | stores b d w hi hs =>
    obtain rfl := eq_producer_of_mayIssue hi hm
    refine .of_produced w hrx htx (RingBuffer.produced_of_store ?_ hs)
    cases b <;> assumption
  | reads b w hi hr =>
    obtain rfl := eq_consumer_of_mayIssue hi hm
    refine .of_drained w hrx htx (RingBuffer.drained_of_readByte ?_ hr)
    cases b <;> assumption
  | flushes w hc hf =>
    obtain rfl : r = .application := by simpa [mayIssue] using hm
    exact .of_drained (b := .rx) w hrx htx (RingBuffer.drained_of_flush hrx hf)
  | ticks hc ht =>
    obtain rfl : r = .servicing := by simpa [mayIssue] using hm
    obtain ⟨rx, tx, hstore, hdrain, htick⟩ := exec_tick_cases hl hrx htx hc
    cases htick.symm.trans h
    exact ⟨rfl, RingBuffer.produced_of_storeAll hrx hstore,
      RingBuffer.drained_of_drain htx (sentCount_le_occupied s) hdrain, rfl⟩
  | configures c es w hi he =>
    obtain rfl := eq_servicing_of_writesCfg hi hm
    exact .of_same hrx htx rfl rfl rfl nofun fun _ => rfl
  | begins hc hi =>
    obtain rfl := eq_of_compositeOf hi hm
    refine .of_same hrx htx (by simp) (by simp) (by simp) ?_ ?_ <;> rintro rfl <;> simp

/-- An operation leaves its context in the middle of what it was, or of its own first step (R61). -/
theorem exec_running {i : Instr} {s t : State} (h : exec i s = .next t) :
    (∀ r, t.running r = s.running r) ∨
      s.par.contexts = .dual ∧ ∃ r a, compositeOf i = some (r, a) ∧ t = s.setRunning r (some a) := by
  cases exec_cases h with
  | answers | configures =>
    refine .inl fun r => ?_
    cases r <;> rfl
  | stores | reads | flushes =>
    refine .inl fun r => ?_
    cases r <;> simp
  | ticks hc ht =>
    refine .inl fun r => ?_
    rw [(tickAtomic_frame ht).1]
    cases r <;> rfl
  | begins hc hi => exact .inr ⟨hc, _, _, hi, rfl⟩

/-! ## The moves of an atomic step (R61, R72) -/

section Rings

variable {c : Nat} {q : RingBuffer}

/-- A `store` with a free slot is accepted (R111, R117). -/
theorem RingBuffer.store_of_freeSlots_pos (h : q.Ok c) (hf : 0 < q.freeSlots c) (b : Byte) :
    q.full c = false ∧ q.store c b = some (q.stored c b) := by
  rcases RingBuffer.store_cases h b with ⟨hfull, -⟩ | haccepted
  · have := (q.full_iff_freeSlots h.1 h.2.1).1 hfull
    omega
  · exact haccepted

/-- A `readByte` with a byte there returns it (R113, R116). -/
theorem RingBuffer.readByte_of_occupied_pos (h : q.Ok c) (ho : 0 < q.occupied c) :
    q.empty = false ∧ q.readByte c = some (some (Memory.read q.buf q.tail), q.consumed c) := by
  rcases RingBuffer.readByte_cases h with ⟨hempty, -⟩ | hreturned
  · have := (q.empty_iff h.1 h.2.1).1 hempty
    omega
  · exact hreturned

/-- An accepted byte takes one free slot (R117). -/
theorem RingBuffer.freeSlots_stored (h : q.Ok c) (hf : q.full c = false) (b : Byte) :
    (q.stored c b).freeSlots c + 1 = q.freeSlots c := by
  have := RingBuffer.occupied_stored h hf b
  have := q.occupied_add_freeSlots h.1
  have := (q.stored c b).occupied_add_freeSlots (RingBuffer.stored_ok h b).1
  omega

theorem State.store_of_ring {s : State} {b : Buf} {d : Byte} {c : Nat} (hc : c = s.par.capacity)
    (h : (s.ring b).store c d = some q) : s.store b d = some (s.setRing b q) := by
  subst hc
  rw [State.store, h, Option.map_some]

theorem State.readByte_of_ring {s : State} {b : Buf} {v : Option Byte} {c : Nat}
    (hc : c = s.par.capacity) (h : (s.ring b).readByte c = some (v, q)) :
    s.readByte b = some (v, s.setRing b q) := by
  subst hc
  rw [State.readByte, h, Option.map_some]

end Rings

section MicroSteps

variable {s t : State}

theorem microStep_tickCopy {d : Byte} (h : s.store .rx d = some t) (p : Packet) (rest : List Byte) :
    microStep s (.tickCopy p (d :: rest)) = some (t, nextCopy t p rest) := by
  rw [microStep, h, Option.map_some]

theorem microStep_tickDrain {v : Option Byte} (h : s.readByte .tx = some (v, t)) (n : Nat)
    (scratch : List Byte) :
    microStep s (.tickDrain n scratch) = some (t, nextDrain (scratch ++ v.toList) (n - 1)) := by
  rw [microStep, h, Option.map_some]

theorem microStep_flushRead {v : Option Byte} (h : s.readByte .rx = some (v, t)) :
    microStep s .flushRead
      = some (t, if v = none then .more .flushReturn else .more .flushRead) := by
  rw [microStep, h, Option.map_some]
  cases v <;> rfl

end MicroSteps

section Following

variable {s : State}

theorem okFor_afterCopy (s : State) (p : Packet) : (afterCopy s p).OkFor s .servicing := by
  unfold afterCopy
  split <;> trivial

theorem okFor_nextCopy {p : Packet} {rest : List Byte} (h : rest.length ≤ s.freeSlots .rx) :
    (nextCopy s p rest).OkFor s .servicing := by
  cases rest with
  | nil => exact okFor_afterCopy s p
  | cons d rest => exact h

theorem okFor_nextDrain {scratch : List Byte} {n : Nat} (hn : n ≤ s.occupied .tx)
    (hpos : 0 < scratch.length + n) (hmax : scratch.length + n ≤ s.par.maxPayload) :
    (nextDrain scratch n).OkFor s .servicing := by
  cases n with
  | zero => exact ⟨hpos, hmax⟩
  | succ n => exact ⟨n.succ_pos, hn, hmax⟩

theorem length_copiedBytes_le (s : State) (p : Packet) :
    (s.copiedBytes p).length ≤ s.freeSlots .rx := by
  rw [State.copiedBytes, List.length_take]
  omega

theorem frameOk_serialize {par : Params} {q : Packet} (hl : par.Legal)
    (hq : q.payload.length ≤ par.maxPayload) : FrameOk par (serialize par.wireOrder q) := by
  have := Params.maxPayload_bounds hl
  rw [FrameOk, length_serialize]
  omega

end Following

section AtomicSteps

variable {s : State} {a : Activity}

/-- Each atomic step of the servicing context completes, is a move, and leads to a step within its
bounds (R61, R72). -/
theorem microStep_servicing (hl : s.par.Legal) (hrx : s.rx.Ok s.par.capacity)
    (htx : s.tx.Ok s.par.capacity) (ha : a.Ok s) :
    ∃ u x, microStep s a = some (u, x) ∧ s.ServicingMove u ∧ x.OkFor u .servicing := by
  have hsame : s.ServicingMove s := .of_same hrx htx rfl rfl rfl rfl
  have hcall (c : LinkCall) : s.ServicingMove (s.call c) := .of_same hrx htx rfl rfl rfl rfl
  cases a with
  | tickAvailable =>
    refine ⟨_, _, rfl, hcall _, ?_⟩
    split <;> trivial
  | tickRecv =>
    refine ⟨_, _, rfl, hcall _, ?_⟩
    split <;> trivial
  | tickParse f =>
    refine ⟨_, _, rfl, hsame, ?_⟩
    split <;> trivial
  | tickValidate p =>
    by_cases hv : validate p = true
    · refine ⟨_, _, if_pos hv, ?_, trivial⟩
      rw [observeAck_frame]
      exact .of_same hrx htx rfl rfl rfl rfl
    · exact ⟨_, _, if_neg hv, hsame, trivial⟩
  | tickFreeSlots p => exact ⟨_, _, rfl, hsame, okFor_nextCopy (length_copiedBytes_le s p)⟩
  | tickCopy p rest =>
    cases rest with
    | nil => exact ⟨_, _, rfl, hsame, okFor_afterCopy s p⟩
    | cons d rest =>
      have hroom : rest.length + 1 ≤ s.rx.freeSlots s.par.capacity := ha
      obtain ⟨hf, hs⟩ := RingBuffer.store_of_freeSlots_pos hrx (by omega) d
      have hstore : s.store .rx d = some (s.setRing .rx (s.rx.stored s.par.capacity d)) :=
        State.store_of_ring rfl hs
      refine ⟨_, _, microStep_tickCopy hstore p rest,
        ⟨rfl, RingBuffer.produced_of_store hrx hs, .refl htx, rfl⟩, okFor_nextCopy ?_⟩
      have := RingBuffer.freeSlots_stored hrx hf d
      show rest.length ≤ (s.rx.stored s.par.capacity d).freeSlots s.par.capacity
      omega
  | tickAckEncode p =>
    refine ⟨_, _, rfl, hsame, ?_⟩
    rw [ackPacket_eq]
    exact Nat.zero_le _
  | tickAckSerialize q => exact ⟨_, _, rfl, hsame, frameOk_serialize hl ha⟩
  | tickBusy =>
    refine ⟨_, _, rfl, hcall _, ?_⟩
    split <;> trivial
  | tickOccupied =>
    refine ⟨_, _, rfl, hsame, ?_⟩
    split
    · trivial
    · have hocc : s.transmitCount ≤ s.occupied .tx := Nat.min_le_left _ _
      have hmax : s.transmitCount ≤ s.par.maxPayload := Nat.min_le_right _ _
      exact okFor_nextDrain hocc (by simpa using Nat.pos_of_ne_zero ‹_›) (by simpa using hmax)
  | tickDrain n scratch =>
    obtain ⟨hn, hocc, hmax⟩ := ha
    obtain ⟨he, hr⟩ := RingBuffer.readByte_of_occupied_pos htx (Nat.lt_of_lt_of_le hn hocc)
    have hread : s.readByte .tx
        = some (some (Memory.read s.tx.buf s.tx.tail), s.setRing .tx (s.tx.consumed s.par.capacity)) :=
      State.readByte_of_ring rfl hr
    refine ⟨_, _, microStep_tickDrain hread n scratch,
      ⟨rfl, .refl hrx, RingBuffer.drained_of_readByte htx hr, rfl⟩, okFor_nextDrain ?_ ?_ ?_⟩
    · have := RingBuffer.occupied_consumed htx he
      have : n ≤ s.tx.occupied s.par.capacity := hocc
      show n - 1 ≤ (s.tx.consumed s.par.capacity).occupied s.par.capacity
      omega
    · simp
    · simp only [Option.toList_some, List.length_append, List.length_singleton, State.setRing_par]
      omega
  | tickEncode scratch =>
    refine ⟨_, _, rfl, hsame, ?_⟩
    split
    next q hq =>
      rcases encodePacket_cases s.par scratch scratch.length s.seq s.par.txStreamId
        (txFlags s.par.flags) with ⟨-, hnone⟩ | ⟨hlen, p, hp, -, -, -, hpayload, -⟩
      · exact absurd (hq.symm.trans hnone) nofun
      · obtain rfl := Option.some.inj (hq.symm.trans hp)
        show q.payload.length ≤ s.par.maxPayload
        rwa [hpayload, List.take_length]
    next => trivial
  | tickSeq q => exact ⟨_, _, rfl, .of_same hrx htx rfl rfl rfl rfl, ha⟩
  | tickSerialize q => exact ⟨_, _, rfl, hsame, frameOk_serialize hl ha⟩
  | initLink =>
    by_cases hp : s.pinsValid = true
    · refine ⟨_, _, if_pos hp, hcall _, ?_⟩
      split <;> trivial
    · exact ⟨_, _, if_neg hp, hsame, trivial⟩
  | flushRead | flushReturn => exact ha.elim
  | _ => exact ⟨_, _, rfl, .of_same hrx htx rfl rfl rfl rfl, trivial⟩

/-- Each atomic step of a `flush` completes and is a move of the application (R188, R266). -/
theorem microStep_application (hrx : s.rx.Ok s.par.capacity) (htx : s.tx.Ok s.par.capacity)
    (ha : a = .flushRead ∨ a = .flushReturn) :
    ∃ u x, microStep s a = some (u, x) ∧ s.ApplicationMove u ∧ x.OkFor u .application := by
  rcases ha with rfl | rfl
  · obtain ⟨v, q, hr, -⟩ := RingBuffer.readByte_completes hrx
    have hread : s.readByte .rx = some (v, s.setRing .rx q) := State.readByte_of_ring rfl hr
    refine ⟨_, _, microStep_flushRead hread,
      ⟨rfl, RingBuffer.drained_of_readByte hrx hr, .refl htx, rfl, rfl, rfl, rfl⟩, ?_⟩
    cases v with
    | none => exact .inr rfl
    | some _ => exact .inl rfl
  · exact ⟨s, _, rfl, ⟨rfl, .refl hrx, .refl htx, rfl, rfl, rfl, rfl⟩, trivial⟩

theorem microStep_move {r : Role} (hl : s.par.Legal) (hrx : s.rx.Ok s.par.capacity)
    (htx : s.tx.Ok s.par.capacity) (ha : a.OkFor s r) :
    ∃ u x, microStep s a = some (u, x) ∧ s.Move r u ∧ x.OkFor u r := by
  cases r with
  | application => exact microStep_application hrx htx ha
  | servicing => exact microStep_servicing hl hrx htx ha

end AtomicSteps

/-! ## The invariant along a step (R21, R60, R72) -/

section Invariant

variable {s t : State} {r : Role}

/-- What a context is in the middle of is an operation it may be in the middle of. -/
theorem State.Inv.okFor {a : Activity} (h : s.Inv) (ha : s.running r = some a) : a.OkFor s r := by
  cases r with
  | application =>
    rcases h.app with happ | happ | happ <;> cases happ.symm.trans ha
    · exact .inl rfl
    · exact .inr rfl
  | servicing => exact h.svc a ha

/-- The invariant speaks of the parameters, the buffers and the operations in progress alone. -/
theorem State.Inv.congr (h : s.Inv) (hp : t.par = s.par) (hrx : t.rx = s.rx) (htx : t.tx = s.tx)
    (happ : t.app = s.app) (hsvc : t.svc = s.svc) : t.Inv where
  par := hp ▸ h.par
  rx := by rw [hp, hrx]; exact h.rx
  tx := by rw [hp, htx]; exact h.tx
  atomic := by rw [hp, happ, hsvc]; exact h.atomic
  app := happ ▸ h.app
  svc a ha := (h.svc a (hsvc ▸ ha)).mono hp (by rw [State.freeSlots_congr hp, State.ring_rx, hrx]; rfl)
    (by rw [State.occupied_congr hp, State.ring_tx, htx]; rfl)

theorem State.Inv.withInputs (h : s.Inv) (rest : List Stimulus) :
    ({ s with inputs := rest } : State).Inv :=
  h.congr rfl rfl rfl rfl rfl

/-- A move keeps the invariant if its context ends in the middle of nothing or of what it may be in the
middle of: it never undercuts what the other context relies on. -/
theorem State.Inv.of_move (h : s.Inv) (hm : s.Move r t)
    (hatomic : s.par.contexts = .single → t.running r = none)
    (hr : ∀ a, t.running r = some a → a.OkFor t r) : t.Inv := by
  have hp := hm.par
  have hrx := hm.rx_ok
  have htx := hm.tx_ok
  cases r with
  | application =>
    have hbounds := ApplicationMove.bounds hm
    have hsvc : t.svc = s.svc := ApplicationMove.svc hm
    refine ⟨hp ▸ h.par, hp.symm ▸ hrx, hp.symm ▸ htx, ?_, ?_, ?_⟩
    · rw [hp, hsvc]
      exact fun hc => ⟨hatomic hc, (h.atomic hc).2⟩
    · cases happ : t.app with
      | none => exact .inl rfl
      | some a => exact .inr ((hr a happ).imp (congrArg some) (congrArg some))
    · exact fun a ha => (h.svc a (hsvc ▸ ha)).mono hp hbounds.2.1 hbounds.1
  | servicing =>
    have happ : t.app = s.app := ServicingMove.app hm
    refine ⟨hp ▸ h.par, hp.symm ▸ hrx, hp.symm ▸ htx, ?_, happ ▸ h.app, hr⟩
    rw [hp, happ]
    exact fun hc => ⟨(h.atomic hc).1, hatomic hc⟩

theorem State.Inv.running_eq_none (h : s.Inv) (hc : s.par.contexts = .single) (r : Role) :
    s.running r = none := by
  cases r with
  | application => exact (h.atomic hc).1
  | servicing => exact (h.atomic hc).2

/-- A context goes on, or returns, with the state the atomic step left. -/
theorem State.resume_move {u : State} (hm : s.Move r u) (x : After) : s.Move r (u.resume r x) := by
  cases r <;> cases x <;> exact { hm with }

theorem After.OkFor.resume {u : State} {x : After} {a : Activity} (hx : x.OkFor u r)
    (ha : (u.resume r x).running r = some a) : a.OkFor (u.resume r x) r := by
  cases x with
  | done w => cases r <;> cases ha
  | more b =>
    obtain rfl : b = a := by simpa [State.resume] using ha
    cases r with
    | application => exact hx
    | servicing => exact Activity.Ok.mono hx rfl (Nat.le_refl _) (Nat.le_refl _)

/-- From a good state a context's next atomic step completes, is a move of the context and keeps the
invariant (R61, R72). -/
theorem State.Inv.advance (h : s.Inv) (r : Role) :
    ∃ t, s.advance r = .next t ∧ s.Move r t ∧ t.Inv := by
  cases hr : s.running r with
  | none =>
    exact ⟨s, State.advance_none hr,
      .of_same h.rx h.tx rfl rfl rfl (fun _ => ⟨rfl, rfl, rfl, rfl⟩) fun _ => rfl, h⟩
  | some a =>
    obtain ⟨u, x, hu, hmove, hx⟩ := microStep_move h.par h.rx h.tx (h.okFor hr)
    have hmove' := State.resume_move hmove x
    refine ⟨u.resume r x, by rw [State.advance_some hr, hu]; rfl, hmove', h.of_move hmove' ?_ ?_⟩
    · intro hc
      rw [h.running_eq_none hc r] at hr
      cases hr
    · exact fun a ha => hx.resume ha

/-- An operation issued by a context that may issue it, while in the middle of nothing, keeps the
invariant. -/
theorem State.Inv.of_exec {i : Instr} (h : s.Inv) (hm : mayIssue r i = true) (hr : s.running r = none)
    (ht : exec i s = .next t) : t.Inv := by
  refine h.of_move (exec_move h.par h.rx h.tx hm ht) ?_ ?_ <;>
    rcases exec_running ht with hsame | ⟨hc, r', a, hi, rfl⟩
  · exact fun _ => (hsame r).trans hr
  · rw [hc]
    nofun
  · rw [hsame r, hr]
    nofun
  · obtain rfl := eq_of_compositeOf hi hm
    intro b hb
    rw [State.running_setRunning, Option.some.injEq] at hb
    exact hb ▸ okFor_of_compositeOf _ hi

/-- Under `single` an operation keeps the invariant whichever port it came by: it is a move of the context
it is at home in (R60). -/
theorem State.Inv.of_exec_issued {i : Instr} (h : s.Inv)
    (hm : s.par.contexts = .single ∨ mayIssue r i = true) (hr : s.running r = none)
    (ht : exec i s = .next t) : t.Inv := by
  rcases hm with hc | hm
  · exact h.of_exec (mayIssue_homePort i) (h.running_eq_none hc _) ht
  · exact h.of_exec hm hr ht

theorem ringAfterReset_ok {c : Nat} (hc : 0 < c) : ringAfterReset.Ok c :=
  ⟨hc, hc, Memory.wf_nil, nofun⟩

/-- Asserting `reset` makes a good state of any state with legal parameters (R38, R250). -/
theorem State.assertReset_inv (hl : s.par.Legal) : s.assertReset.Inv where
  par := hl
  rx := ringAfterReset_ok (Nat.lt_of_lt_of_le Nat.two_pos hl.1)
  tx := ringAfterReset_ok (Nat.lt_of_lt_of_le Nat.two_pos hl.1)
  atomic _ := ⟨rfl, rfl⟩
  app := .inl rfl
  svc _ := nofun

/-- Every step keeps the invariant. -/
theorem State.Inv.of_step (h : s.Inv) (ht : step s = .next t) : t.Inv := by
  cases step_cases ht with
  | idle _ ht => exact ht ▸ h
  | waits r w rest _ _ _ ht =>
    obtain ⟨u, hu, -, hinv⟩ := h.advance r
    cases hu.symm.trans ht
    exact hinv
  | takes r w rest i _ _ hr _ _ hm ht =>
    refine (h.withInputs rest).of_exec_issued (r := r) hm ?_ ht
    cases r <;> exact hr
  | advances r rest _ ht =>
    obtain ⟨u, hu, -, hinv⟩ := (h.withInputs rest).advance r
    cases hu.symm.trans ht
    exact hinv
  | input rest a bs p l _ _ _ _ ht =>
    subst ht
    exact h.congr rfl rfl rfl rfl rfl
  | resets rest _ ht =>
    subst ht
    exact State.assertReset_inv h.par

end Invariant

end Sys2Proof.Machine

namespace Sys2Proof

open Sys2Proof.Machine

/-- Settles O47: each step is a move of one context, a change of an input, or a reset. -/
theorem stepKeepsTheInvariant : Obligations.StepKeepsTheInvariant :=
  fun _ _ h ht => h.of_step ht

/-- Settles O48: the state after reset is a state with legal parameters whose reset was just asserted. -/
theorem resetSatisfiesTheInvariant : Obligations.ResetSatisfiesTheInvariant :=
  (State.assertReset_inv (s := State.reset) (by decide)).congr rfl rfl rfl rfl rfl

end Sys2Proof

/-! PROOFS of the statements about reserved words and the operation port (R42 to R45, R92, R95, R235). A
word that no operation has is reserved by the first check of the decoder that refuses it, and that check
reads the field `reservedClass` reads. -/

namespace Sys2Proof

open Sys2Proof.Machine

/-- Settles O5, by running the decoder on the listed words. -/
theorem listedWordsDecode : Obligations.ListedWordsDecode := by
  unfold Obligations.ListedWordsDecode
  decide

/-! ## The class of a reserved word, field by field (R91, R95) -/

theorem reservedClass_eq (w : Half) : reservedClass w =
    if 6 ≤ (unitField w).toNat then .unit
    else if highestOp (unitField w).toNat < (opField w).toNat then .op
    else if w = 0x5003 then .modeCode
    else .operand := by
  rw [toNat_unitField, toNat_opField]
  rfl

section ReservedWords

variable {w : Half} {why : Reserved} {u : Nat}

theorem reservedClass_of_unit (h : 6 ≤ (unitField w).toNat) : reservedClass w = .unit := by
  rw [reservedClass_eq, if_pos h]

theorem reservedClass_of_op (hu : (unitField w).toNat = u) (hu6 : u < 6)
    (h : highestOp u < (opField w).toNat) : reservedClass w = .op := by
  subst hu
  rw [reservedClass_eq, if_neg (by omega), if_pos h]

theorem reservedClass_of_operand (hu : (unitField w).toNat = u) (hu6 : u < 6)
    (ho : (opField w).toNat ≤ highestOp u) (hne : w ≠ 0x5003) : reservedClass w = .operand := by
  subst hu
  rw [reservedClass_eq, if_neg (by omega), if_neg (by omega), if_neg hne]

/-- The word of `SET_MODE` with mode code 3 is of unit 5 and `op` 0. -/
theorem ne_modeCodeWord (h : (unitField w).toNat ≠ 5 ∨ (opField w).toNat ≠ 0) : w ≠ 0x5003 := by
  rintro rfl
  revert h
  decide

theorem decodeNoOperand_reserved {i : Instr} (h : decodeNoOperand w i = .reserved why) :
    why = .operand := by
  unfold decodeNoOperand at h
  split at h <;> cases h
  rfl

/-- An operation without an operand refuses a word for its operand only. -/
theorem class_of_decodeNoOperand {i : Instr} {o : Nat} (hu : (unitField w).toNat = u)
    (ho : (opField w).toNat = o) (h : decodeNoOperand w i = .reserved why)
    (hu6 : u < 6 := by decide) (hmax : o ≤ highestOp u := by decide)
    (hne : u ≠ 5 ∨ o ≠ 0 := by decide) : why = reservedClass w := by
  rw [decodeNoOperand_reserved h,
    reservedClass_of_operand hu hu6 (ho ▸ hmax) (ne_modeCodeWord (hu ▸ ho ▸ hne))]

/-- A setter refuses a word for the zeros of its operand, or for its code. -/
theorem decodeSetter_reserved {d : Decoded} (h : decodeSetter w d = .reserved why) :
    (operandField w ≠ (codeField w).setWidth 8 ∧ why = .operand) ∨
      (operandField w = (codeField w).setWidth 8 ∧ d = .reserved why) := by
  rw [ne_eq, ← highOperand_eq_zero_iff]
  unfold decodeSetter at h
  split at h
  next hd => exact .inr ⟨hd, h⟩
  next hd =>
    cases h
    exact .inl ⟨hd, rfl⟩

theorem class_of_decodeSetter {i : Instr} {o : Nat} (hu : (unitField w).toNat = 5)
    (ho : (opField w).toNat = o) (h : decodeSetter w (.ok i) = .reserved why)
    (hmax : o ≤ highestOp 5 := by decide) (hne : o ≠ 0 := by decide) : why = reservedClass w := by
  rcases decodeSetter_reserved h with ⟨-, rfl⟩ | ⟨-, hd⟩
  · exact (reservedClass_of_operand hu (by decide) (ho ▸ hmax)
      (ne_modeCodeWord (.inr (ho ▸ hne)))).symm
  · cases hd

/-- `SET_MODE` refuses a word for the zeros of its operand, or the one word with mode code 3 (R95). -/
theorem class_of_decodeSetMode (hu : (unitField w).toNat = 5) (ho : (opField w).toNat = 0)
    (h : decodeSetter w (decodeSetMode w) = .reserved why) : why = reservedClass w := by
  rcases decodeSetter_reserved h with ⟨hhigh, rfl⟩ | ⟨hlow, hd⟩
  · refine (reservedClass_of_operand hu (by decide) (by rw [ho]; decide) ?_).symm
    rintro rfl
    exact hhigh (by decide)
  · unfold decodeSetMode at hd
    split at hd
    · cases hd
    · rename_i hcode
      cases hd
      have hword : w = 0x5003 := by
        rw [← commandWord_fields w, hlow, modeOfCode_eq_none_iff.1 hcode,
          BitVec.eq_of_toNat_eq (y := 5#4) hu, BitVec.eq_of_toNat_eq (y := 0#4) ho]
        decide
      rw [hword]
      rfl

theorem class_of_decodeRing {b : Buf} (hu : (unitField w).toNat = u) (hub : u = (ringUnit b).toNat)
    (h : decodeRing b w = .reserved why) : why = reservedClass w := by
  have hu4 : highestOp u = 4 ∧ u < 5 := by
    subst hub
    cases b <;> decide
  unfold decodeRing at h
  split at h
  next => cases h
  next ho =>
    exact class_of_decodeNoOperand hu ho h (by omega) (by omega) (by omega)
  next ho =>
    exact class_of_decodeNoOperand hu ho h (by omega) (by omega) (by omega)
  next ho =>
    exact class_of_decodeNoOperand hu ho h (by omega) (by omega) (by omega)
  next ho =>
    exact class_of_decodeNoOperand hu ho h (by omega) (by omega) (by omega)
  next h0 h1 h2 h3 h4 =>
    cases h
    simp only [imp_false] at *
    exact (reservedClass_of_op hu (by omega) (by omega)).symm

theorem class_of_decodeCodec (hu : (unitField w).toNat = 2) (h : decodeCodec w = .reserved why) :
    why = reservedClass w := by
  unfold decodeCodec at h
  split at h
  next ho => exact class_of_decodeNoOperand hu ho h
  next ho => exact class_of_decodeNoOperand hu ho h
  next ho => exact class_of_decodeNoOperand hu ho h
  next ho => exact class_of_decodeNoOperand hu ho h
  next ho => exact class_of_decodeNoOperand hu ho h
  next h0 h1 h2 h3 h4 =>
    cases h
    simp only [imp_false] at *
    exact (reservedClass_of_op hu (by decide) (by simp only [highestOp]; omega)).symm

theorem class_of_decodeStream (hu : (unitField w).toNat = 3) (h : decodeStream w = .reserved why) :
    why = reservedClass w := by
  unfold decodeStream at h
  split at h
  next ho => exact class_of_decodeNoOperand hu ho h
  next ho => exact class_of_decodeNoOperand hu ho h
  next ho => exact class_of_decodeNoOperand hu ho h
  next => cases h
  next ho => exact class_of_decodeNoOperand hu ho h
  next ho => exact class_of_decodeNoOperand hu ho h
  next h0 h1 h2 h3 h4 h5 =>
    cases h
    simp only [imp_false] at *
    exact (reservedClass_of_op hu (by decide) (by simp only [highestOp]; omega)).symm

theorem class_of_decodeTick (hu : (unitField w).toNat = 4) (h : decodeTick w = .reserved why) :
    why = reservedClass w := by
  unfold decodeTick at h
  split at h
  next ho => exact class_of_decodeNoOperand hu ho h
  next h0 =>
    cases h
    simp only [imp_false] at *
    exact (reservedClass_of_op hu (by decide) (by simp only [highestOp]; omega)).symm

theorem class_of_decodeConfig (hu : (unitField w).toNat = 5) (h : decodeConfig w = .reserved why) :
    why = reservedClass w := by
  unfold decodeConfig at h
  split at h
  next ho => exact class_of_decodeSetMode hu ho h
  next ho => exact class_of_decodeSetter hu ho h
  next ho => exact class_of_decodeSetter hu ho h
  next ho => exact class_of_decodeSetter hu ho h
  next ho => exact class_of_decodeNoOperand hu ho h
  next h0 h1 h2 h3 h4 =>
    cases h
    simp only [imp_false] at *
    exact (reservedClass_of_op hu (by decide) (by simp only [highestOp]; omega)).symm

/-- The decoder refuses a word by the name of its class (R95). -/
theorem class_of_decode (h : decode w = .reserved why) : why = reservedClass w := by
  unfold decode at h
  split at h
  next hu => exact class_of_decodeRing hu rfl h
  next hu => exact class_of_decodeRing hu rfl h
  next hu => exact class_of_decodeCodec hu h
  next hu => exact class_of_decodeStream hu h
  next hu => exact class_of_decodeTick hu h
  next hu => exact class_of_decodeConfig hu h
  next h0 h1 h2 h3 h4 h5 =>
    cases h
    simp only [imp_false] at *
    exact (reservedClass_of_unit (by omega)).symm

/-- A word that is not well formed decodes to its class (R92, R95). -/
theorem decode_of_not_wellFormedWord (h : wellFormedWord w = false) :
    decode w = .reserved (reservedClass w) := by
  cases hd : decode w with
  | ok i => simp [(decodeAcceptsExactlyTheOpcodeMap w).1 ⟨i, hd⟩] at h
  | reserved why => rw [class_of_decode hd]

theorem not_wellFormedWord_of_decode (h : decode w = .reserved why) : wellFormedWord w = false := by
  rw [Bool.eq_false_iff]
  intro hw
  obtain ⟨i, hi⟩ := (decodeAcceptsExactlyTheOpcodeMap w).2 hw
  cases h.symm.trans hi

end ReservedWords

end Sys2Proof

namespace Sys2Proof.Machine

/-! ## A command at a port (R43 to R45) -/

section Port

variable {s : State} {r : Role} {w : Half} {rest : List Stimulus} {i : Instr}

theorem step_of_command (h : s.inputs = .command r w :: rest) : step s = s.present r w rest := by
  simp only [step, serve, h]

theorem step_of_advance (h : s.inputs = .advance r :: rest) :
    step s = ({ s with inputs := rest } : State).advance r := by
  simp only [step, serve, h]

theorem step_of_command_asserted (h : s.inputs = .command r w :: rest) (hl : s.resetLevel = true) :
    step s = .refused .resetAsserted := by
  rw [step_of_command h, State.present, if_pos hl]

theorem step_of_command_busy (h : s.inputs = .command r w :: rest) (hl : s.resetLevel = false)
    (hr : s.running r ≠ none) : step s = s.advance r := by
  rw [step_of_command h, State.present, if_neg (by simp [hl]),
    if_pos (Option.isSome_iff_ne_none.2 hr)]

theorem step_of_command_free (h : s.inputs = .command r w :: rest) (hl : s.resetLevel = false)
    (hr : s.running r = none) : step s = ({ s with inputs := rest } : State).issue r w := by
  rw [step_of_command h, State.present, if_neg (by simp [hl]), if_neg (by simp [hr])]

theorem State.issue_of_reserved {why : Reserved} (hd : decode w = .reserved why) :
    s.issue r w = .refused (.reserved why) := by
  simp only [State.issue, hd]

theorem State.issue_of_not_reachable (hd : decode w = .ok i)
    (ha : reachable s.par.assembly i = false) : s.issue r w = .refused .notReachable := by
  simp [State.issue, hd, ha]

theorem State.issue_of_not_mayIssue (hd : decode w = .ok i) (ha : reachable s.par.assembly i = true)
    (hc : s.par.contexts = .dual) (hm : mayIssue r i = false) :
    s.issue r w = .refused .roleViolation := by
  simp [State.issue, hd, ha, hc, hm]

/-- A command its context may issue runs on the state with the command taken (R44, R45). -/
theorem step_eq_exec (h : s.inputs = .command r w :: rest) (hl : s.resetLevel = false)
    (hr : s.running r = none) (hd : decode w = .ok i) (ha : reachable s.par.assembly i = true)
    (hm : s.par.contexts = .single ∨ mayIssue r i = true) :
    step s = exec i { s with inputs := rest } := by
  rw [step_of_command_free h hl hr]
  exact State.issue_eq_exec hd ha hm

theorem reachable_homeAssembly (i : Instr) : reachable (homeAssembly i) i = true := by
  unfold homeAssembly
  cases h : isInternal i <;> simp [reachable, h]

/-- A word presented next runs at its operation's home port (R44, R45, R48). -/
theorem step_presentNext (s : State) (hd : decode w = .ok i) :
    step (s.presentNext w) = exec i { s with
      resetLevel := false, app := none, svc := none
      par := { s.par with assembly := homeAssembly i } } := by
  have hport : portOfWord w = homePort i := by simp only [portOfWord, hd]
  have hassembly : assemblyOfWord w = homeAssembly i := by simp only [assemblyOfWord, hd]
  have hpresent : s.presentNext w = { s with
      resetLevel := false, app := none, svc := none
      par := { s.par with assembly := homeAssembly i }
      inputs := .command (homePort i) w :: s.inputs } := by
    rw [State.presentNext, hport, hassembly]
  have hfree : (s.presentNext w).running (homePort i) = none := by cases homePort i <;> rfl
  rw [hpresent] at hfree ⊢
  exact step_eq_exec rfl rfl hfree hd (reachable_homeAssembly i) (.inr (mayIssue_homePort i))

end Port

theorem decodeTableWord_eq_some {n w : Nat} {i : Instr} (h : decodeTableWord n w = some i) :
    decode (BitVec.ofNat 16 (w % 2 ^ n)) = .ok i := by
  unfold decodeTableWord at h
  split at h <;> cases h
  assumption

end Sys2Proof.Machine

namespace Sys2Proof

open Sys2Proof.Machine

/-- Settles O6: the port finds the context free and the operation allowed. -/
theorem stepRunsTheDecodedOperation : Obligations.StepRunsTheDecodedOperation :=
  fun _ _ _ _ _ h hl hr hd ha hm => step_eq_exec h hl hr hd ha hm

/-- Settles O7: the fetched word is presented at the home port of its operation, in its assembly. -/
theorem presentedWordRunsNext : Obligations.PresentedWordRunsNext :=
  fun s _ _ _ h => step_presentNext s (decodeTableWord_eq_some h)

/-- Settles O8: a word that is not well formed decodes to its class. -/
theorem reservedWordIsRefused : Obligations.ReservedWordIsRefused := by
  intro s r w rest h hl hr hw
  rw [step_of_command_free h hl hr, State.issue_of_reserved (decode_of_not_wellFormedWord hw)]

/-- Settles O9: the checks of the port in their order. -/
theorem portRefusesUnderResetAndOtherRole : Obligations.PortRefusesUnderResetAndOtherRole := by
  intro s r w rest h
  refine ⟨step_of_command_asserted h, fun i hl hr hd ha => ?_, fun i hl hr hd ha hc hm => ?_⟩
  · rw [step_of_command_free h hl hr]
    exact State.issue_of_not_reachable hd ha
  · rw [step_of_command_free h hl hr]
    exact State.issue_of_not_mayIssue hd ha hc hm

/-- Settles O10: the step is `assertReset`, whose fields are the values of R38. -/
theorem resetRestoresTheStatedValues : Obligations.ResetRestoresTheStatedValues := by
  intro s rest h
  have hstep : step s = .next ({ s with inputs := rest } : State).assertReset := by
    simp only [step, serve, h]
  exact ⟨_, hstep, rfl, rfl, rfl, rfl, rfl, rfl, rfl, rfl⟩

end Sys2Proof

/-! PROOFS of the RingBuffer statements about one operation and about the bounded queue (R23 to R26, R111 to
R121, R181 to R188). An operation on a buffer answers what the buffer's primitive answers, and changes that
buffer and the response alone. -/

namespace Sys2Proof.Machine

/-! ## An operation on a buffer is the buffer's primitive (R110 to R117, R181 to R187) -/

@[simp] theorem State.respond_ring (s : State) (w : Half) (b : Buf) : (s.respond w).ring b = s.ring b := by
  cases b <;> rfl

theorem RingBuffer.empty_eq_true_iff {r : RingBuffer} : r.empty = true ↔ r.head = r.tail := by
  simp [RingBuffer.empty]

theorem RingBuffer.full_eq_true_iff {c : Nat} {r : RingBuffer} :
    r.full c = true ↔ (r.head + 1) % c = r.tail := by
  simp [RingBuffer.full]

section Equations

variable {s : State} {b : Buf} {q : RingBuffer} {v : Option Byte} {d : Byte}

theorem exec_rbStore_of_store (h : (s.ring b).store s.par.capacity d = some q) :
    exec (.rbStore b d) s = .next ((s.setRing b q).respond 0x0000) := by
  show slotOutcome ((s.store b d).map fun t => t.respond rspNothing) = _
  rw [State.store_of_ring rfl h]
  rfl

theorem exec_write_of_store (h : s.tx.store s.par.capacity d = some q) :
    exec (.write d) s = .next ((s.setRing .tx q).respond 0x0001) := by
  show slotOutcome ((s.store .tx d).map fun t => t.respond (rspCount 1)) = _
  rw [State.store_of_ring (b := .tx) rfl h]
  rfl

theorem exec_rbReadByte_of_readByte (h : (s.ring b).readByte s.par.capacity = some (v, q)) :
    exec (.rbReadByte b) s = .next ((s.setRing b q).respond (rspByte v)) := by
  show slotOutcome ((s.readByte b).map fun q => q.2.respond (rspByte q.1)) = _
  rw [State.readByte_of_ring rfl h]
  rfl

theorem exec_rbPeek_of_peek (h : (s.ring b).peek s.par.capacity = some v) :
    exec (.rbPeek b) s = .next (s.respond (rspByte v)) := by
  show slotOutcome ((s.peek b).map fun v => s.respond (rspByte v)) = _
  rw [State.peek, h]
  rfl

/-- `READ` and `PEEK` are `RB_READBYTE` and `RB_PEEK` on `RX` (R182, R183). -/
theorem exec_read_eq (s : State) : exec .read s = exec (.rbReadByte .rx) s := rfl

theorem exec_peek_eq (s : State) : exec .peek s = exec (.rbPeek .rx) s := rfl

theorem exec_available_eq (s : State) :
    exec .available s = .next (s.respond (BitVec.ofNat 16 (s.occupied .rx))) := rfl

theorem exec_availableForWrite_eq (s : State) :
    exec .availableForWrite s = .next (s.respond (BitVec.ofNat 16 (s.freeSlots .tx))) := rfl

theorem exec_available_of_occupied {n : Nat} (h : s.rx.occupied s.par.capacity = n) :
    exec .available s = .next (s.respond (BitVec.ofNat 16 n)) := h ▸ exec_available_eq s

theorem exec_availableForWrite_of_freeSlots {n : Nat} (h : s.tx.freeSlots s.par.capacity = n) :
    exec .availableForWrite s = .next (s.respond (BitVec.ofNat 16 n)) :=
  h ▸ exec_availableForWrite_eq s

theorem exec_rbReadByte_of_empty (h : (s.ring b).empty = true) :
    exec (.rbReadByte b) s = .next (s.respond 0x0100) := by
  rw [exec_rbReadByte_of_readByte (q := s.ring b) (v := none) (if_pos h), State.setRing_self]
  rfl

theorem exec_rbPeek_of_empty (h : (s.ring b).empty = true) :
    exec (.rbPeek b) s = .next (s.respond 0x0100) :=
  exec_rbPeek_of_peek (v := none) (if_pos h)

theorem exec_write_of_full (h : s.tx.full s.par.capacity = true) :
    exec (.write d) s = .next (s.respond 0x0001) :=
  exec_write_of_store (q := s.tx) (if_pos h)

/-- The exact outcome of `RB_READBYTE` on a buffer in range (R113). -/
theorem exec_rbReadByte_eq (b : Buf) (s : State) (h : (s.ring b).Ok s.par.capacity) :
    exec (.rbReadByte b) s = .next
      (if (s.ring b).head = (s.ring b).tail then s.respond 0x0100
       else (s.setRing b { s.ring b with tail := ((s.ring b).tail + 1) % s.par.capacity }).respond
        ((Memory.read (s.ring b).buf (s.ring b).tail).setWidth 16)) := by
  rcases RingBuffer.readByte_cases h with ⟨he, -⟩ | ⟨he, hr⟩
  · rw [exec_rbReadByte_of_empty he, if_pos (RingBuffer.empty_eq_true_iff.1 he)]
  · rw [exec_rbReadByte_of_readByte hr, if_neg (by rw [← RingBuffer.empty_eq_true_iff, he]; decide)]
    rfl

/-- The exact outcome of `RB_PEEK` on a buffer in range (R115). -/
theorem exec_rbPeek_eq (b : Buf) (s : State) (h : (s.ring b).Ok s.par.capacity) :
    exec (.rbPeek b) s = .next (s.respond
      (if (s.ring b).head = (s.ring b).tail then 0x0100
       else (Memory.read (s.ring b).buf (s.ring b).tail).setWidth 16)) := by
  rcases RingBuffer.peek_cases h with ⟨he, -⟩ | ⟨he, hp⟩
  · rw [exec_rbPeek_of_empty he, if_pos (RingBuffer.empty_eq_true_iff.1 he)]
  · rw [exec_rbPeek_of_peek hp, if_neg (by rw [← RingBuffer.empty_eq_true_iff, he]; decide)]
    rfl

end Equations

/-! ## What one call does to a buffer, index by index (R111 to R115) -/

section Calls

variable {c : Nat} {r : RingBuffer}

/-- `store` drops the byte or writes the slot at `head` (R111, R112). -/
theorem RingBuffer.store_at_head (h : r.Ok c) (d : Byte) :
    ∃ q, r.store c d = some q ∧ q.tail = r.tail ∧
      if (r.head + 1) % c = r.tail then q = r
      else q.head = (r.head + 1) % c ∧
        ∀ a, Memory.read q.buf a = if a = r.head then d else Memory.read r.buf a := by
  rcases RingBuffer.store_cases h d with ⟨hf, hs⟩ | ⟨hf, hs⟩
  · exact ⟨r, hs, rfl, by rw [if_pos (RingBuffer.full_eq_true_iff.1 hf)]⟩
  · refine ⟨_, hs, rfl, ?_⟩
    rw [if_neg (by rw [← RingBuffer.full_eq_true_iff, hf]; decide)]
    exact ⟨rfl, fun a => Memory.read_write h.2.2.1 _ _ a⟩

/-- The occupancy after a `store` (R111, R117). -/
theorem RingBuffer.store_occupied (h : r.Ok c) (d : Byte) :
    ∃ q, r.store c d = some q ∧
      q.occupied c = if 0 < r.freeSlots c then r.occupied c + 1 else r.occupied c := by
  have hfull := r.full_iff_freeSlots h.1 h.2.1
  rcases RingBuffer.store_cases h d with ⟨hf, hs⟩ | ⟨hf, hs⟩
  · refine ⟨r, hs, ?_⟩
    rw [hfull.1 hf, if_neg (by omega)]
  · refine ⟨_, hs, ?_⟩
    have : r.freeSlots c ≠ 0 := fun h0 => by simp [hfull.2 h0] at hf
    rw [RingBuffer.occupied_stored h hf, if_pos (by omega)]

theorem ringAfterReset_occupied (c : Nat) : ringAfterReset.occupied c = 0 := by
  simp [RingBuffer.occupied, ringAfterReset]

theorem ringAfterReset_contents (c : Nat) : ringAfterReset.contents c = [] := by
  rw [← List.length_eq_zero_iff, RingBuffer.length_contents, ringAfterReset_occupied]

/-! ## The bounded queue (R26, R121) -/

/-- A `store` enqueues unless the queue is full (R112). -/
theorem RingBuffer.store_enqueues (h : r.Ok c) (d : Byte) :
    ∃ q, r.store c d = some q ∧ q.Ok c ∧
      q.contents c = if (r.contents c).length < c - 1 then r.contents c ++ [d] else r.contents c := by
  have hlt := r.occupied_lt h.1
  have hfull := r.full_iff h.1 h.2.1
  rw [RingBuffer.length_contents]
  rcases RingBuffer.store_cases h d with ⟨hf, hs⟩ | ⟨hf, hs⟩
  · exact ⟨r, hs, h, by rw [if_neg (by rw [hfull.1 hf]; omega)]⟩
  · have : r.occupied c ≠ c - 1 := fun h0 => by simp [hfull.2 h0] at hf
    exact ⟨_, hs, RingBuffer.stored_ok h d,
      by rw [if_pos (by omega), RingBuffer.contents_stored h hf]⟩

/-- A `readByte` dequeues (R113). -/
theorem RingBuffer.readByte_dequeues (h : r.Ok c) :
    ∃ q, r.readByte c = some ((r.contents c).head?, q) ∧ q.Ok c ∧
      q.contents c = (r.contents c).tail := by
  rcases RingBuffer.readByte_cases h with ⟨he, hr⟩ | ⟨he, hr⟩
  · have hnil := (RingBuffer.empty_iff_contents h).1 he
    exact ⟨r, by rw [hnil]; exact hr, h, by rw [hnil]; rfl⟩
  · exact ⟨_, by rw [RingBuffer.contents_consumed h he]; exact hr, RingBuffer.consumed_ok h,
      by rw [RingBuffer.contents_consumed h he]; rfl⟩

/-- A `peek` answers the front of the queue (R115). -/
theorem RingBuffer.peek_answers_front (h : r.Ok c) : r.peek c = some (r.contents c).head? := by
  rcases RingBuffer.peek_cases h with ⟨he, hp⟩ | ⟨he, hp⟩
  · rw [(RingBuffer.empty_iff_contents h).1 he]
    exact hp
  · rw [RingBuffer.contents_consumed h he]
    exact hp

/-- Every sequence of calls answers and leaves what it does on the bounded queue. -/
theorem ringAnswers_refines_queueAnswers (calls : List RingCall) (h : r.Ok c) :
    ∃ r', ringAnswers c calls r = some ((queueAnswers (c - 1) calls (r.contents c)).1, r') ∧
      r'.contents c = (queueAnswers (c - 1) calls (r.contents c)).2 ∧ r'.Ok c := by
  induction calls generalizing r with
  | nil => exact ⟨r, rfl, rfl, h⟩
  | cons call calls ih =>
    cases call with
    | store d =>
      obtain ⟨q, hs, hq, hcontents⟩ := RingBuffer.store_enqueues h d
      obtain ⟨r', hrun, hfinal, hr'⟩ := ih hq
      rw [hcontents] at hrun hfinal
      exact ⟨r', by simp only [ringAnswers, hs, hrun, queueAnswers], hfinal, hr'⟩
    | readByte =>
      obtain ⟨q, hr, hq, hcontents⟩ := RingBuffer.readByte_dequeues h
      obtain ⟨r', hrun, hfinal, hr'⟩ := ih hq
      rw [hcontents] at hrun hfinal
      exact ⟨r', by simp only [ringAnswers, hr, hrun, queueAnswers, Option.map_some], hfinal, hr'⟩
    | peek =>
      obtain ⟨r', hrun, hfinal, hr'⟩ := ih h
      exact ⟨r', by simp only [ringAnswers, RingBuffer.peek_answers_front h, hrun, queueAnswers,
        Option.map_some], hfinal, hr'⟩

end Calls

/-! ## Writes one after another (R119, R185) -/

/-- Further writes after a first one are the stores of their bytes in turn. -/
theorem execAll_write_of_storeAll {s : State} {bytes : List Byte} {q : RingBuffer}
    (h : s.tx.storeAll s.par.capacity bytes = some q) :
    execAll (bytes.map .write) (s.respond 0x0001) = .next ((s.setRing .tx q).respond 0x0001) := by
  induction bytes generalizing s with
  | nil =>
    cases h
    rfl
  | cons d bytes ih =>
    rw [RingBuffer.storeAll] at h
    split at h
    · cases h
    · rename_i r hr
      have hwrite : exec (.write d) (s.respond 0x0001)
          = .next ((s.setRing .tx r).respond 0x0001) :=
        exec_write_of_store (s := s.respond 0x0001) hr
      rw [List.map_cons, execAll, hwrite]
      exact ih (s := s.setRing .tx r) h

/-- One write and more are the stores of their bytes in turn, and the answer is that of the last. -/
theorem execAll_write_cons {s : State} {d : Byte} {bytes : List Byte} {q : RingBuffer}
    (h : s.tx.storeAll s.par.capacity (d :: bytes) = some q) :
    execAll ((d :: bytes).map .write) s = .next ((s.setRing .tx q).respond 0x0001) := by
  rw [RingBuffer.storeAll] at h
  split at h
  · cases h
  · rename_i r hr
    rw [List.map_cons, execAll, exec_write_of_store hr]
    exact execAll_write_of_storeAll (s := s.setRing .tx r) h

end Sys2Proof.Machine

namespace Sys2Proof

open Sys2Proof.Machine

/-- Settles O12: the operation is the buffer's `store`. -/
theorem storeWritesAtHeadOrDrops : Obligations.StoreWritesAtHeadOrDrops := by
  intro b d s h
  obtain ⟨q, hs, htail, hcases⟩ := RingBuffer.store_at_head h d
  refine ⟨_, exec_rbStore_of_store hs, ?_, ?_⟩ <;> rw [State.respond_ring, State.setRing_ring]
  exact ⟨htail, hcases⟩

/-- Settles O13: the operation is `store` on `TX`. -/
theorem writeStoresInTxAndAnswersOne : Obligations.WriteStoresInTxAndAnswersOne := by
  intro d s h
  obtain ⟨q, hs, htail, hcases⟩ := RingBuffer.store_at_head h d
  exact ⟨_, exec_write_of_store hs, rfl, htail, hcases⟩

/-- Settles O14: on either buffer, and so on `RX`. -/
theorem readByteTakesTheByteAtTail : Obligations.ReadByteTakesTheByteAtTail :=
  ⟨exec_rbReadByte_eq, fun s h => (exec_read_eq s).trans (exec_rbReadByte_eq .rx s h)⟩

/-- Settles O15: on either buffer, and so on `RX`. -/
theorem peekChangesNothing : Obligations.PeekChangesNothing :=
  ⟨exec_rbPeek_eq, fun s h => (exec_peek_eq s).trans (exec_rbPeek_eq .rx s h)⟩

/-- Settles O16: the queries answer the two counts, which are these formulas. -/
theorem occupancyQueriesAnswerFromTheIndices : Obligations.OccupancyQueriesAnswerFromTheIndices :=
  fun _ s => ⟨rfl, rfl, exec_available_eq s, exec_availableForWrite_eq s⟩

/-- Settles O17: a free slot is what an accepted byte takes. -/
theorem storeIsAcceptedExactlyWhenThereIsRoom : Obligations.StoreIsAcceptedExactlyWhenThereIsRoom := by
  intro b d s h
  obtain ⟨q, hs, hoccupied⟩ := RingBuffer.store_occupied h d
  refine ⟨_, exec_rbStore_of_store hs, ?_⟩
  rw [State.occupied, State.respond_ring, State.setRing_ring, State.respond_par, State.setRing_par]
  exact hoccupied

/-- Settles O20, by induction on the calls. -/
theorem ringBufferRefinesBoundedQueue : Obligations.RingBufferRefinesBoundedQueue :=
  fun _ _ calls h => ringAnswers_refines_queueAnswers calls h

/-- Settles O21: both sides store the bytes in turn. -/
theorem writeNIsRepeatedWrite : Obligations.WriteNIsRepeatedWrite := by
  intro s b bytes h
  obtain ⟨q, hs, -, -, hcontents⟩ := RingBuffer.storeAll_cases (bs := b :: bytes) h
  have hwriteN : s.writeN (b :: bytes) = some (s.setRing .tx q, bytes.length + 1) := by
    simp [State.writeN, State.storeAll, hs]
  exact ⟨_, hwriteN, execAll_write_cons hs, hcontents⟩

/-- Settles O19: of `C` bytes the first `C - 1` fit, and then no slot is free. -/
theorem fillingAnEmptyBuffer : Obligations.FillingAnEmptyBuffer := by
  intro s bytes h hempty hlength
  have hpos : 0 < s.par.capacity := Nat.lt_of_le_of_lt (Nat.zero_le _) h.1
  have hnone : s.tx.occupied s.par.capacity = 0 :=
    (s.tx.empty_iff h.1 h.2.1).1 (RingBuffer.empty_eq_true_iff.2 hempty)
  have hfree : s.tx.freeSlots s.par.capacity = s.par.capacity - 1 := by
    have := s.tx.occupied_add_freeSlots h.1
    omega
  refine ⟨exec_availableForWrite_of_freeSlots hfree, ?_⟩
  obtain ⟨q, hs, hq, -, hcontents⟩ := RingBuffer.storeAll_cases (bs := bytes) h
  have hnil : s.tx.contents s.par.capacity = [] := by
    rwa [← List.length_eq_zero_iff, RingBuffer.length_contents]
  rw [hnil, hfree, List.nil_append] at hcontents
  have hexec : execAll (bytes.map .write) s = .next ((s.setRing .tx q).respond 0x0001) := by
    cases bytes with
    | nil => exact absurd hlength (Nat.ne_of_lt hpos)
    | cons d bytes => exact execAll_write_cons hs
  refine ⟨_, hexec, hcontents, ?_⟩
  have hfull : q.freeSlots s.par.capacity = 0 := by
    have hcount := congrArg List.length hcontents
    rw [RingBuffer.length_contents, List.length_take] at hcount
    have := q.occupied_add_freeSlots hq.1
    omega
  exact exec_availableForWrite_of_freeSlots (s := (s.setRing .tx q).respond 0x0001) hfull

/-- Settles O11: both buffers are empty after a reset. -/
theorem streamContractAfterReset : Obligations.StreamContractAfterReset := by
  intro s hl
  have hok : ringAfterReset.Ok s.par.capacity :=
    ringAfterReset_ok (Nat.lt_of_lt_of_le Nat.two_pos hl.1)
  have hoccupied := ringAfterReset_occupied s.par.capacity
  have hfree := ringAfterReset.occupied_add_freeSlots hok.1
  rw [hoccupied, Nat.zero_add] at hfree
  refine ⟨rfl, exec_available_of_occupied (s := s.afterReset) hoccupied,
    exec_availableForWrite_of_freeSlots (s := s.afterReset) hfree,
    exec_rbReadByte_of_empty (b := .rx) rfl, exec_rbPeek_of_empty (b := .rx) rfl, fun d => ?_⟩
  have hroom : 0 < ringAfterReset.freeSlots s.par.capacity := by
    have := hl.1
    omega
  obtain ⟨hf, hs⟩ := RingBuffer.store_of_freeSlots_pos hok hroom d
  refine ⟨_, exec_write_of_store (s := s.afterReset) hs, ?_⟩
  show (ringAfterReset.stored s.par.capacity d).contents s.par.capacity = [d]
  rw [RingBuffer.contents_stored hok hf, ringAfterReset_contents, List.nil_append]

end Sys2Proof

/-! PROOFS of the statements about the codec operations and the reordered payload (R81, R93, R130 to R136,
R141). The packet an operation reads off the side port is the packet whose frame is there. -/

namespace Sys2Proof.Machine

/-! ## The packet on the side port (R81, R93) -/

section SidePort

variable {s : State} {p : Packet}

theorem State.sideByte_of_lt {k : Nat} (h : k < s.sideIn.length) : s.sideByte k = s.sideIn.getD k 0 := by
  simp [State.sideByte, h]

/-- The sum of a packet whose payload the `length` field can count (R131). -/
theorem Packet.sum_eq (h : p.payload.length < 256) :
    p.sum = BitVec.ofNat 16 (p.sequenceNumber.toNat + p.payload.length + p.streamId.toNat
      + p.flags.toNat + (p.payload.map BitVec.toNat).sum) := by
  rw [Packet.sum, Machine.checksum, Packet.length_toNat h]

theorem sidePacket_of_serialize (h : p.payload.length < 256)
    (hs : s.sideIn = serialize s.par.wireOrder p) : s.sidePacket = p := by
  refine packetAt_of_frame h fun k hk => ?_
  rw [State.sideByte_of_lt (by rwa [hs, length_serialize]), hs]

/-- The fields before the checksum are enough to read a packet: its checksum is then whatever the side port
reads as behind them (R93, R132). -/
theorem sidePacket_of_operands {seq : Half} {sid fl : Byte} {payload extra : List Byte}
    (h : payload.length < 256)
    (hs : s.sideIn = wireBytes s.par.wireOrder seq ++ [BitVec.ofNat 8 payload.length, sid, fl]
      ++ payload ++ extra) :
    ∃ sum, s.sidePacket = ⟨seq, sid, fl, payload, sum⟩ := by
  let p : Packet := ⟨seq, sid, fl, payload, ofWireBytes s.par.wireOrder
    (s.sideByte (5 + payload.length + 0)) (s.sideByte (5 + payload.length + 1))⟩
  have hpayload : p.payload.length = payload.length := rfl
  have hfields : (wireBytes s.par.wireOrder seq ++ [BitVec.ofNat 8 payload.length, sid, fl]
      ++ payload).length = 5 + payload.length := by
    simp
    omega
  refine ⟨p.checksum, packetAt_of_frame (p := p) h fun k hk => ?_⟩
  rcases Nat.lt_or_ge k (5 + payload.length) with hlt | hge
  · rw [State.sideByte_of_lt (by rw [hs, List.length_append]; omega), hs,
      List.getD_append _ _ _ _ (by omega)]
    exact (List.getD_append _ _ _ _ (by omega)).symm
  · obtain ⟨j, rfl⟩ := Nat.exists_eq_add_of_le hge
    rw [← hpayload, getD_serialize_checksum, wireBytes_ofWireBytes]
    have hj : j = 0 ∨ j = 1 := by omega
    rcases hj with rfl | rfl <;> rfl

end SidePort

/-! ## A packet read off a byte string is the frame it was read from (R134, R135) -/

theorem bytesFrom_zero_add (byte : Nat → Byte) (m n : Nat) :
    bytesFrom byte 0 (m + n) = bytesFrom byte 0 m ++ bytesFrom byte m n := by
  simp [bytesFrom, List.range_add]

theorem serialize_packetAt (o : WireOrder) (byte : Nat → Byte) :
    serialize o (packetAt o byte) = bytesFrom byte 0 (7 + (byte 2).toNat) := by
  have hlength : (packetAt o byte).length = byte 2 := by
    simp [Packet.length]
  rw [show 7 + (byte 2).toNat = 5 + (byte 2).toNat + 2 by omega, bytesFrom_zero_add,
    bytesFrom_zero_add, serialize, hlength]
  simp only [packetAt, wireBytes_ofWireBytes]
  congr 1
  simp [bytesFrom, List.range_succ, Nat.add_right_comm]

theorem bytesFrom_getD_eq_take {f : List Byte} {m : Nat} (h : m ≤ f.length) :
    bytesFrom (fun k => f.getD k 0) 0 m = f.take m := by
  have hlength : (f.take m).length = m := List.length_take_of_le h
  rw [← hlength]
  refine (bytesFrom_getD fun i hi => ?_).trans (by rw [hlength])
  rw [Nat.zero_add, List.getD_eq_getElem _ _ hi, List.getElem_take,
    List.getD_eq_getElem _ _ (by omega)]

/-- The three tests of `parse` as the rule puts them (R85, R135). -/
theorem frameLengthOk_iff {policy : FrameLenPolicy} {rlen n : Nat} :
    frameLengthOk policy rlen n = true ↔
      (policy = .exact → rlen = 7 + n) ∧ (policy = .atLeast → 7 + n ≤ rlen) := by
  cases policy <;> simp [frameLengthOk]

theorem add_length_le_of_frameLengthOk {policy : FrameLenPolicy} {rlen n : Nat}
    (h : frameLengthOk policy rlen n = true) : 7 + n ≤ rlen := by
  cases policy <;> simp [frameLengthOk] at h <;> omega

theorem encodePacket_of_gt {par : Params} {payload : List Byte} {len : Nat} {seq : Half} {sid fl : Byte}
    (h : par.maxPayload < len) : encodePacket par payload len seq sid fl = none :=
  if_pos h

theorem encodePacket_of_le {par : Params} {payload : List Byte} {seq : Half} {sid fl : Byte}
    (h : payload.length < 256) (hm : payload.length ≤ par.maxPayload) :
    encodePacket par payload payload.length seq sid fl = some ⟨seq, sid, fl, payload, BitVec.ofNat 16
      (seq.toNat + payload.length + sid.toNat + fl.toNat + (payload.map BitVec.toNat).sum)⟩ := by
  rw [encodePacket, if_neg (Nat.not_lt.2 hm), List.take_length, Packet.sealed, Packet.sum_eq h]

theorem respondPacket_none (s : State) : respondPacket s none = s.respondWith 0x0000 [] := rfl

theorem respondPacket_some (s : State) (p : Packet) :
    respondPacket s (some p) = s.respondWith 0x0001 (serialize s.par.wireOrder p) := rfl

/-! ## The operations (R131 to R136) -/

theorem exec_pcChecksum_eq (s : State) : exec .pcChecksum s = .next (s.respond s.sidePacket.sum) := rfl

theorem exec_pcSerialize_eq (s : State) :
    exec .pcSerialize s = .next (s.respondWith (BitVec.ofNat 16 (7 + s.sidePacket.length.toNat))
      (serialize s.par.wireOrder s.sidePacket)) := rfl

theorem exec_pcParse_eq (s : State) :
    exec .pcParse s = .next (respondPacket s (parse s.par s.sideIn)) := rfl

theorem exec_pcValidate_eq (s : State) :
    exec .pcValidate s = .next (s.respond (rspBool (validate s.sidePacket))) := rfl

/-- `PC_ENCODE` encodes the operands that stand on the side port (R93, R132). -/
theorem exec_pcEncode_eq {s : State} {p : Packet} (hs : s.sidePacket = p) :
    exec .pcEncode s = .next (respondPacket s
      (encodePacket s.par p.payload p.payload.length p.sequenceNumber p.streamId p.flags)) := by
  have hlen : (s.sideByte 2).toNat = p.payload.length := by
    rw [← hs, State.sidePacket, length_packetAt_payload]
  show Host.Outcome.next (respondPacket s (encodePacket s.par s.sidePacket.payload
    (s.sideByte 2).toNat s.sidePacket.sequenceNumber s.sidePacket.streamId s.sidePacket.flags)) = _
  rw [hlen, hs]

end Sys2Proof.Machine

namespace Sys2Proof

open Sys2Proof.Machine

/-- Settles O22: the answer is the sum of the packet on the side port. -/
theorem checksumOperationAddsTheFields : Obligations.ChecksumOperationAddsTheFields := by
  intro s p h hs
  rw [exec_pcChecksum_eq, sidePacket_of_serialize h hs, Packet.sum_eq h]

/-- Settles O23: the operands read back field by field, and `encode` makes their packet or fails. -/
theorem encodeOperationFramesOrFails : Obligations.EncodeOperationFramesOrFails := by
  intro s seq sid fl payload extra h hs
  obtain ⟨sum, hp⟩ := sidePacket_of_operands h hs
  rw [exec_pcEncode_eq hp]
  dsimp only
  rcases Nat.lt_or_ge s.par.maxPayload payload.length with htoolong | hfits
  · rw [encodePacket_of_gt htoolong, if_pos htoolong, respondPacket_none]
  · rw [encodePacket_of_le h hfits, if_neg (Nat.not_lt.2 hfits), respondPacket_some]

/-- Settles O24: the answer is the frame of the packet on the side port. -/
theorem serializeOperationWritesTheFrame : Obligations.SerializeOperationWritesTheFrame := by
  intro s p h hs
  rw [exec_pcSerialize_eq, sidePacket_of_serialize h hs, Packet.length_toNat h]
  rfl

/-- Settles O25: the tests are those of `parse`, and the frame of the parsed packet is the bytes it was
parsed from. -/
theorem parseOperationTestsTheLength : Obligations.ParseOperationTestsTheLength := by
  rintro s n rfl
  rw [exec_pcParse_eq]
  simp only [← frameLengthOk_iff]
  rcases parse_cases s.par s.sideIn with ⟨hfails, hparse⟩ | ⟨hheader, hmax, hpolicy, hparse⟩
  · rw [hparse, respondPacket_none, if_neg]
    rintro ⟨hheader, hmax, hpolicy⟩
    rcases hfails with hshort | hlong | hmismatch
    · omega
    · omega
    · cases hpolicy.symm.trans hmismatch
  · rw [hparse, respondPacket_some, serialize_packetAt,
      bytesFrom_getD_eq_take (add_length_le_of_frameLengthOk hpolicy),
      if_pos ⟨hheader, hmax, hpolicy⟩]

/-- Settles O26: `validate` compares the sum with the checksum. -/
theorem validateOperationComparesTheChecksum : Obligations.ValidateOperationComparesTheChecksum := by
  intro s p h hs
  rw [exec_pcValidate_eq, sidePacket_of_serialize h hs, ← Packet.sum_eq h]
  by_cases hv : p.sum = p.checksum
  · rw [validate_iff.2 hv, if_pos hv]
    rfl
  · rw [Bool.eq_false_iff.2 (mt validate_iff.1 hv), if_neg hv]
    rfl

/-- Settles O27: each codec operation answers a response word and side-port bytes. -/
theorem codecOperationsTouchNoState : Obligations.CodecOperationsTouchNoState := by
  intro s i hi
  simp only [List.mem_cons, List.not_mem_nil, or_false] at hi
  rcases hi with rfl | rfl | rfl | rfl | rfl
  · exact ⟨_, s.sideOut, rfl⟩
  · exact ⟨_, _, rfl⟩
  · exact ⟨_, _, rfl⟩
  · exact ⟨_, _, rfl⟩
  · exact ⟨_, s.sideOut, rfl⟩

/-- Settles O31: the sum adds the payload bytes and counts them, in any order. -/
theorem checksumMissesReorderedPayload : Obligations.ChecksumMissesReorderedPayload := by
  intro p payload hperm hv
  rw [validate_iff] at hv ⊢
  have hsum : (payload.map BitVec.toNat).sum = (p.payload.map BitVec.toNat).sum :=
    (hperm.map _).sum_eq
  have hlength : Packet.length { p with payload := payload } = p.length :=
    congrArg (BitVec.ofNat 8) hperm.length_eq
  calc Packet.sum { p with payload := payload }
      = p.sum := by simp only [Packet.sum, hlength, checksum, hsum]
    _ = p.checksum := hv

end Sys2Proof

/-! PROOFS of the frame statements (R20, R37, R40, R180, R200 to R212, R233 to R239). What an operation can
change is read off its shape (`Executed`), what an atomic step can change off `microStep_frame`, and what a
step can change off `Served`. -/

namespace Sys2Proof.Machine

/-! ## The inputs of the block (R37, R43, R237) -/

/-- The parameters and the inputs of the block are as before. -/
structure State.SameInputs (s t : State) : Prop where
  par : t.par = s.par
  link : t.link = s.link
  pinsValid : t.pinsValid = s.pinsValid
  resetLevel : t.resetLevel = s.resetLevel
  sideIn : t.sideIn = s.sideIn
  inputs : t.inputs = s.inputs

section Frames

variable {s t : State} {i : Instr} {r : Role}

theorem exec_sameInputs (h : exec i s = .next t) : s.SameInputs t := by
  cases exec_cases h with
  | answers | configures => exact ⟨rfl, rfl, rfl, rfl, rfl, rfl⟩
  | stores | reads | flushes | begins => constructor <;> simp
  | ticks hc ht =>
    rw [(tickAtomic_frame ht).1]
    exact ⟨rfl, rfl, rfl, rfl, rfl, rfl⟩

theorem advance_sameInputs (h : s.advance r = .next t) : s.SameInputs t := by
  rcases State.advance_cases h with ⟨-, rfl⟩ | ⟨a, u, x, -, hu, rfl⟩
  · exact ⟨rfl, rfl, rfl, rfl, rfl, rfl⟩
  · rw [State.resume_frame, (microStep_frame hu).1]
    exact ⟨rfl, rfl, rfl, rfl, rfl, rfl⟩

/-! ## `SEQ` and `CFG` (R20, R28, R30) -/

theorem exec_seq (h : exec i s = .next t) :
    t.seq = s.seq ∨ i = .tick ∧ s.par.contexts = .single ∧ t.seq = s.seq + 1 := by
  cases exec_cases h with
  | answers | configures => exact .inl rfl
  | stores | reads | flushes | begins => exact .inl (by simp)
  | ticks hc ht => exact (tickAtomic_frame ht).2.2.imp_right fun hseq => ⟨rfl, hc, hseq⟩

theorem exec_cfg (h : exec i s = .next t) : t.cfg = s.cfg ∨ writesCfg i = true := by
  cases exec_cases h with
  | answers => exact .inl rfl
  | configures c es w hi he => exact .inr hi
  | stores | reads | flushes | begins => exact .inl (by simp)
  | ticks hc ht =>
    rw [(tickAtomic_frame ht).1]
    exact .inl rfl

/-- From a good state an atomic step changes `SEQ` only where the servicing context advances it. -/
theorem State.Inv.advance_seq (h : s.Inv) (ht : s.advance r = .next t) :
    t.seq = s.seq ∨ (∃ q, s.svc = some (.tickSeq q)) ∧ t.seq = s.seq + 1 := by
  rcases State.advance_cases ht with ⟨-, rfl⟩ | ⟨a, u, x, hr, hu, rfl⟩
  · exact .inl rfl
  · rw [State.resume_frame]
    refine (microStep_frame hu).2.1.imp_right fun ⟨⟨q, hq⟩, hseq⟩ => ⟨⟨q, ?_⟩, hseq⟩
    subst hq
    cases r with
    | servicing => exact hr
    | application => rcases h.okFor hr with hflush | hflush <;> cases hflush

/-- The steps of the servicing context that write `CFG`, and what each makes of it (R202 to R204, R208). -/
def State.WritesCfgTo (s : State) (c : Cfg) : Prop :=
  (∃ x, s.svc = some (.cfgBiteRate x) ∧ c = { s.cfg with biteRate := x }) ∨
    (∃ x, s.svc = some (.cfgPower x) ∧ c = { s.cfg with power := x }) ∨
    (∃ x, s.svc = some (.cfgChannel x) ∧ c = { s.cfg with channel := x }) ∨
    (s.svc = some .initDefaults ∧ c = ⟨.idle, .slow, .low, .ch1⟩)

/-- From a good state an atomic step changes `CFG` only where the servicing context writes it. -/
theorem State.Inv.advance_cfg (h : s.Inv) (ht : s.advance r = .next t) :
    t.cfg = s.cfg ∨ s.WritesCfgTo t.cfg := by
  rcases State.advance_cases ht with ⟨-, rfl⟩ | ⟨a, u, x, hr, hu, rfl⟩
  · exact .inl rfl
  · rw [State.resume_frame]
    cases r with
    | application =>
      refine (microStep_frame hu).2.2.imp_right fun hwrites => ?_
      rcases h.okFor hr with rfl | rfl <;> simp at hwrites
    | servicing =>
      refine (microStep_frame hu).2.2.imp_right fun hwrites => ?_
      rcases hwrites with ⟨x, rfl, hx⟩ | ⟨x, rfl, hx⟩ | ⟨x, rfl, hx⟩ | ⟨rfl, hx⟩
      · exact .inl ⟨x, hr, hx⟩
      · exact .inr (.inl ⟨x, hr, hx⟩)
      · exact .inr (.inr (.inl ⟨x, hr, hx⟩))
      · exact .inr (.inr (.inr ⟨hr, hx⟩))

/-! ## Storage (R22) -/

/-- The storage of `RX` stays but for `RB_STORE` on it and `TICK`. -/
theorem exec_rx_buf (h : exec i s = .next t) :
    ((∃ d, i = .rbStore .rx d) ∨ i = .tick) ∨ t.rx.buf = s.rx.buf := by
  cases exec_cases h with
  | answers | configures => exact .inr rfl
  | begins => exact .inr (by simp)
  | ticks => exact .inl (.inr rfl)
  | stores b d w hi hs =>
    cases b with
    | tx => exact .inr rfl
    | rx => exact .inl (.inl ⟨d, hi.resolve_right nofun⟩)
  | reads b w hi hr =>
    cases b with
    | tx => exact .inr rfl
    | rx => exact .inr (RingBuffer.readByte_keeps_buf hr)
  | flushes w hc hf => exact .inr (RingBuffer.flush_keeps_buf hf)

/-- The storage of `TX` stays but for `RB_STORE` on it and `WRITE`. -/
theorem exec_tx_buf (h : exec i s = .next t) :
    ((∃ d, i = .rbStore .tx d) ∨ ∃ d, i = .write d) ∨ t.tx.buf = s.tx.buf := by
  cases exec_cases h with
  | answers | configures | flushes => exact .inr rfl
  | begins => exact .inr (by simp)
  | ticks hc ht => exact .inr (tickAtomic_frame ht).2.1
  | stores b d w hi hs =>
    cases b with
    | rx => exact .inr rfl
    | tx => exact .inl (hi.imp (⟨d, ·⟩) fun hi => ⟨d, hi.2⟩)
  | reads b w hi hr =>
    cases b with
    | rx => exact .inr rfl
    | tx => exact .inr (RingBuffer.readByte_keeps_buf hr)

/-! ## The stream operations and the link (R180) -/

theorem not_writesCfg_of_stream (h : isStreamOperation i = true) : writesCfg i = false := by
  cases i with
  | available | read | peek | write | availableForWrite | flush => rfl
  | _ => cases h

theorem exec_setChannel_single (hc : s.par.contexts = .single) (c : Channel) :
    exec (.setChannel c) s = .next ((s.setCfgChannel c).applyChannel.respond rspNothing) :=
  State.composite_single hc ..

theorem exec_init_single (hc : s.par.contexts = .single) : exec .init s = .next s.initAtomic :=
  State.composite_single hc ..

/-- A whole `flush` brings `RX.tail` to `RX.head` (R188). -/
theorem exec_flush_single (hrx : s.rx.Ok s.par.capacity) (hc : s.par.contexts = .single) :
    exec .flush s
      = .next (({ s with rx := { s.rx with tail := s.rx.head } } : State).respond 0) := by
  show s.composite .application .flushRead s.flushAtomic = _
  rw [State.composite_single hc, State.flushAtomic,
    RingBuffer.flush_cases hrx (s.rx.occupied_lt hrx.1)]
  rfl

theorem exec_stream_frame (hi : isStreamOperation i = true) (h : exec i s = .next t) :
    t.trace = s.trace ∧ t.seq = s.seq ∧ t.cfg = s.cfg ∧ t.link = s.link := by
  cases exec_cases h with
  | answers => exact ⟨rfl, rfl, rfl, rfl⟩
  | stores | reads | flushes | begins => simp
  | ticks => cases hi
  | configures c es w hw he => exact absurd hw (by simp [not_writesCfg_of_stream hi])

end Frames

end Sys2Proof.Machine

namespace Sys2Proof

open Sys2Proof.Machine

/-- Settles O39: with `C` reads the loop ends, and an atomic read is a `readByte` on `RX`. -/
theorem flushMovesOnlyRxTail : Obligations.FlushMovesOnlyRxTail := by
  refine ⟨fun s hrx hc => exec_flush_single hrx hc, fun s t x h => ?_, fun s => rfl⟩
  obtain ⟨⟨v, u⟩, hread, -⟩ := Option.map_eq_some_iff.1 h
  cases (microStep_flushRead hread).symm.trans h
  obtain ⟨⟨v', q⟩, hring, hq⟩ := Option.map_eq_some_iff.1 hread
  cases hq
  rcases RingBuffer.readByte_eq_some hring with ⟨he, rfl, rfl⟩ | ⟨he, hv, rfl⟩
  · exact ⟨rfl, (if_pos rfl).trans (if_pos (RingBuffer.empty_eq_true_iff.1 he)).symm⟩
  · have hne : s.rx.head ≠ s.rx.tail := by
      rw [ne_eq, ← RingBuffer.empty_eq_true_iff]
      exact Bool.eq_false_iff.1 he
    exact ⟨rfl, (if_neg hv).trans (if_neg hne).symm⟩

/-- Settles O40: none of the shapes of a stream operation touches the link, `SEQ` or `CFG`. -/
theorem streamOperationsLeaveTheLinkAlone : Obligations.StreamOperationsLeaveTheLinkAlone :=
  fun _ _ _ hi h => exec_stream_frame hi h

/-- Settles O41: `SET_MODE` is one record update under either setting. -/
theorem setModeWritesTheMode : Obligations.SetModeWritesTheMode := fun _ _ => rfl

/-- Settles O42: under `single` each of the two is its atomic step. -/
theorem rateAndPowerSettersCallOnce : Obligations.RateAndPowerSettersCallOnce :=
  fun _ hc => ⟨exec_setBiteRate_single hc, exec_setPower_single hc⟩

/-- Settles O43: under `single` it is its atomic step, with the channel of the map. -/
theorem setChannelCallsOnce : Obligations.SetChannelCallsOnce := by
  intro c s hc
  cases c <;> exact exec_setChannel_single hc _

/-- Settles O44: under `single` it is its atomic step, which tests the pins and then the driver. -/
theorem initTriesOnce : Obligations.InitTriesOnce := by
  intro s hc
  rw [exec_init_single hc]
  by_cases hp : s.pinsValid = false
  · rw [if_pos hp, initAtomic_of_pins_invalid hp]
  · by_cases hl : s.link.init = false
    · rw [if_neg hp, if_pos hl, initAtomic_of_driver_fails (Bool.eq_true_of_not_eq_false hp) hl]
    · rw [if_neg hp, if_neg hl, initAtomic_of_success (Bool.eq_true_of_not_eq_false hp)
        (Bool.eq_true_of_not_eq_false hl)]
      rfl

/-- Settles O51: an operation touches no input; of the steps, only the stimulus of an input does. -/
theorem operationsLeaveTheInputsAlone : Obligations.OperationsLeaveTheInputsAlone := by
  refine ⟨fun i s t h => ?_, fun s t h => ?_⟩
  · have hsame := exec_sameInputs h
    exact ⟨hsame.par, hsame.link, hsame.pinsValid, hsame.resetLevel, hsame.sideIn, hsame.inputs⟩
  · cases step_cases h with
    | idle _ ht =>
      subst ht
      exact ⟨rfl, fun _ => rfl, fun _ => rfl⟩
    | waits r w rest _ _ _ ht =>
      have hsame := advance_sameInputs ht
      exact ⟨hsame.par, fun _ => hsame.pinsValid, fun _ => hsame.sideIn⟩
    | takes r w rest i _ _ _ _ _ _ ht =>
      have hsame := exec_sameInputs ht
      exact ⟨hsame.par, fun _ => hsame.pinsValid, fun _ => hsame.sideIn⟩
    | advances r rest _ ht =>
      have hsame := advance_sameInputs ht
      exact ⟨hsame.par, fun _ => hsame.pinsValid, fun _ => hsame.sideIn⟩
    | input rest a bs p l _ _ hp hb ht =>
      subst ht
      refine ⟨rfl, fun hl => ?_, fun ha => ?_⟩
      · exact hp.resolve_left (by simp [hl])
      · exact hb.resolve_left (by simp [ha])
    | resets rest _ ht =>
      subst ht
      exact ⟨rfl, fun _ => rfl, fun _ => rfl⟩

/-- Settles O52, by what the step served. -/
theorem onlyTheTickAdvancesSeq : Obligations.OnlyTheTickAdvancesSeq := by
  refine ⟨fun i s t h hne => (exec_seq h).resolve_left hne, fun s t hinv h hne => ?_⟩
  cases step_cases h with
  | idle _ ht => exact absurd (congrArg State.seq ht) hne
  | waits r w rest _ _ _ ht => exact .inr (.inr ((hinv.advance_seq ht).resolve_left hne))
  | takes r w rest i hin _ _ hd _ _ ht =>
    obtain ⟨rfl, hc, hseq⟩ := (exec_seq ht).resolve_left hne
    exact .inr (.inl ⟨⟨r, w, rest, hin, hd⟩, hc, hseq⟩)
  | advances r rest _ ht =>
    exact .inr (.inr (((hinv.withInputs rest).advance_seq ht).resolve_left hne))
  | input rest a bs p l _ _ _ _ ht => exact absurd (congrArg State.seq ht) hne
  | resets rest hin ht =>
    subst ht
    exact .inl ⟨rest, hin, rfl⟩

/-- Settles O53, by what the step served. -/
theorem onlyConfigurationWritesCfg : Obligations.OnlyConfigurationWritesCfg := by
  refine ⟨fun i s t h hne => (exec_cfg h).resolve_left hne, fun s t hinv h hne => ?_⟩
  cases step_cases h with
  | idle _ ht => exact absurd (congrArg State.cfg ht) hne
  | waits r w rest _ _ _ ht => exact .inr (.inr ((hinv.advance_cfg ht).resolve_left hne))
  | takes r w rest i hin _ _ hd _ _ ht =>
    exact .inr (.inl ⟨r, w, rest, i, hin, hd, (exec_cfg ht).resolve_left hne, ht⟩)
  | advances r rest _ ht =>
    exact .inr (.inr (((hinv.withInputs rest).advance_cfg ht).resolve_left hne))
  | input rest a bs p l _ _ _ _ ht => exact absurd (congrArg State.cfg ht) hne
  | resets rest hin ht =>
    subst ht
    exact .inl ⟨rest, hin, rfl⟩

/-- Settles O54: storage that is the same data reads as before in every slot. -/
theorem onlyStoresWriteStorage : Obligations.OnlyStoresWriteStorage :=
  fun _ _ _ h => ⟨(exec_rx_buf h).imp_right fun hbuf _ => by rw [hbuf],
    (exec_tx_buf h).imp_right fun hbuf _ => by rw [hbuf]⟩

/-- Settles O56, operation by operation. -/
theorem compositeOperationsBeginUnderDual : Obligations.CompositeOperationsBeginUnderDual := by
  intro i r a s hi hc
  cases i with
  | flush | tick | setBiteRate | setPower | setChannel | init =>
    cases hi
    exact State.composite_dual hc ..
  | _ => cases hi

end Sys2Proof

/-! PROOFS of the statements about the bytes a tick moves (R121, R156, R164 to R168, R190). Its copy stores
the received bytes that fit, its drain takes the oldest bytes of `TX`, and the frame it sends is accepted as
the packet it was made of. -/

namespace Sys2Proof.Machine

section TickMoves

variable {s : State}

theorem sum_dataFor {n : Nat} (h : n < 256) (ho : n ≤ s.tx.occupied s.par.capacity) :
    (dataFor s n).sum = (dataFor s n).checksum := by
  have hlength := length_dataFor_payload ho
  rw [Packet.sum_eq (by omega), hlength]
  rfl

/-- The frame of a tick's data packet is accepted, as that packet, by a block with the same parameters
(R138, R190). -/
theorem acceptFrame_dataFor {n : Nat} (hl : s.par.Legal) (hn : n ≤ s.par.maxPayload)
    (ho : n ≤ s.tx.occupied s.par.capacity) :
    acceptFrame s.par (serialize s.par.wireOrder (dataFor s n)) = some (dataFor s n) := by
  have hlength := length_dataFor_payload ho
  have hmax := (Params.maxPayload_bounds hl).2.2
  exact acceptFrame_eq_some.2
    ⟨parse_serialize hl (by omega), validate_iff.2 (sum_dataFor (by omega) ho)⟩

/-- With a free slot for each received byte, all of them are copied (R156). -/
theorem receivedBytes_of_room {p : Packet} (h : receivedPacket s = some p)
    (hroom : p.payload.length ≤ s.freeSlots .rx) : receivedBytes s = p.payload := by
  rw [receivedBytes, h]
  exact List.take_of_length_le hroom

theorem sentCount_of_idle (h : s.link.currentlyTransmitting = false) :
    sentCount s = min (s.occupied .tx) s.par.maxPayload := by
  rw [sentCount, h]
  rfl

/-- What a tick does to the contents of both buffers (R156, R166). -/
theorem exec_tick_contents (hl : s.par.Legal) (hrx : s.rx.Ok s.par.capacity)
    (htx : s.tx.Ok s.par.capacity) (hc : s.par.contexts = .single) :
    ∃ t, exec .tick s = .next t ∧
      t.rx.contents s.par.capacity = s.rx.contents s.par.capacity ++ receivedBytes s ∧
      t.tx.contents s.par.capacity = (s.tx.contents s.par.capacity).drop (sentCount s) ∧
      t.seq = (if sentCount s = 0 then s.seq else s.seq + 1) ∧
      t.trace = s.trace ++ receiveEvents s ++ transmitEvents s := by
  obtain ⟨rx, tx, hstore, hdrain, htick⟩ := exec_tick_cases hl hrx htx hc
  obtain ⟨rx', hstore', -, -, hreceived⟩ :=
    RingBuffer.storeAll_fits hrx (length_receivedBytes_le s)
  obtain ⟨tx', hdrain', -, -, -, hsent⟩ := RingBuffer.drain_cases htx (sentCount_le_occupied s)
  obtain rfl : rx = rx' := Option.some.inj (hstore.symm.trans hstore')
  obtain ⟨-, rfl⟩ := Prod.mk.inj (Option.some.inj (hdrain.symm.trans hdrain'))
  exact ⟨_, htick, hreceived, hsent, rfl, rfl⟩

end TickMoves

end Sys2Proof.Machine

namespace Sys2Proof

open Sys2Proof.Machine

/-- Settles O33: the received bytes are the first that fit. -/
theorem tickMovesTheBytes : Obligations.TickMovesTheBytes := by
  intro s hl hrx htx hc
  obtain ⟨t, htick, hreceived, hsent, hseq, -⟩ := exec_tick_contents hl hrx htx hc
  exact ⟨t, htick, hreceived, hsent, hseq⟩

/-- Settles O34: the copy writes the slots from `RX.head` on and the drain moves `TX.tail` alone. -/
theorem tickFrame : Obligations.TickFrame := by
  intro s t hl hrx htx hc h
  obtain ⟨rx, tx, hstore, hdrain, htick⟩ := exec_tick_cases hl hrx htx hc
  cases htick.symm.trans h
  obtain ⟨hhead, hslots⟩ := RingBuffer.storeAll_frame hrx (length_receivedBytes_le s) hstore
  rw [length_receivedBytes] at hhead hslots
  have hrxtail := (RingBuffer.produced_of_storeAll hrx hstore).tail
  have hdrained := RingBuffer.drained_of_drain htx (sentCount_le_occupied s) hdrain
  have htail := RingBuffer.drain_tail htx (sentCount_le_occupied s) hdrain
  exact ⟨rfl, hrxtail, hdrained.head, hdrained.buf, hhead, htail, hslots⟩

/-- Settles O38: the frame of the drained bytes is accepted by the peer, whose room takes all of them. -/
theorem drainedBytesReachThePeer : Obligations.DrainedBytesReachThePeer := by
  intro a b n hpar hl hc harx hatx hbrx hbtx hidle hn hpos hroom
  have hsent : sentCount a = n := (sentCount_of_idle hidle).trans hn.symm
  have hocc : n ≤ a.tx.occupied a.par.capacity := hsent ▸ sentCount_le_occupied a
  have hmax : n ≤ a.par.maxPayload := hsent ▸ sentCount_le_maxPayload a
  obtain ⟨a', hticka, -, hleft, -, htrace⟩ := exec_tick_contents hl harx hatx hc
  refine ⟨a', serialize a.par.wireOrder (dataFor a n), hticka, ?_, ?_⟩
  · rw [htrace, transmitEvents_of_sentCount_pos (by omega), hsent]
    simp
  · let fed : State := { b with link := { b.link with
      available := true, recv := some (serialize a.par.wireOrder (dataFor a n)) } }
    have hreceived : receivedPacket fed = some (dataFor a n) := by
      rw [receivedPacket_of_recv rfl rfl, show fed.par = a.par from hpar.symm]
      exact acceptFrame_dataFor hl hmax hocc
    have hlength := length_dataFor_payload hocc
    have hbytes : receivedBytes fed = (dataFor a n).payload :=
      receivedBytes_of_room hreceived (hlength.symm ▸ hroom)
    obtain ⟨b', htickb, hgained, -⟩ := exec_tick_contents (s := fed) (hpar ▸ hl) hbrx hbtx (hpar ▸ hc)
    rw [hbytes] at hgained
    exact ⟨b', htickb, hgained, hsent ▸ hleft⟩

end Sys2Proof

/-! PROOFS of the statements about every step and about the two contexts (R66, R72, R220 to R235, R239,
R270). -/

namespace Sys2Proof.Machine

/-! ## Frames handed to the LinkDriver (R82, R239) -/

section Sends

variable {s t : State}

/-- A frame this event hands to the LinkDriver goes with its true length, and that is within bounds. -/
def Event.SendOk (par : Params) (e : Event) : Prop :=
  ∀ g n, e = .link (.send g n) → n = g.length ∧ FrameOk par g

theorem Event.sendOk_of_send {par : Params} {g : List Byte} (h : FrameOk par g) :
    (Event.link (.send g g.length)).SendOk par := by
  rintro _ _ ⟨⟩
  exact ⟨rfl, h⟩

theorem Event.sendOk_of_serialize {par : Params} {q : Packet} {n : Nat} (hl : par.Legal)
    (hq : q.payload.length ≤ par.maxPayload) (hn : n = q.payload.length) :
    (Event.link (.send (serialize par.wireOrder q) (7 + n))).SendOk par := by
  subst hn
  rw [← length_serialize par.wireOrder q]
  exact Event.sendOk_of_send (frameOk_serialize hl hq)

/-- The frames sent stay within bounds if those of the new events do. -/
theorem State.SentFramesOk.append (h : s.SentFramesOk) (hp : t.par = s.par) {es : List Event}
    (ht : t.trace = s.trace ++ es) (hes : ∀ e ∈ es, e.SendOk s.par) : t.SentFramesOk := by
  intro g n hmem
  rw [ht, List.mem_append] at hmem
  rw [hp]
  exact hmem.elim (h g n) fun hmem => hes _ hmem g n rfl

theorem State.SentFramesOk.congr (h : s.SentFramesOk) (hp : t.par = s.par) (ht : t.trace = s.trace) :
    t.SentFramesOk :=
  h.append (es := []) hp (by rw [ht, List.append_nil]) (by simp)

theorem receiveEvents_sendOk (hl : s.par.Legal) : ∀ e ∈ receiveEvents s, e.SendOk s.par := by
  intro e he
  have hack (p : Packet) : (Event.link (.send (serialize s.par.wireOrder (ackFor s.par p)) 7)).SendOk
      s.par := Event.sendOk_of_serialize (n := 0) hl (Nat.zero_le _) rfl
  unfold receiveEvents at he
  cases hp : receivedPacket s with
  | none =>
    rw [hp] at he
    rintro g n rfl
    simp at he
  | some p =>
    rw [hp] at he
    rintro g n rfl
    simp only [List.mem_append, List.mem_singleton, List.mem_ite_nil_right, Event.link.injEq,
      reduceCtorEq, and_false, false_or] at he
    exact hack p g n (congrArg Event.link he.2.symm)

theorem transmitEvents_sendOk (hl : s.par.Legal) : ∀ e ∈ transmitEvents s, e.SendOk s.par := by
  intro e he
  have hlength := length_dataFor_payload (sentCount_le_occupied s)
  by_cases h0 : sentCount s = 0
  · rw [transmitEvents_of_sentCount_zero h0, List.mem_singleton] at he
    subst he
    nofun
  · rw [transmitEvents_of_sentCount_pos h0, List.mem_cons, List.mem_singleton] at he
    rcases he with rfl | rfl
    · nofun
    · exact Event.sendOk_of_serialize hl (hlength.symm ▸ sentCount_le_maxPayload s) hlength.symm

theorem State.Inv.exec_sentFramesOk {i : Instr} (h : s.Inv) (hs : s.SentFramesOk)
    (ht : exec i s = .next t) : t.SentFramesOk := by
  cases exec_cases ht with
  | answers => exact hs.congr rfl rfl
  | stores | reads | flushes | begins => exact hs.congr (by simp) (by simp)
  | configures c es w hi he => exact hs.append rfl rfl fun e hmem g n heq => absurd (heq ▸ hmem) (he g n)
  | ticks hc _ =>
    obtain ⟨rx, tx, -, -, htick⟩ := exec_tick_cases h.par h.rx h.tx hc
    cases htick.symm.trans ht
    refine hs.append rfl (List.append_assoc ..) fun e he => ?_
    exact (List.mem_append.1 he).elim (receiveEvents_sendOk h.par e) (transmitEvents_sendOk h.par e)

/-- An atomic step within its bounds sends a frame within bounds, or none (R160, R169). -/
theorem microStep_sentFramesOk {u : State} {a : Activity} {x : After} (ha : a.Ok s)
    (hs : s.SentFramesOk) (h : microStep s a = some (u, x)) : u.SentFramesOk := by
  have hcall (c : LinkCall) (hc : (Event.link c).SendOk s.par) : (s.call c).SentFramesOk :=
    hs.append rfl rfl (by simpa using hc)
  cases a with
  | tickAckSend g | tickSend g =>
    cases h
    exact hcall _ (Event.sendOk_of_send ha)
  | tickAvailable | tickRecv | tickBusy | rfCall | channelCall | initRf | initChannel =>
    cases h
    exact hcall _ nofun
  | initLink =>
    simp only [microStep] at h
    split at h <;> cases h
    · exact hcall _ nofun
    · exact hs
  | tickValidate p =>
    simp only [microStep] at h
    split at h <;> cases h
    · rcases observeAck_cases s p with ⟨-, hobserve⟩ | ⟨-, hobserve⟩ <;> rw [hobserve]
      · refine hs.append (es := [.ackObserved p.sequenceNumber]) rfl rfl ?_
        simp [Event.SendOk]
      · exact hs
    · exact hs
  | tickCopy p rest =>
    cases rest with
    | nil =>
      cases h
      exact hs
    | cons d rest =>
      obtain ⟨v, hv, hvu⟩ := Option.map_eq_some_iff.1 h
      cases hvu
      rw [store_frame hv]
      exact hs.congr rfl rfl
  | tickDrain =>
    obtain ⟨q, hq, hqu⟩ := Option.map_eq_some_iff.1 h
    cases hqu
    rw [readByte_frame hq]
    exact hs.congr rfl rfl
  | flushRead | flushReturn => exact ha.elim
  | _ =>
    cases h
    exact hs.congr rfl rfl

theorem State.Inv.advance_sentFramesOk {r : Role} (h : s.Inv) (hs : s.SentFramesOk)
    (ht : s.advance r = .next t) : t.SentFramesOk := by
  cases r with
  | application =>
    obtain ⟨u, hu, hmove, -⟩ := h.advance .application
    cases hu.symm.trans ht
    exact hs.congr hmove.par (ApplicationMove.trace hmove)
  | servicing =>
    rcases State.advance_cases ht with ⟨-, rfl⟩ | ⟨a, u, x, hr, hu, rfl⟩
    · exact hs
    · rw [State.resume_frame]
      exact (microStep_sentFramesOk (h.svc a hr) hs hu).congr rfl rfl

end Sends

/-! ## No operation faults (R226) -/

section Completion

variable {s : State} {r : Role}

/-- Every operation completes in a good state. -/
theorem State.Inv.exec_completes (h : s.Inv) (i : Instr) : ∃ t, exec i s = .next t := by
  have hring (b : Buf) : (s.ring b).Ok s.par.capacity := by
    cases b
    · exact h.rx
    · exact h.tx
  cases i with
  | rbStore b d =>
    obtain ⟨q, hq, -⟩ := RingBuffer.store_completes (hring b) d
    exact ⟨_, exec_rbStore_of_store hq⟩
  | write d =>
    obtain ⟨q, hq, -⟩ := RingBuffer.store_completes (hring .tx) d
    exact ⟨_, exec_write_of_store hq⟩
  | rbReadByte b => exact ⟨_, exec_rbReadByte_eq b s (hring b)⟩
  | read => exact ⟨_, (exec_read_eq s).trans (exec_rbReadByte_eq .rx s h.rx)⟩
  | rbPeek b => exact ⟨_, exec_rbPeek_eq b s (hring b)⟩
  | peek => exact ⟨_, (exec_peek_eq s).trans (exec_rbPeek_eq .rx s h.rx)⟩
  | flush =>
    cases hc : s.par.contexts with
    | single => exact ⟨_, exec_flush_single h.rx hc⟩
    | dual => exact ⟨_, State.composite_dual hc ..⟩
  | tick =>
    cases hc : s.par.contexts with
    | single =>
      obtain ⟨_, _, -, -, htick⟩ := exec_tick_cases h.par h.rx h.tx hc
      exact ⟨_, htick⟩
    | dual => exact ⟨_, State.composite_dual hc ..⟩
  | setBiteRate | setPower | setChannel | init =>
    cases hc : s.par.contexts with
    | single => exact ⟨_, State.composite_single hc ..⟩
    | dual => exact ⟨_, State.composite_dual hc ..⟩
  | _ => exact ⟨_, rfl⟩

end Completion

/-! ## A command at a port of a good state -/

section Commands

variable {s t : State} {r : Role}

/-- A port with a command is refused by name or answers a next state (R43, R45, R95, R235). -/
theorem State.Inv.command_outcome {w : Half} {rest : List Stimulus} (h : s.Inv)
    (hin : s.inputs = .command r w :: rest) :
    (∃ t, step s = .next t) ∨
      ((s.resetLevel = true ∧ step s = .refused .resetAsserted) ∨
       (wellFormedWord w = false ∧ step s = .refused (.reserved (reservedClass w))) ∨
       ((∃ i, decode w = .ok i ∧ reachable s.par.assembly i = false) ∧
        step s = .refused .notReachable) ∨
       (s.par.contexts = .dual ∧ (∃ i, decode w = .ok i ∧ mayIssue r i = false) ∧
        step s = .refused .roleViolation)) := by
  cases hl : s.resetLevel with
  | true => exact .inr (.inl ⟨rfl, step_of_command_asserted hin hl⟩)
  | false =>
    by_cases hr : s.running r = none
    · cases hd : decode w with
      | reserved why =>
        have hw := not_wellFormedWord_of_decode hd
        exact .inr (.inr (.inl ⟨hw, reservedWordIsRefused s r w rest hin hl hr hw⟩))
      | ok i =>
        obtain ⟨-, hunreachable, hviolation⟩ := portRefusesUnderResetAndOtherRole s r w rest hin
        cases ha : reachable s.par.assembly i with
        | false =>
          exact .inr (.inr (.inr (.inl ⟨⟨i, rfl, ha⟩, hunreachable i hl hr hd ha⟩)))
        | true =>
          obtain ⟨t, ht⟩ := (h.withInputs rest).exec_completes i
          cases hc : s.par.contexts with
          | single => exact .inl ⟨t, (step_eq_exec hin hl hr hd ha (.inl hc)).trans ht⟩
          | dual =>
            cases hm : mayIssue r i with
            | true => exact .inl ⟨t, (step_eq_exec hin hl hr hd ha (.inr hm)).trans ht⟩
            | false =>
              exact .inr (.inr (.inr (.inr ⟨rfl, ⟨i, rfl, hm⟩, hviolation i hl hr hd ha hc hm⟩)))
    · obtain ⟨t, ht, -⟩ := h.advance r
      exact .inl ⟨t, (step_of_command_busy hin hl hr).trans ht⟩

/-- Under `dual` a step that advances a context or serves a command at its port is a move of the context
(R44, R45, R61). -/
theorem State.Inv.step_move {x : Stimulus} {rest : List Stimulus} (h : s.Inv)
    (hc : s.par.contexts = .dual) (hin : s.inputs = x :: rest)
    (hx : x = .advance r ∨ ∃ w, x = .command r w) (ht : step s = .next t) : s.Move r t := by
  have hadvance {u : State} (hu : u.Inv) (ht : u.advance r = .next t) : u.Move r t := by
    obtain ⟨v, hv, hmove, -⟩ := hu.advance r
    cases hv.symm.trans ht
    exact hmove
  have hinputs (hmove : ({ s with inputs := rest } : State).Move r t) : s.Move r t := by
    cases r <;> exact { hmove with }
  rcases hx with rfl | ⟨w, rfl⟩
  · rw [step_of_advance hin] at ht
    exact hinputs (hadvance (h.withInputs rest) ht)
  · cases hl : s.resetLevel with
    | true => cases (step_of_command_asserted hin hl).symm.trans ht
    | false =>
      by_cases hr : s.running r = none
      · rw [step_of_command_free hin hl hr] at ht
        obtain ⟨i, -, -, hexec, hm⟩ := State.issue_cases ht
        have hmay : mayIssue r i = true := (hm.resolve_left (by simp [hc])).2
        exact hinputs (exec_move h.par h.rx h.tx hmay hexec)
      · rw [step_of_command_busy hin hl hr] at ht
        exact hadvance h ht

end Commands
/-! ## The receive copy and the transmit drain (R72) -/

section CopyAndDrain

variable {s : State}

theorem State.advance_servicing {u : State} {a : Activity} {x : After} (h : s.svc = some a)
    (hu : microStep s a = some (u, x)) : s.advance .servicing = .next (u.resume .servicing x) := by
  rw [State.advance_some (r := .servicing) h, hu]
  rfl

/-- A step of the copy appends the next payload byte to `RX` (R72 (a)). -/
theorem State.Inv.copy_appends {p : Packet} {d : Byte} {rest : List Byte} (h : s.Inv)
    (hsvc : s.svc = some (.tickCopy p (d :: rest))) :
    ∃ t, s.advance .servicing = .next t ∧
      t.rx.contents s.par.capacity = s.rx.contents s.par.capacity ++ [d] := by
  have hroom : (d :: rest).length ≤ s.freeSlots .rx := h.svc _ hsvc
  obtain ⟨hf, hs⟩ := RingBuffer.store_of_freeSlots_pos h.rx
    (Nat.lt_of_lt_of_le (Nat.succ_pos _) hroom) d
  have hstore : s.store .rx d = some (s.setRing .rx (s.rx.stored s.par.capacity d)) :=
    State.store_of_ring rfl hs
  refine ⟨_, State.advance_servicing hsvc (microStep_tickCopy hstore p rest), ?_⟩
  rw [State.resume_frame]
  exact RingBuffer.contents_stored h.rx hf d

theorem resume_nextDrain (u : State) (scratch : List Byte) {n : Nat} (hn : 0 < n) :
    (u.resume .servicing (nextDrain scratch (n - 1))).svc
      = some (if n = 1 then .tickEncode scratch else .tickDrain (n - 1) scratch) := by
  obtain ⟨m, rfl⟩ := Nat.exists_eq_succ_of_ne_zero (Nat.ne_of_gt hn)
  cases m <;> rfl

/-- A step of the drain takes the oldest byte of `TX` (R72 (b)). -/
theorem State.Inv.drain_takes_oldest {n : Nat} {scratch : List Byte} (h : s.Inv)
    (hsvc : s.svc = some (.tickDrain n scratch)) :
    ∃ t v, s.advance .servicing = .next t ∧
      s.tx.contents s.par.capacity = v :: t.tx.contents s.par.capacity ∧
      t.svc = some (if n = 1 then .tickEncode (scratch ++ [v])
        else .tickDrain (n - 1) (scratch ++ [v])) := by
  obtain ⟨hn, hocc, -⟩ : 0 < n ∧ n ≤ s.occupied .tx ∧ scratch.length + n ≤ s.par.maxPayload :=
    h.svc _ hsvc
  obtain ⟨he, hr⟩ := RingBuffer.readByte_of_occupied_pos h.tx (Nat.lt_of_lt_of_le hn hocc)
  have hread : s.readByte .tx
      = some (some (Memory.read s.tx.buf s.tx.tail), s.setRing .tx (s.tx.consumed s.par.capacity)) :=
    State.readByte_of_ring rfl hr
  refine ⟨_, _, State.advance_servicing hsvc (microStep_tickDrain hread n scratch), ?_,
    resume_nextDrain _ _ hn⟩
  rw [State.resume_frame]
  exact RingBuffer.contents_consumed h.tx he

end CopyAndDrain

/-! ## The labels of the error conditions (R220 to R227) -/

section Conditions

variable {s : State}

@[simp] theorem mem_labelIf {c c' : Condition} {b : Bool} : c ∈ labelIf b c' ↔ b = true ∧ c = c' := by
  cases b <;> simp [labelIf]

theorem noData_mem_rbReadByte {b : Buf} :
    .noData ∈ conditionsOf (.rbReadByte b) s ↔ (s.ring b).empty = true := by
  simp [conditionsOf]

theorem txFull_mem_write {d : Byte} :
    .txFull ∈ conditionsOf (.write d) s ↔ s.tx.full s.par.capacity = true := by
  simp [conditionsOf]

theorem tooLong_mem_pcEncode :
    .tooLong ∈ conditionsOf .pcEncode s ↔ s.par.maxPayload < s.sideEncodeOperands.len := by
  simp [conditionsOf]

theorem exec_pcEncode_of_gt (h : s.par.maxPayload < s.sideEncodeOperands.len) :
    exec .pcEncode s = .next (s.respondWith 0x0000 []) := by
  show Host.Outcome.next (respondPacket s (encodePacket ..)) = _
  rw [encodePacket_of_gt h, respondPacket_none]

/-- What an `init` meets is the pins, or the driver behind them (R221, R229). -/
theorem mem_initConditions {c : Condition} : c ∈ initConditions s ↔
    (s.pinsValid = false ∧ c = .configPins) ∨
      (s.pinsValid = true ∧ s.link.init = false ∧ c = .configLink) := by
  cases hp : s.pinsValid <;> simp [initConditions, hp]

/-- A failed `init` changes the trace and the response alone. -/
theorem initAtomic_of_condition {c : Condition} (h : c ∈ initConditions s) :
    s.initAtomic = { s with trace := s.initAtomic.trace, rsp := 0x0000 } := by
  rcases mem_initConditions.1 h with ⟨hp, -⟩ | ⟨hp, hl, -⟩
  · rw [initAtomic_of_pins_invalid hp]
  · rw [initAtomic_of_driver_fails hp hl]

/-- What an absorbed condition leaves of an atomic step: the calls made, the end of the receive phase for a
discarded frame, and the answer 0 for a failed `init` (R221, R222, R225). -/
structure Absorbed (s : State) (c : Condition) (t : State) (x : After) : Prop where
  state : t = { s with trace := t.trace }
  discards : c = .recvFailed ∨ c = .malformed ∨ c = .checksum → x = .more .tickBusy
  fails : c = .configPins ∨ c = .configLink → x = .done 0x0000

/-- The atomic step that meets a condition absorbs it. -/
theorem microStep_absorbs {t : State} {a : Activity} {x : After} {c : Condition}
    (hc : c ∈ microConditions s a) (h : microStep s a = some (t, x)) : Absorbed s c t x := by
  cases a with
  | tickRecv =>
    obtain ⟨hnone, rfl⟩ := mem_labelIf.1 hc
    cases h
    rw [Option.isNone_iff_eq_none.1 hnone]
    exact ⟨rfl, fun _ => rfl, nofun⟩
  | tickParse f =>
    obtain ⟨hnone, rfl⟩ := mem_labelIf.1 hc
    cases h
    rw [Option.isNone_iff_eq_none.1 hnone]
    exact ⟨rfl, fun _ => rfl, nofun⟩
  | tickValidate p =>
    obtain ⟨hv, rfl⟩ := mem_labelIf.1 hc
    cases (if_neg (by simpa using hv)).symm.trans h
    exact ⟨rfl, fun _ => rfl, nofun⟩
  | tickFreeSlots p =>
    obtain ⟨-, rfl⟩ := mem_labelIf.1 hc
    cases h
    exact ⟨rfl, nofun, nofun⟩
  | tickAckSend g | tickSend g =>
    obtain ⟨-, rfl⟩ := mem_labelIf.1 hc
    cases h
    exact ⟨rfl, nofun, nofun⟩
  | tickEncode scratch =>
    obtain ⟨-, rfl⟩ := mem_labelIf.1 hc
    cases h
    exact ⟨rfl, nofun, nofun⟩
  | tickDrain n scratch =>
    obtain ⟨he, rfl⟩ := mem_labelIf.1 hc
    have hread : s.readByte .tx = some (none, s) :=
      State.readByte_of_ring (b := .tx) (q := s.tx) rfl (if_pos he)
    cases (microStep_tickDrain hread n scratch).symm.trans h
    exact ⟨rfl, nofun, nofun⟩
  | flushRead =>
    obtain ⟨he, rfl⟩ := mem_labelIf.1 hc
    have hread : s.readByte .rx = some (none, s) :=
      State.readByte_of_ring (b := .rx) (q := s.rx) rfl (if_pos he)
    cases (microStep_flushRead hread).symm.trans h
    exact ⟨rfl, nofun, nofun⟩
  | initLink =>
    rcases mem_initConditions.1 hc with ⟨hp, rfl⟩ | ⟨hp, hl, rfl⟩
    · cases (if_neg (Bool.eq_false_iff.1 hp)).symm.trans h
      exact ⟨rfl, nofun, fun _ => rfl⟩
    · cases (if_pos hp).symm.trans h
      rw [hl]
      exact ⟨rfl, nofun, fun _ => rfl⟩
  | _ => cases hc

/-- A copy that is cut short is of the first `freeSlots(RX)` bytes (R157). -/
theorem copiedBytes_of_truncated {p : Packet} (h : .rxTrunc ∈ microConditions s (.tickFreeSlots p)) :
    s.copiedBytes p = p.payload.take (s.freeSlots .rx) := by
  obtain ⟨hlt, -⟩ := mem_labelIf.1 h
  rw [State.copiedBytes, Nat.min_eq_right (Nat.le_of_lt (of_decide_eq_true hlt))]

end Conditions

end Sys2Proof.Machine

namespace Sys2Proof

open Sys2Proof.Machine

/-- Settles O49, by the next stimulus. -/
theorem noOperationFaults : Obligations.NoOperationFaults := by
  intro s h
  cases hin : s.inputs with
  | nil => exact .inl ⟨s, by simp only [step, serve, hin]⟩
  | cons x rest =>
    cases x with
    | command r w => exact (h.command_outcome hin).imp_right fun href => .inl ⟨r, w, rest, rfl, href⟩
    | advance r =>
      obtain ⟨t, ht, -⟩ := (h.withInputs rest).advance r
      exact .inl ⟨t, (step_of_advance hin).trans ht⟩
    | link a => exact .inl ⟨{ s with inputs := rest, link := a }, by simp only [step, serve, hin]⟩
    | side bs =>
      cases ha : s.par.assembly with
      | integrated =>
        exact .inr (.inr (.inl ⟨bs, rest, rfl, rfl,
          by simp only [step, serve, hin, State.presentSide, ha]⟩))
      | components =>
        exact .inl ⟨{ s with inputs := rest, sideIn := bs },
          by simp only [step, serve, hin, State.presentSide, ha]⟩
    | pins v =>
      cases hl : s.resetLevel with
      | true => exact .inl ⟨{ s with inputs := rest, pinsValid := v },
          by simp only [step, serve, hin, State.setPins, hl, if_true]⟩
      | false => exact .inr (.inr (.inr ⟨v, rest, rfl, rfl,
          by simp only [step, serve, hin, State.setPins, hl, Bool.false_eq_true, if_false]⟩))
    | reset asserted =>
      cases asserted with
      | true => exact .inl ⟨_, by simp only [step, serve, hin]; rfl⟩
      | false => exact .inl ⟨_, by simp only [step, serve, hin]; rfl⟩

/-- Settles O50: an operation or an atomic step sends frames within bounds, and no other step sends. -/
theorem sentFramesStayWithinTheMtu : Obligations.SentFramesStayWithinTheMtu := by
  intro s t h hs hstep
  cases step_cases hstep with
  | idle _ ht => exact ht ▸ hs
  | waits r w rest _ _ _ ht => exact h.advance_sentFramesOk hs ht
  | takes r w rest i _ _ _ _ _ _ ht => exact (h.withInputs rest).exec_sentFramesOk hs ht
  | advances r rest _ ht => exact (h.withInputs rest).advance_sentFramesOk hs ht
  | input rest a bs p l _ _ _ _ ht =>
    subst ht
    exact hs.congr rfl rfl
  | resets rest _ ht =>
    subst ht
    exact hs.congr rfl rfl

/-- Settles O55, condition by condition. -/
theorem absorbedConditionsChangeNothing : Obligations.AbsorbedConditionsChangeNothing := by
  refine ⟨fun d s h => exec_write_of_full (txFull_mem_write.1 h),
    fun b s h => exec_rbReadByte_of_empty (noData_mem_rbReadByte.1 h),
    fun s h => (exec_read_eq s).trans (exec_rbReadByte_of_empty (noData_mem_rbReadByte.1 h)),
    fun s h => exec_pcEncode_of_gt (tooLong_mem_pcEncode.1 h), fun s t hc h hexec => ?_,
    fun s t a x c hc h => ?_, fun s p h => ?_⟩
  · cases (exec_init_single hc).symm.trans hexec
    have hconditions : conditionsOf .init s = initConditions s := by
      simp only [conditionsOf, State.compositeConditions, hc]
    rw [hconditions] at h
    exact h.elim initAtomic_of_condition initAtomic_of_condition
  · have habsorbed := microStep_absorbs hc h
    exact ⟨habsorbed.state, habsorbed.discards, habsorbed.fails⟩
  · rw [microStep, copiedBytes_of_truncated h]

/-- Settles O58: the step is a move of the application. -/
theorem applicationStepsLeaveTheServicingState : Obligations.ApplicationStepsLeaveTheServicingState := by
  intro s t x rest h hc hin hx ht
  have hmove : s.ApplicationMove t := h.step_move (r := .application) hc hin hx ht
  exact ⟨hmove.rx.head, hmove.rx.buf, hmove.tx.tail, hmove.seq, hmove.cfg, hmove.trace, hmove.svc,
    hmove.bounds⟩

/-- Settles O59: the step is a move of the servicing context. -/
theorem servicingStepsLeaveTheApplicationState : Obligations.ServicingStepsLeaveTheApplicationState := by
  intro s t x rest h hc hin hx ht
  have hmove : s.ServicingMove t := h.step_move (r := .servicing) hc hin hx ht
  exact ⟨hmove.rx.tail, hmove.tx.head, hmove.tx.buf, hmove.app, hmove.bounds⟩

/-- Settles O60: the invariant holds the room of the copy and the bytes of the drain. -/
theorem copyAndDrainNeverFallShort : Obligations.CopyAndDrainNeverFallShort :=
  ⟨fun _ _ _ _ h hsvc => h.copy_appends hsvc, fun _ _ _ h hsvc => h.drain_takes_oldest hsvc⟩

end Sys2Proof

/-! PROOF that a composite operation run without interruption under `dual` does what its atomic step under
`single` does (R60, R61, R67). A context in the middle of `a` at a state `s` is the pair `s`, `.more a`; an
atomic step leads from one such pair to the next whatever the context was in the middle of before, and the
program of an operation is a chain of these steps along the branches of the atomic step. -/

namespace Sys2Proof.Machine

/-! ## An atomic step does not look at the operations in progress -/

section SetRunning

variable (s : State) (r : Role) (y : Option Activity)

@[simp] theorem State.setRunning_ring (b : Buf) : (s.setRunning r y).ring b = s.ring b := by
  cases r <;> cases b <;> rfl

theorem State.setRunning_setRing (b : Buf) (q : RingBuffer) :
    (s.setRunning r y).setRing b q = (s.setRing b q).setRunning r y := by
  cases r <;> cases b <;> rfl

theorem State.setRunning_store (b : Buf) (d : Byte) :
    (s.setRunning r y).store b d = (s.store b d).map (·.setRunning r y) := by
  simp only [State.store, State.setRunning_ring, State.setRunning_par, Option.map_map]
  exact congrArg (Option.map · _) (funext (s.setRunning_setRing r y b))

theorem State.setRunning_readByte (b : Buf) :
    (s.setRunning r y).readByte b = (s.readByte b).map fun q => (q.1, q.2.setRunning r y) := by
  simp only [State.readByte, State.setRunning_ring, State.setRunning_par, State.setRunning_setRing,
    Option.map_map]
  rfl

theorem State.setRunning_observeAck (p : Packet) :
    (s.setRunning r y).observeAck p = (s.observeAck p).setRunning r y := by
  unfold State.observeAck
  rw [State.setRunning_par]
  split
  · cases r <;> rfl
  · rfl

theorem nextCopy_setRunning (p : Packet) (rest : List Byte) :
    nextCopy (s.setRunning r y) p rest = nextCopy s p rest := by
  cases r <;> cases rest <;> rfl

theorem microStep_setRunning (a : Activity) :
    microStep (s.setRunning r y) a = (microStep s a).map fun q => (q.1.setRunning r y, q.2) := by
  cases a with
  | tickValidate p =>
    by_cases hv : validate p = true <;> simp [microStep, hv, State.setRunning_observeAck]
  | tickCopy p rest =>
    cases rest with
    | nil => cases r <;> rfl
    | cons d rest =>
      simp only [microStep, State.setRunning_store, Option.map_map, Function.comp_def,
        nextCopy_setRunning]
  | tickDrain n scratch =>
    simp only [microStep, State.setRunning_readByte, Option.map_map, Function.comp_def]
  | flushRead =>
    simp only [microStep, State.setRunning_readByte, Option.map_map, Function.comp_def]
  | initLink =>
    cases r <;> by_cases hp : s.pinsValid = true <;> simp [microStep, hp] <;> rfl
  | _ => cases r <;> rfl

theorem State.setRunning_resume (x : After) : (s.setRunning r y).resume r x = s.resume r x := by
  cases r <;> cases x <;> rfl

theorem State.setRunning_of_running (h : s.running r = none) : s.setRunning r none = s := by
  cases r with
  | application =>
    have h : s.app = none := h
    rw [State.setRunning, ← h]
  | servicing =>
    have h : s.svc = none := h
    rw [State.setRunning, ← h]

end SetRunning

/-! ## Chains of atomic steps (R61, R67) -/

theorem advanceTimes_add {r : Role} {j k : Nat} {s t u : State} (h : advanceTimes r j s = .next t)
    (h' : advanceTimes r k t = .next u) : advanceTimes r (j + k) s = .next u := by
  induction j generalizing s with
  | zero =>
    cases h
    rwa [Nat.zero_add]
  | succ j ih =>
    rw [advanceTimes] at h
    rw [Nat.succ_add, advanceTimes]
    split at h
    next v hv => exact ih h
    next => cases h
    next => cases h

/-- With no step of the other context between, the context gets from `x` at `s` to `y` at `t`. -/
def Leads (r : Role) (s : State) (x : After) (t : State) (y : After) : Prop :=
  ∃ k, advanceTimes r k (s.resume r x) = .next (t.resume r y)

section Chains

variable {r : Role} {s t u : State} {x y z : After} {a : Activity}

theorem Leads.refl : Leads r s x s x := ⟨0, rfl⟩

theorem Leads.trans (h : Leads r s x t y) (h' : Leads r t y u z) : Leads r s x u z := by
  obtain ⟨j, hj⟩ := h
  obtain ⟨k, hk⟩ := h'
  exact ⟨j + k, advanceTimes_add hj hk⟩

/-- One atomic step leads on. -/
theorem Leads.of_microStep (h : microStep s a = some (t, x)) : Leads r s (.more a) t x := by
  have hstep : (s.setRunning r (some a)).advance r = .next (t.resume r x) := by
    rw [State.advance_some (State.running_setRunning s r (some a)), microStep_setRunning, h]
    exact congrArg Host.Outcome.next (State.setRunning_resume t r (some a) x)
  exact ⟨1, by rw [State.resume, advanceTimes, hstep]; rfl⟩

/-- One atomic step and what follows it. -/
theorem Leads.head (h : microStep s a = some (t, x)) (h' : Leads r t x u y) :
    Leads r s (.more a) u y :=
  (Leads.of_microStep h).trans h'

/-- A program that leads to the return with what its operation answers as one atomic step. -/
theorem uninterrupted_of_leads {i : Instr} {w : Half} (hi : compositeOf i = some (r, a))
    (hc : s.par.contexts = .dual) (h : Leads r s (.more a) t (.done w)) (ht : t.running r = none)
    (hexec : exec i (s.withContexts .single) = .next ((t.respond w).withContexts .single)) :
    ∃ begun k t, exec i s = .next begun ∧ advanceTimes r k begun = .next t ∧ t.running r = none ∧
      exec i (s.withContexts .single) = .next (t.withContexts .single) := by
  obtain ⟨k, hk⟩ := h
  refine ⟨s.setRunning r (some a), k, t.respond w, compositeOperationsBeginUnderDual i r a s hi hc, ?_, ?_,
    hexec⟩
  · rw [← t.setRunning_of_running r ht]
    exact hk
  · cases r <;> exact ht

end Chains

/-! ## The program of `flush` (R188) -/

theorem leads_flush {s : State} {fuel : Nat} {q : RingBuffer}
    (h : s.rx.flush s.par.capacity fuel = some q) :
    Leads .application s (.more .flushRead) (s.setRing .rx q) (.done 0x0000) := by
  induction fuel generalizing s with
  | zero => cases h
  | succ fuel ih =>
    rw [RingBuffer.flush] at h
    split at h
    · cases h
    · rename_i q' hr
      cases h
      have hread : s.readByte .rx = some (none, s.setRing .rx q) := State.readByte_of_ring rfl hr
      exact .head (microStep_flushRead hread) (.of_microStep rfl)
    · rename_i v q' hr
      have hread : s.readByte .rx = some (some v, s.setRing .rx q') := State.readByte_of_ring rfl hr
      exact .head (microStep_flushRead hread) (ih (s := s.setRing .rx q') h)

/-! ## The program of `tick`: the receive phase (R152 to R162) -/

section Receive

variable {s t : State}

theorem sendPacket_eq_call_length {q : Packet} (h : q.payload.length < 256) :
    s.sendPacket q
      = s.call (.send (serialize s.par.wireOrder q) (serialize s.par.wireOrder q).length) := by
  rw [sendPacket_eq s h, length_serialize]

theorem leads_echoAck (s : State) (p : Packet) :
    Leads .servicing s (afterCopy s p) (s.echoAck p) (.more .tickBusy) := by
  unfold afterCopy State.echoAck
  split
  · have hencode : microStep s (.tickAckEncode p)
        = some (s, .more (.tickAckSerialize (ackFor s.par p))) := by
      rw [microStep, ackPacket_eq]
    rw [ackPacket_eq]
    dsimp only
    rw [sendPacket_eq_call_length (by simp)]
    exact .head hencode (.head rfl (.of_microStep rfl))
  · exact .refl

theorem leads_copy {p : Packet} {bytes : List Byte} {q : RingBuffer}
    (h : s.rx.storeAll s.par.capacity bytes = some q) :
    Leads .servicing s (nextCopy s p bytes) (s.setRing .rx q) (afterCopy s p) := by
  induction bytes generalizing s with
  | nil =>
    cases h
    exact .refl
  | cons d bytes ih =>
    rw [RingBuffer.storeAll] at h
    split at h
    · cases h
    · rename_i q' hq
      have hstore : s.store .rx d = some (s.setRing .rx q') := State.store_of_ring rfl hq
      exact .head (microStep_tickCopy hstore p bytes) (ih (s := s.setRing .rx q') h)

theorem copiedBytes_observeAck (s : State) (p : Packet) :
    (s.observeAck p).copiedBytes p = s.copiedBytes p := by
  rw [observeAck_frame]
  rfl

theorem leads_acceptPacket {p : Packet} (hv : validate p = true) (h : s.acceptPacket p = some t) :
    Leads .servicing s (.more (.tickValidate p)) t (.more .tickBusy) := by
  obtain ⟨u, hu, rfl⟩ := Option.map_eq_some_iff.1 h
  obtain ⟨q, hq, rfl⟩ := Option.map_eq_some_iff.1 hu
  have hcount : microStep (s.observeAck p) (.tickFreeSlots p)
      = some (s.observeAck p, nextCopy (s.observeAck p) p (s.copiedBytes p)) := by
    rw [microStep, copiedBytes_observeAck]
  exact .head (if_pos hv) (.head hcount ((leads_copy hq).trans (leads_echoAck _ p)))

theorem microStep_tickParse (s : State) (f : List Byte) :
    microStep s (.tickParse f)
      = some (s, ((parse s.par f).map fun p => .more (.tickValidate p)).getD (.more .tickBusy)) := by
  cases h : parse s.par f <;> simp [microStep, h]

/-- A frame that is not accepted ends the receive phase (R154). -/
theorem leads_rejectFrame {f : List Byte} (h : acceptFrame s.par f = none) :
    Leads .servicing s (.more (.tickParse f)) s (.more .tickBusy) := by
  have hparse := microStep_tickParse s f
  cases hp : parse s.par f with
  | none =>
    rw [hp] at hparse
    exact .of_microStep hparse
  | some p =>
    rw [hp] at hparse
    have hv : ¬ validate p = true := fun hv => by simp [acceptFrame_eq_some.2 ⟨hp, hv⟩] at h
    exact .head hparse (.of_microStep (if_neg hv))

/-- An accepted frame goes on with its packet (R154). -/
theorem leads_acceptFrame {f : List Byte} {p : Packet} (h : acceptFrame s.par f = some p)
    (hp : s.acceptPacket p = some t) : Leads .servicing s (.more (.tickParse f)) t (.more .tickBusy) := by
  obtain ⟨hparse, hv⟩ := acceptFrame_eq_some.1 h
  refine .head ?_ (leads_acceptPacket hv hp)
  rw [microStep_tickParse, hparse]
  rfl

theorem microStep_tickAvailable (s : State) : microStep s .tickAvailable
    = some (s.call .available, if s.link.available then .more .tickRecv else .more .tickBusy) := rfl

theorem microStep_tickRecv (s : State) : microStep s .tickRecv
    = some (s.call .recv, (s.link.recv.map fun f => .more (.tickParse f)).getD (.more .tickBusy)) := by
  cases h : s.link.recv <;> simp [microStep, h]

/-- The steps of the receive phase do what the phase does. -/
theorem leads_receivePhase (h : s.receivePhase = some t) :
    Leads .servicing s (.more .tickAvailable) t (.more .tickBusy) := by
  have hpoll := microStep_tickAvailable s
  have hrecv := microStep_tickRecv (s.call .available)
  rw [State.call_link] at hrecv
  unfold State.receivePhase at h
  split at h
  next ha =>
    rw [if_pos ha] at hpoll
    refine .head hpoll ?_
    split at h
    next hf =>
      rw [hf] at hrecv
      cases h
      exact .of_microStep hrecv
    next f hf =>
      rw [hf] at hrecv
      refine .head hrecv ?_
      split at h
      next hreject =>
        cases h
        exact leads_rejectFrame hreject
      next p haccept => exact leads_acceptFrame haccept h
  next ha =>
    rw [if_neg ha] at hpoll
    cases h
    exact .of_microStep hpoll

end Receive

/-! ## The program of `tick`: the transmit phase (R163 to R170) -/

section Transmit

variable {s t : State}

theorem leads_drain {n : Nat} {scratch bytes : List Byte} {q : RingBuffer}
    (h : s.tx.drain s.par.capacity n = some (bytes, q)) :
    Leads .servicing s (nextDrain scratch n) (s.setRing .tx q)
      (.more (.tickEncode (scratch ++ bytes))) := by
  induction n generalizing s scratch bytes with
  | zero =>
    cases h
    rw [List.append_nil]
    exact .refl
  | succ n ih =>
    rw [RingBuffer.drain] at h
    split at h
    · cases h
    · rename_i v q' hr
      split at h
      · cases h
      · rename_i vs q'' hd
        cases h
        have hread : s.readByte .tx = some (v, s.setRing .tx q') := State.readByte_of_ring rfl hr
        rw [← List.append_assoc]
        exact .head (microStep_tickDrain hread (n + 1) scratch) (ih (s := s.setRing .tx q') hd)

theorem leads_sendData (hl : s.par.Legal) (scratch : List Byte) :
    Leads .servicing s (.more (.tickEncode scratch)) (s.sendData scratch scratch.length)
      (.done 0x0000) := by
  have hencode : microStep s (.tickEncode scratch)
      = some (s, match s.dataPacket scratch scratch.length with
        | some q => .more (.tickSeq q)
        | none => .done rspNothing) := rfl
  unfold State.sendData
  rcases encodePacket_cases s.par scratch scratch.length s.seq s.par.txStreamId (txFlags s.par.flags)
    with ⟨-, hfail⟩ | ⟨hmax, q, hq, -, -, -, hpayload, -⟩
  · have hfail : s.dataPacket scratch scratch.length = none := hfail
    rw [hfail] at hencode ⊢
    exact .of_microStep hencode
  · have hq : s.dataPacket scratch scratch.length = some q := hq
    have h256 : q.payload.length < 256 :=
      payload_length_lt hl (by rw [hpayload, List.take_length]; exact hmax)
    rw [hq] at hencode ⊢
    dsimp only
    rw [sendPacket_eq_call_length h256]
    exact .head hencode (.head rfl (.head rfl (.of_microStep rfl)))

/-- The steps of the transmit phase do what the phase does. -/
theorem leads_transmitPhase (hl : s.par.Legal) (htx : s.tx.Ok s.par.capacity)
    (h : s.transmitPhase = some t) :
    Leads .servicing s (.more .tickBusy) t (.done 0x0000) := by
  have hbusy : microStep s .tickBusy = some (s.call .currentlyTransmitting,
      if s.link.currentlyTransmitting then .done rspNothing else .more .tickOccupied) := rfl
  have hcount : microStep (s.call .currentlyTransmitting) .tickOccupied
      = some (s.call .currentlyTransmitting,
        if s.transmitCount = 0 then .done rspNothing else nextDrain [] s.transmitCount) := rfl
  unfold State.transmitPhase at h
  split at h
  next hb =>
    rw [if_pos hb] at hbusy
    cases h
    exact .of_microStep hbusy
  next hb =>
    rw [if_neg hb] at hbusy
    refine .head hbusy ?_
    split at h
    next h0 =>
      rw [if_pos h0] at hcount
      cases h
      exact .of_microStep hcount
    next h0 =>
      rw [if_neg h0] at hcount
      obtain ⟨⟨bytes, q⟩, hd, rfl⟩ := Option.map_eq_some_iff.1 h
      have hocc : s.transmitCount ≤ s.tx.occupied s.par.capacity := Nat.min_le_left _ _
      obtain ⟨q', hd', -⟩ := RingBuffer.drain_cases htx hocc
      have hbytes : s.transmitCount = bytes.length := by
        obtain ⟨rfl, -⟩ := Prod.mk.inj (Option.some.inj (hd.symm.trans hd'))
        rw [List.length_take, RingBuffer.length_contents, Nat.min_eq_left hocc]
      refine .head hcount ((leads_drain (s := s.call .currentlyTransmitting) hd).trans ?_)
      rw [hbytes]
      exact leads_sendData (s := (s.call .currentlyTransmitting).setRing .tx q) hl bytes

end Transmit

/-! ## The program of `init` (R208) -/

theorem leads_init (s : State) : ∃ t w, Leads .servicing s (.more .initLink) t (.done w) ∧
    t.svc = s.svc ∧
    (s.withContexts .single).initAtomic = (t.respond w).withContexts .single := by
  cases hp : s.pinsValid with
  | false =>
    exact ⟨s, 0x0000, .of_microStep (if_neg (Bool.eq_false_iff.1 hp)), rfl,
      initAtomic_of_pins_invalid (s := s.withContexts .single) hp⟩
  | true =>
    have htry : microStep s .initLink = some (s.call .init,
        if s.link.init then .more .initDefaults else .done (rspBool false)) := if_pos hp
    cases hl : s.link.init with
    | false =>
      rw [if_neg (Bool.eq_false_iff.1 hl)] at htry
      exact ⟨_, _, .of_microStep htry, rfl,
        initAtomic_of_driver_fails (s := s.withContexts .single) hp hl⟩
    | true =>
      rw [if_pos hl] at htry
      refine ⟨_, _, .head htry (.head rfl (.head rfl (.of_microStep rfl))), rfl, ?_⟩
      rw [initAtomic_of_success (s := s.withContexts .single) hp hl]
      simp [State.withContexts, State.respond, State.call, State.emit, State.setCfgDefaults, rspBool]

end Sys2Proof.Machine

namespace Sys2Proof

open Sys2Proof.Machine

/-- Settles O57, operation by operation: the chain of its steps ends where its atomic step does. -/
theorem uninterruptedProgramEqualsAtomicStep : Obligations.UninterruptedProgramEqualsAtomicStep := by
  intro i r a s hi h hc hr
  cases i with
  | flush =>
    cases hi
    have hflush := RingBuffer.flush_cases h.rx (s.rx.occupied_lt h.rx.1)
    exact uninterrupted_of_leads rfl hc (leads_flush hflush) hr
      (exec_flush_single (s := s.withContexts .single) h.rx rfl)
  | tick =>
    cases hi
    obtain ⟨rx, hstore, hreceive⟩ := receivePhase_cases h.par h.rx
    obtain ⟨tx, hdrain, htransmit⟩ := transmitPhase_cases
      (s := { s with rx := rx, trace := s.trace ++ receiveEvents s }) h.par h.tx
    obtain ⟨rx', tx', hstore', hdrain', htick⟩ :=
      exec_tick_cases (s := s.withContexts .single) h.par h.rx h.tx rfl
    obtain rfl : rx = rx' := Option.some.inj (hstore.symm.trans hstore')
    obtain rfl : tx = tx' := (Prod.mk.inj (Option.some.inj (hdrain.symm.trans hdrain'))).2
    exact uninterrupted_of_leads rfl hc
      ((leads_receivePhase hreceive).trans (leads_transmitPhase h.par h.tx htransmit)) hr htick
  | setBiteRate x =>
    cases hi
    exact uninterrupted_of_leads rfl hc (.head rfl (.of_microStep rfl)) hr
      (exec_setBiteRate_single (s := s.withContexts .single) rfl x)
  | setPower x =>
    cases hi
    exact uninterrupted_of_leads rfl hc (.head rfl (.of_microStep rfl)) hr
      (exec_setPower_single (s := s.withContexts .single) rfl x)
  | setChannel x =>
    cases hi
    exact uninterrupted_of_leads rfl hc (.head rfl (.of_microStep rfl)) hr
      (exec_setChannel_single (s := s.withContexts .single) rfl x)
  | init =>
    cases hi
    obtain ⟨t, w, hleads, hsvc, hatomic⟩ := leads_init s
    refine uninterrupted_of_leads rfl hc hleads (hsvc.trans hr) ?_
    exact (exec_init_single (s := s.withContexts .single) rfl).trans
      (congrArg Host.Outcome.next hatomic)
  | _ => cases hi

end Sys2Proof
